-- ==== Sys2Proof/Word.lean ====
section
/-! DEFINITION. The word types of the core and the index types of its memories. -/

namespace Sys2Proof

/-- A host-visible register, a command word, a count (00_scope.md R7: `REG_W` = `FREQ_W` = 32). -/
abbrev Word := BitVec 32

/-- A byte of a stream (R7: `BYTE_W` = 8). -/
abbrev Byte := BitVec 8

/-- A node frequency during construction (R7: `SUM_W` = 41). -/
abbrev Sum := BitVec 41

/-- A symbol of the alphabet: 0 to 255 are bytes, 256 is the sentinel (00_scope.md R4: `NSYM` = 257). -/
abbrev Symbol := Fin 257

/-- An index of the node memory, 0 to 512 (R7: `MAX_NODES` = 513). -/
abbrev NodeIx := Fin 513

/-- The end-of-stream symbol (R4, R7: `SENTINEL` = 256). -/
abbrev sentinel : Symbol := 256

/-- The symbol that stands for a byte (R4: symbols 0 to 255 are literal byte values). -/
def byteSymbol (b : Byte) : Symbol := ⟨b.toNat, Nat.lt_succ_of_lt b.isLt⟩

end Sys2Proof
end

