-- ==== Sys2Proof/Config.lean ====
section
/-! DEFINITION. What an implementation fixes, and the free values the spec leaves open. -/

namespace Sys2Proof.Config

/-- Default capacity of `IN` (00_scope.md R7). -/
def inDepthDefault : Nat := 16

/-- Default capacity of `OUT` (00_scope.md R7). -/
def outDepthDefault : Nat := 16

/-- Default of the container's magic number (00_scope.md R7; PRESUMED by the spec itself, 93_implementation_defined.md X1; log 7). -/
def magicDefault : Word := 0x00000736#32

/-- The constant `ID` reads (10_state.md R31). -/
def idValue : Word := 0x48554631#32

/-- Which 64-byte block of the host's address space the platform gives the core: OPEN (20_memory.md R95; log 8). -/
opaque platformBlock : Nat

/-- `BASE`, aligned to 64 bytes (20_memory.md R95). -/
def base : Nat := 64 * platformBlock

/-- The `n`-th unspecified 32-bit value a host read returns while BUSY = 1: "a free draw under no law"
(10_state.md R62; 93_implementation_defined.md U1; log 3). -/
opaque freeWord : Nat → Word

end Sys2Proof.Config
end

