-- ==== Sys2Proof/Syntax.lean ====
section
/-! DEFINITION. The command set GHC-1: one constructor per row of spec/opcode_table.json (30_encoding.md R143).
The operands are the word's fields as they stand: `IDX` (10 bits) and `N` (5 bits), R140. -/

namespace Sys2Proof

inductive Instr where
  /-- `NOP` (R188). -/
  | nop
  /-- `FREQ_CLEAR` (R200). -/
  | freqClear
  /-- `FREQ_WRITE sym` (R201). -/
  | freqWrite (sym : BitVec 10)
  /-- `FREQ_READ sym` (R203). -/
  | freqRead (sym : BitVec 10)
  /-- `FREQ_COUNT` (R205). -/
  | freqCount
  /-- `BUILD` (R220). -/
  | build
  /-- `SERIALIZE` (R240). -/
  | serialize
  /-- `DESERIALIZE` (R245). -/
  | deserialize
  /-- `ENCODE` (R260). -/
  | encode
  /-- `ENCODE_SYM sym` (R264). -/
  | encodeSym (sym : BitVec 10)
  /-- `DECODE` (R280). -/
  | decode
  /-- `DECODE_SYM` (R285). -/
  | decodeSym
  /-- `PUT_BITS n`, the field `N` = n - 1 (R142, R300). -/
  | putBits (nm1 : BitVec 5)
  /-- `GET_BITS n`, the field `N` = n - 1 (R142, R302). -/
  | getBits (nm1 : BitVec 5)
  /-- `FLUSH` (R304). -/
  | flush
  /-- `ALIGN_IN` (R306). -/
  | alignIn
  /-- `MAGIC_WRITE` (R308). -/
  | magicWrite
  /-- `MAGIC_CHECK` (R310). -/
  | magicCheck
  /-- `NODE_READ node` (R320). -/
  | nodeRead (node : BitVec 10)
  /-- `CODE_LEN_READ sym` (R322). -/
  | codeLenRead (sym : BitVec 10)
  /-- `CODE_BITS_READ sym, w` (R324). -/
  | codeBitsRead (sym : BitVec 10) (w : BitVec 5)
deriving DecidableEq, Repr

end Sys2Proof
end

