-- ==== Sys2Proof/WellFormed.lean ====
section
/-! DEFINITION. Well-formed commands: the operand ranges of 30_encoding.md R142 and R145.
A command whose word is legal and that is not well formed is the one that raises `BAD_ARG`. -/

namespace Sys2Proof

/-- The range checks of R145; every other command takes every value of its fields. -/
def Instr.inRange : Instr → Bool
  | .nop => true
  | .freqClear => true
  | .freqWrite sym => decide (sym.toNat ≤ 255)
  | .freqRead sym => decide (sym.toNat ≤ 256)
  | .freqCount => true
  | .build => true
  | .serialize => true
  | .deserialize => true
  | .encode => true
  | .encodeSym sym => decide (sym.toNat ≤ 256)
  | .decode => true
  | .decodeSym => true
  | .putBits _ => true
  | .getBits _ => true
  | .flush => true
  | .alignIn => true
  | .magicWrite => true
  | .magicCheck => true
  | .nodeRead node => decide (node.toNat ≤ 512)
  | .codeLenRead sym => decide (sym.toNat ≤ 256)
  | .codeBitsRead sym w => decide (sym.toNat ≤ 256) && decide (w.toNat ≤ 7)

/-- A well-formed command: every operand is in its range (R142, R145). -/
abbrev Instr.WellFormed (i : Instr) : Prop := i.inRange = true

end Sys2Proof
end

