-- ==== Sys2Proof/Decode.lean ====
section
/-! DEFINITION. The command word: decoding, total on 32-bit words and rejecting by name (30_encoding.md R140 to R146),
and the encoder (R142, R160). -/

namespace Sys2Proof

/-- Why a word is illegal (30_encoding.md R144). Each of them is the one error `ILLEGAL_CMD`. -/
inductive DecodeError where
  /-- `OP` is in 0x15 to 0xFF. -/
  | reservedOpcode
  /-- `RSV` ≠ 0. -/
  | reservedBits
  /-- `IDX` ≠ 0 where the row marks it 0. -/
  | nonzeroIdx
  /-- `N` ≠ 0 where the row marks it 0. -/
  | nonzeroN
deriving DecidableEq, Repr

/-- `OP = w[7:0]` (R141). -/
def opField (w : Word) : BitVec 8 := w.extractLsb' 0 8
/-- `IDX = w[17:8]` (R141). -/
def idxField (w : Word) : BitVec 10 := w.extractLsb' 8 10
/-- `N = w[22:18]` (R141). -/
def nField (w : Word) : BitVec 5 := w.extractLsb' 18 5
/-- `RSV = w[31:23]` (R141). -/
def rsvField (w : Word) : BitVec 9 := w.extractLsb' 23 9

/-- A row that marks both `IDX` and `N` zero (R143). -/
def rowPlain (w : Word) (i : Instr) : Except DecodeError Instr :=
  if idxField w ≠ 0 then .error .nonzeroIdx
  else if nField w ≠ 0 then .error .nonzeroN
  else .ok i

/-- A row with the operand `IDX` that marks `N` zero (R143). -/
def rowIdx (w : Word) (f : BitVec 10 → Instr) : Except DecodeError Instr :=
  if nField w ≠ 0 then .error .nonzeroN else .ok (f (idxField w))

/-- A row with the operand `N` that marks `IDX` zero (R143). -/
def rowN (w : Word) (f : BitVec 5 → Instr) : Except DecodeError Instr :=
  if idxField w ≠ 0 then .error .nonzeroIdx else .ok (f (nField w))

/-- Decoding a command word (R141, R143, R144). -/
def decode (w : Word) : Except DecodeError Instr :=
  if rsvField w ≠ 0 then .error .reservedBits
  else match (opField w).toNat with
    | 0x00 => rowPlain w .nop
    | 0x01 => rowPlain w .freqClear
    | 0x02 => rowIdx w .freqWrite
    | 0x03 => rowIdx w .freqRead
    | 0x04 => rowPlain w .freqCount
    | 0x05 => rowPlain w .build
    | 0x06 => rowPlain w .serialize
    | 0x07 => rowPlain w .deserialize
    | 0x08 => rowPlain w .encode
    | 0x09 => rowIdx w .encodeSym
    | 0x0A => rowPlain w .decode
    | 0x0B => rowPlain w .decodeSym
    | 0x0C => rowN w .putBits
    | 0x0D => rowN w .getBits
    | 0x0E => rowPlain w .flush
    | 0x0F => rowPlain w .alignIn
    | 0x10 => rowPlain w .magicWrite
    | 0x11 => rowPlain w .magicCheck
    | 0x12 => rowIdx w .nodeRead
    | 0x13 => rowIdx w .codeLenRead
    | 0x14 => .ok (.codeBitsRead (idxField w) (nField w))
    | _ => .error .reservedOpcode

/-- The opcode of a command (R143). -/
def Instr.opcode : Instr → BitVec 8
  | .nop => 0x00#8
  | .freqClear => 0x01#8
  | .freqWrite _ => 0x02#8
  | .freqRead _ => 0x03#8
  | .freqCount => 0x04#8
  | .build => 0x05#8
  | .serialize => 0x06#8
  | .deserialize => 0x07#8
  | .encode => 0x08#8
  | .encodeSym _ => 0x09#8
  | .decode => 0x0A#8
  | .decodeSym => 0x0B#8
  | .putBits _ => 0x0C#8
  | .getBits _ => 0x0D#8
  | .flush => 0x0E#8
  | .alignIn => 0x0F#8
  | .magicWrite => 0x10#8
  | .magicCheck => 0x11#8
  | .nodeRead _ => 0x12#8
  | .codeLenRead _ => 0x13#8
  | .codeBitsRead _ _ => 0x14#8

/-- The `IDX` field of a command (R143). -/
def Instr.idxOperand : Instr → BitVec 10
  | .freqWrite sym => sym
  | .freqRead sym => sym
  | .encodeSym sym => sym
  | .nodeRead node => node
  | .codeLenRead sym => sym
  | .codeBitsRead sym _ => sym
  | _ => 0#10

/-- The `N` field of a command (R143). -/
def Instr.nOperand : Instr → BitVec 5
  | .putBits nm1 => nm1
  | .getBits nm1 => nm1
  | .codeBitsRead _ w => w
  | _ => 0#5

/-- The assembled word `OP | (IDX << 8) | (N << 18)` (R160). -/
def encode (i : Instr) : Word :=
  i.opcode.setWidth 32 ||| (i.idxOperand.setWidth 32 <<< 8) ||| (i.nOperand.setWidth 32 <<< 18)

/-- A row of the opcode map: a word selects it exactly when `w & mask = match` (R143). -/
structure OpcodeRow where
  matchBits : Word
  mask : Word
deriving DecidableEq, Repr

/-- Whether a word selects a row (R143). -/
def OpcodeRow.selects (r : OpcodeRow) (w : Word) : Bool := w &&& r.mask == r.matchBits

/-- The `match` and `mask` columns of R143, in the table's order. -/
def opcodeMap : List OpcodeRow :=
  [⟨0x00000000#32, 0xFFFFFFFF#32⟩, ⟨0x00000001#32, 0xFFFFFFFF#32⟩, ⟨0x00000002#32, 0xFFFC00FF#32⟩,
   ⟨0x00000003#32, 0xFFFC00FF#32⟩, ⟨0x00000004#32, 0xFFFFFFFF#32⟩, ⟨0x00000005#32, 0xFFFFFFFF#32⟩,
   ⟨0x00000006#32, 0xFFFFFFFF#32⟩, ⟨0x00000007#32, 0xFFFFFFFF#32⟩, ⟨0x00000008#32, 0xFFFFFFFF#32⟩,
   ⟨0x00000009#32, 0xFFFC00FF#32⟩, ⟨0x0000000A#32, 0xFFFFFFFF#32⟩] ++
  [⟨0x0000000B#32, 0xFFFFFFFF#32⟩, ⟨0x0000000C#32, 0xFF83FFFF#32⟩, ⟨0x0000000D#32, 0xFF83FFFF#32⟩,
   ⟨0x0000000E#32, 0xFFFFFFFF#32⟩, ⟨0x0000000F#32, 0xFFFFFFFF#32⟩, ⟨0x00000010#32, 0xFFFFFFFF#32⟩,
   ⟨0x00000011#32, 0xFFFFFFFF#32⟩, ⟨0x00000012#32, 0xFFFC00FF#32⟩, ⟨0x00000013#32, 0xFFFC00FF#32⟩,
   ⟨0x00000014#32, 0xFF8000FF#32⟩]

/-- The command a 32-bit table word decodes to. Every row of the table has 32 bits (R140, R146), so the word is the
low 32 bits of `w` (log 22). -/
def decodeTableWord (_nbits w : Nat) : Option Instr := (decode (BitVec.ofNat 32 w)).toOption

end Sys2Proof
end

