-- ==== Sys2Proof/Machine/State.lean ====
section
/-! DEFINITION. The state of the core, as plain data (10_state.md), the reasons a step can stop, and the state after reset
(10_state.md R60). -/

namespace Sys2Proof.Machine

/-- Why the machine stops with a fault. Raised only by the engine, and only in states that no run from reset reaches;
both are safe (the model stops where the hardware cannot be). Log 12. -/
inductive Fault where
  /-- The engine stands at a program point that the running command's pseudocode does not have.
  Raised by a command's micro-step. Safe. -/
  | strayProgramPoint
  /-- `DESERIALIZE` would number a 514th node; 43_tree_serial.md R247 shows that it never does.
  Raised by `DESERIALIZE`. Safe. -/
  | nodeMemoryFull
deriving DecidableEq, Repr

/-- Why a step has no meaning. -/
inductive Refusal where
  /-- A command that has no meaning yet; raised by `exec` alone. Safe. -/
  | notModelled (mnemonic : String)
  /-- A host access of another width than 4 bytes or at an offset not a multiple of 4: "the block signals a bus error
  to the host and changes no state" (20_memory.md R93). Raised by a host access. Safe. Log 9. -/
  | busError
  /-- A host access outside `BASE` to `BASE + 0x3F`, which is not to this block (20_memory.md R95; 10_state.md R47).
  Raised by a host access. Safe. Log 9. -/
  | outsideWindow
deriving DecidableEq, Repr

/-- The error codes of 60_exceptions.md R340. -/
inductive ErrCode where
  | none | illegalCmd | badArg | noTree | truncated | badSymbol | dupSymbol | treeTooLarge | leafRoot | noSentinel
  | noCode | freqOverflow | badMagic | aborted
deriving DecidableEq, Repr

/-- The parameters of one instance of the core (00_scope.md R7): fixed, no step changes them. Log 7. -/
structure Params where
  /-- `BASE` (20_memory.md R95). -/
  base : Nat
  /-- `IN_DEPTH`, at least 1. -/
  inDepth : Nat
  /-- `OUT_DEPTH`, at least 1. -/
  outDepth : Nat
  /-- `MAGIC`. -/
  magic : Word
deriving DecidableEq, Repr

/-- The stored fields of `STATUS` (10_state.md R34). `TREE_VALID` is held with the tree, `IN_END` with the input channel,
and `IRQ` is computed. -/
structure Status where
  busy : Bool
  done : Bool
  err : Bool
  inDrop : Bool
  cmdDrop : Bool
  errcode : ErrCode
  lastOp : Byte
deriving DecidableEq, Repr

/-- `IRQ_EN` (10_state.md R36). -/
structure IrqEn where
  doneIe : Bool
  errIe : Bool
deriving DecidableEq, Repr

/-- The input channel (10_state.md R56) with its counter `BITS_IN` (R45). -/
structure InChan where
  /-- `IN`, oldest byte first. -/
  fifo : List Byte
  /-- `in_end`. -/
  ended : Bool
  /-- `br_byte`. -/
  brByte : Byte
  /-- `br_cnt`, the unread bits of `br_byte`. -/
  brCnt : Fin 8
  /-- `BITS_IN`. -/
  bitsIn : Word
deriving DecidableEq, Repr

/-- The output channel (10_state.md R57) with its counter `BITS_OUT` (R45). -/
structure OutChan where
  /-- `OUT`, oldest byte first. -/
  fifo : List Byte
  /-- `bw_byte`. -/
  bwByte : Byte
  /-- `bw_cnt`, the bits already placed in `bw_byte`. -/
  bwCnt : Fin 8
  /-- `BITS_OUT`. -/
  bitsOut : Word
deriving DecidableEq, Repr

/-- An entry of the node memory (10_state.md R52): "A node never holds both a symbol and children". Log 11. -/
inductive Node where
  | leaf (sym : Symbol)
  | int (left right : NodeIx)
deriving DecidableEq, Repr

/-- An entry of the code table (10_state.md R54). Bit j of `bits` is c_j, the (j+1)-th bit written (log 19). -/
structure CodeEntry where
  /-- `CODE_VALID[s]`. -/
  valid : Bool
  /-- `CODE_LEN[s]`. -/
  len : BitVec 9
  /-- `CODE_BITS[s]`. -/
  bits : BitVec 256
deriving DecidableEq, Repr

/-- The entry of a symbol that has no leaf (10_state.md R54; 42_tree_build.md R228). -/
def CodeEntry.absent : CodeEntry := ⟨false, 0, 0⟩

/-- The tree registers and memories (10_state.md R52 to R55). -/
structure TreeMem where
  /-- `NODE[0..512]`. -/
  nodes : Vector Node 513
  /-- `WFREQ[0..512]`. -/
  wfreq : Vector Sum 513
  /-- `CODE_VALID`, `CODE_LEN`, `CODE_BITS` of the symbols 0 to 256. -/
  codes : Vector CodeEntry 257
  /-- `ROOT`. -/
  root : NodeIx
  /-- `NODE_COUNT`. -/
  count : BitVec 10
  /-- `TREE_VALID`. -/
  valid : Bool
deriving DecidableEq, Repr

/-- Which child of its parent a pending slot is (10_state.md R58: the 1-bit side tag). -/
inductive Side where
  | left | right
deriving DecidableEq, Repr

/-- An entry of `stk` (10_state.md R58): a node index, a side tag and a no-parent tag. `SERIALIZE` uses the index alone. -/
structure StkEntry where
  ix : NodeIx
  side : Side
  noParent : Bool
deriving DecidableEq, Repr

/-- The primitives at which the engine can stand, named by the command's pseudocode (10_state.md R58: `eng_pp`). -/
inductive ProgPoint where
  /-- Before the common checks of 40_command_protocol.md R183. -/
  | start
  /-- `FREQ_COUNT`: a bit of `ReadBits(8)` (R205). -/
  | freqByte
  /-- `SERIALIZE`: the marker of an internal node (R240). -/
  | serInt
  /-- `SERIALIZE`: the marker or a symbol bit of a leaf (R240). -/
  | serLeaf
  /-- `DESERIALIZE`: a marker (R245). -/
  | desMark
  /-- `DESERIALIZE`: a bit of `ReadBits(9)` (R245). -/
  | desSym
  /-- `ENCODE`: a bit of `ReadBits(8)` (R260). -/
  | encByte
  /-- `ENCODE`: a bit of a byte's code (R260, R262). -/
  | encCode
  /-- `ENCODE`: a bit of the terminator (R260, R262). -/
  | encEnd
  /-- `ENCODE_SYM`: a bit of the code (R264). -/
  | encSym
  /-- `DECODE`: a bit of the walk (R280, R282). -/
  | decWalk
  /-- `DECODE`: a bit of the byte written (R280). -/
  | decByte
  /-- `DECODE_SYM`: a bit of the walk (R285, R282). -/
  | dsymWalk
  /-- `PUT_BITS`: a bit (R300). -/
  | putBit
  /-- `GET_BITS`: a bit (R302). -/
  | getBit
  /-- `FLUSH`: the `FlushByte` (R304). -/
  | flushByte
  /-- `MAGIC_WRITE`: a bit (R308). -/
  | magicOut
  /-- `MAGIC_CHECK`: a bit (R310). -/
  | magicIn
deriving DecidableEq, Repr

/-- The work variables of the running command (10_state.md R58; log 16). -/
structure Work where
  cnt : Word
  nbits : Word
  /-- `cur`, the decoder's node. -/
  cur : NodeIx
  /-- The local node index `x` of `SERIALIZE` and `DESERIALIZE`. -/
  x : NodeIx
  /-- `stk[0..sp-1]`, the top first; `sp` is its length. -/
  stk : List StkEntry
  nn : Nat
  ni : Nat
  nl : Nat
  /-- `seen[0..256]`. -/
  seen : Vector Bool 257
  /-- The loop counter of `ReadBits`: the bits read so far. -/
  rk : Nat
  /-- The value `ReadBits` has read so far. -/
  rv : Word
  /-- The loop of `WriteBits` and `WriteCode`: the bits still to write, the next first. -/
  wq : List Bool
deriving DecidableEq, Repr

/-- `sp` (10_state.md R58). -/
def Work.sp (w : Work) : Nat := w.stk.length

/-- The engine (10_state.md R58); `BUSY` is held in `Status`. -/
structure Engine where
  /-- `eng_cmd`. -/
  cmd : Word
  /-- `eng_arg`. -/
  arg : Word
  /-- `eng_pp`. -/
  pp : ProgPoint
  work : Work
deriving DecidableEq, Repr

/-- What a host access does (20_memory.md R92). -/
inductive AccessKind where
  | read
  | write (v : Word)
deriving DecidableEq, Repr

/-- A host access: a byte address of the host's address space, a width in bytes, and what it does (20_memory.md R92, R93). -/
structure Access where
  addr : Nat
  bytes : Nat
  kind : AccessKind
deriving DecidableEq, Repr

/-- One step of one agent (20_memory.md R90). -/
inductive Move where
  | engine
  | host (a : Access)
deriving DecidableEq, Repr

/-- The state of the core. The last three fields are the model's own (logs 1, 3, 15). -/
structure State where
  params : Params
  status : Status
  irqEn : IrqEn
  /-- `ARG` (10_state.md R38). -/
  arg : Word
  /-- `RESULT` (10_state.md R39). -/
  result : Word
  inp : InChan
  out : OutChan
  /-- `FREQ[0..255]` (10_state.md R50). -/
  freq : Vector Word 256
  tree : TreeMem
  eng : Engine
  /-- The moves still to come, the next first (20_memory.md R91; log 1). -/
  sched : List Move
  /-- The values returned to host reads, the newest first (log 15). -/
  reads : List Word
  /-- How many unspecified values have been drawn (log 3). -/
  draws : Nat
deriving DecidableEq, Repr

/-! One named update per field, so that proofs cite `Laws/State.lean` and never unfold a record update. -/

def State.setStatus (s : State) (v : Status) : State := { s with status := v }
def State.setIrqEn (s : State) (v : IrqEn) : State := { s with irqEn := v }
def State.setArg (s : State) (v : Word) : State := { s with arg := v }
def State.setResult (s : State) (v : Word) : State := { s with result := v }
def State.setInp (s : State) (v : InChan) : State := { s with inp := v }
def State.setOut (s : State) (v : OutChan) : State := { s with out := v }
def State.setFreq (s : State) (v : Vector Word 256) : State := { s with freq := v }
def State.setTree (s : State) (v : TreeMem) : State := { s with tree := v }
def State.setEng (s : State) (v : Engine) : State := { s with eng := v }
def State.setSched (s : State) (v : List Move) : State := { s with sched := v }
def State.setReads (s : State) (v : List Word) : State := { s with reads := v }
def State.setDraws (s : State) (v : Nat) : State := { s with draws := v }

/-- The default parameters (00_scope.md R7; logs 7, 8). -/
def Params.default : Params := ⟨Config.base, Config.inDepthDefault, Config.outDepthDefault, Config.magicDefault⟩

/-- The reset value of the status flags (10_state.md R60). -/
def Status.reset : Status := ⟨false, false, false, false, false, .none, 0⟩

/-- The reset value of the input channel (10_state.md R56, R60). -/
def InChan.reset : InChan := ⟨[], false, 0, 0, 0⟩

/-- The reset value of the output channel (10_state.md R57, R60). -/
def OutChan.reset : OutChan := ⟨[], 0, 0, 0⟩

/-- The reset value of the tree (10_state.md R53, R60); the memories, which the spec leaves unspecified, hold zeros
(DESIGN CHOICE, log 4). -/
def TreeMem.reset : TreeMem :=
  ⟨.replicate 513 (.leaf 0), .replicate 513 0, .replicate 257 CodeEntry.absent, 0, 0, false⟩

/-- The work variables at reset, which the spec leaves unspecified (DESIGN CHOICE, log 5). -/
def Work.reset : Work := ⟨0, 0, 0, 0, [], 0, 0, 0, .replicate 257 false, 0, 0, []⟩

/-- The reset value of the engine (10_state.md R58, R60; the program point: DESIGN CHOICE, log 5). -/
def Engine.reset : Engine := ⟨0, 0, .start, Work.reset⟩

/-- The clean state of an instance (70_reset_and_hazards.md R380, R382). -/
def State.resetWith (p : Params) : State :=
  { params := p
    status := Status.reset
    irqEn := ⟨false, false⟩
    arg := 0
    result := 0
    inp := InChan.reset
    out := OutChan.reset
    freq := .replicate 256 0
    tree := TreeMem.reset
    eng := Engine.reset
    sched := []
    reads := []
    draws := 0 }

/-- The machine right after power-on reset (10_state.md R60; 70_reset_and_hazards.md R380), with the default parameters. -/
def State.reset : State := State.resetWith Params.default

end Sys2Proof.Machine
end

