-- ==== Sys2Proof/Machine/Flags.lean ====
section
/-! DEFINITION. The status flags: the error codes, the interrupt output, the value `STATUS` reads and its write-1-to-clear
bits (10_state.md R34 to R36; 60_exceptions.md R340, R350). -/

namespace Sys2Proof.Machine

/-- The value of `STATUS.ERRCODE` (60_exceptions.md R340). -/
def ErrCode.code : ErrCode → BitVec 8
  | .none => 0x00#8
  | .illegalCmd => 0x01#8
  | .badArg => 0x02#8
  | .noTree => 0x03#8
  | .truncated => 0x04#8
  | .badSymbol => 0x05#8
  | .dupSymbol => 0x06#8
  | .treeTooLarge => 0x07#8
  | .leafRoot => 0x08#8
  | .noSentinel => 0x09#8
  | .noCode => 0x0A#8
  | .freqOverflow => 0x0B#8
  | .badMagic => 0x0C#8
  | .aborted => 0x0D#8

/-- The interrupt output (60_exceptions.md R350). -/
def irq (s : State) : Bool := (s.status.done && s.irqEn.doneIe) || (s.status.err && s.irqEn.errIe)

/-- The value a read of `STATUS` returns, its fields from bit 31 down (10_state.md R34). -/
def statusWord (s : State) : Word :=
  0#8 ++ s.status.lastOp ++ s.status.errcode.code ++ BitVec.ofBool (irq s) ++ BitVec.ofBool s.status.cmdDrop ++
    BitVec.ofBool s.status.inDrop ++ BitVec.ofBool s.inp.ended ++ BitVec.ofBool s.tree.valid ++
    BitVec.ofBool s.status.err ++ BitVec.ofBool s.status.done ++ BitVec.ofBool s.status.busy

/-- The effect of a write of `v` to `STATUS` on the flags (10_state.md R35). -/
def Status.writeOneToClear (st : Status) (v : Word) : Status :=
  { st with
    done := st.done && !v.getLsbD 1
    err := st.err && !v.getLsbD 2
    errcode := if v.getLsbD 2 then .none else st.errcode
    inDrop := st.inDrop && !v.getLsbD 5
    cmdDrop := st.cmdDrop && !v.getLsbD 6 }

/-- The value a read of `IRQ_EN` returns (10_state.md R36). -/
def irqEnWord (e : IrqEn) : Word := 0#30 ++ BitVec.ofBool e.errIe ++ BitVec.ofBool e.doneIe

/-- The enables a write of `v` to `IRQ_EN` stores (10_state.md R36). -/
def irqEnOfWord (v : Word) : IrqEn := ⟨v.getLsbD 0, v.getLsbD 1⟩

end Sys2Proof.Machine
end

