-- ==== Sys2Proof/Machine/Operands.lean ====
section
/-! DEFINITION. The operands of a command: assembly of the fields (30_encoding.md R142), reads of the memories they index,
and the packing of the values they return (R157, R158). -/

namespace Sys2Proof.Machine

/-- The bit count of `PUT_BITS` and `GET_BITS`: `n = N + 1`, 1 to 32 (30_encoding.md R142). -/
def bitCount (nm1 : BitVec 5) : Nat := nm1.toNat + 1

/-- The low `n` bits of `v`, most significant first, as `WriteBits(n, v)` sends them (20_memory.md R100, R105). -/
def bitsMsb {w : Nat} (n : Nat) (v : BitVec w) : List Bool := (List.range n).reverse.map v.getLsbD

/-- `ReadBits` takes one more bit: `v <- (v << 1) | b` (20_memory.md R102). -/
def shiftIn (v : Word) (b : Bool) : Word := (v <<< 1) ||| (BitVec.ofBool b).setWidth 32

/-- `FREQ[k]`; a symbol without a table entry is absent (10_state.md R50). -/
def freqAt (f : Vector Word 256) (k : Nat) : Word := (f[k]?).getD 0

/-- The count `FREQ_READ` returns: 1 for the sentinel (10_state.md R51; 41_frequency.md R203). -/
def countOf (f : Vector Word 256) (sym : BitVec 10) : Word := if sym = 256#10 then 1 else freqAt f sym.toNat

/-- The code-table entry of a symbol; a number that is no symbol has no code (10_state.md R54). -/
def codeAt (t : TreeMem) (k : Nat) : CodeEntry := (t.codes[k]?).getD CodeEntry.absent

/-- The bits of a code, c_0 first, as `WriteCode` sends them (44_encode.md R262). -/
def CodeEntry.toBits (e : CodeEntry) : List Bool := (List.range e.len.toNat).map e.bits.getLsbD

/-- The 10-bit form of a node index (30_encoding.md R157). -/
def NodeIx.field (x : NodeIx) : BitVec 10 := BitVec.ofNat 10 x.val

/-- The packed form of a node (30_encoding.md R157). -/
def Node.pack : Node → Word
  | .leaf sym => 1#1 ++ 0#1 ++ 0#21 ++ BitVec.ofNat 9 sym.val
  | .int left right => 1#1 ++ 1#1 ++ 0#10 ++ NodeIx.field right ++ NodeIx.field left

/-- The result of `NODE_READ` (30_encoding.md R157; 47_inspect.md R320). -/
def nodeWord (t : TreeMem) (node : BitVec 10) : Word :=
  if t.count ≤ node then 0 else ((t.nodes[node.toNat]?).map Node.pack).getD 0

/-- The result of `CODE_LEN_READ` (30_encoding.md R158). -/
def CodeEntry.lenWord (e : CodeEntry) : Word := BitVec.ofBool e.valid ++ 0#22 ++ e.len

/-- The result of `CODE_BITS_READ` for word `w`: c_(32w+j) in bit 31 - j (30_encoding.md R158). -/
def CodeEntry.bitsWord (e : CodeEntry) (w : Nat) : Word :=
  (BitVec.ofBoolListBE ((List.range 32).map fun j =>
    decide (32 * w + j < e.len.toNat) && e.bits.getLsbD (32 * w + j))).setWidth 32

end Sys2Proof.Machine
end

