-- ==== Sys2Proof/Machine/Ops.lean ====
section
/-! DEFINITION. The shared operations: the channel primitives (20_memory.md R101 to R107), the end of a command and the
return from an error (40_command_protocol.md R186; 60_exceptions.md R345, R348), acceptance (R182), and the frame of a
micro-step (R183, R184). -/

namespace Sys2Proof.Machine

/-! ### Updates of one part of the engine -/

def State.setWork (s : State) (w : Work) : State := s.setEng { s.eng with work := w }
def State.setPp (s : State) (p : ProgPoint) : State := s.setEng { s.eng with pp := p }

/-! ### The input channel -/

/-- The outcomes of `ReadBit` (20_memory.md R101): a bit, `EOD`, or `BLOCK`. -/
inductive ReadResult where
  | bit (b : Bool) (c : InChan)
  | eod
  | block
deriving DecidableEq, Repr

/-- `ReadBit()` (20_memory.md R101). -/
def readBit (c : InChan) : ReadResult :=
  if c.brCnt.val = 0 then
    match c.fifo with
    | b :: rest => .bit (b.getLsbD 7) { c with fifo := rest, brByte := b, brCnt := 7, bitsIn := c.bitsIn + 1 }
    | [] => if c.ended then .eod else .block
  else
    .bit (c.brByte.getLsbD (c.brCnt.val - 1))
      { c with brCnt := ⟨c.brCnt.val - 1, Nat.lt_of_le_of_lt (Nat.sub_le _ _) c.brCnt.isLt⟩, bitsIn := c.bitsIn + 1 }

/-- `ALIGN_IN` discards the unread bits of the current byte, uncounted (46_bitio.md R306; 10_state.md R45). -/
def alignIn (c : InChan) : InChan := { c with brCnt := 0 }

/-! ### The output channel -/

/-- `WriteBit(b)`, with the capacity of `OUT`; `none` is `BLOCK` (20_memory.md R104). -/
def writeBit (depth : Nat) (b : Bool) (c : OutChan) : Option OutChan :=
  let byte := c.bwByte ||| ((BitVec.ofBool b).setWidth 8 <<< (7 - c.bwCnt.val))
  if h : c.bwCnt.val = 7 then
    if c.fifo.length = depth then none
    else some { c with fifo := c.fifo ++ [byte], bwByte := 0, bwCnt := 0, bitsOut := c.bitsOut + 1 }
  else some { c with bwByte := byte, bwCnt := ⟨c.bwCnt.val + 1, by omega⟩, bitsOut := c.bitsOut + 1 }

/-- `FlushByte()`, with the capacity of `OUT`: the number of padding bits; `none` is `BLOCK` (20_memory.md R106). -/
def flushByte (depth : Nat) (c : OutChan) : Option (Nat × OutChan) :=
  if c.bwCnt.val = 0 then some (0, c)
  else if c.fifo.length = depth then none
  else some (8 - c.bwCnt.val, { c with fifo := c.fifo ++ [c.bwByte], bwByte := 0, bwCnt := 0 })

/-! ### The end of a command, and the return from an error -/

/-- `raise E` (60_exceptions.md R345): taking an error, the one operation every error end goes through. The program point
and the work variables, any value between commands (10_state.md R58), stay as they are (DESIGN CHOICE, log 23). -/
def raiseError (e : ErrCode) (s : State) : State :=
  s.setStatus { s.status with err := true, errcode := e, busy := false }

/-- The return from an error and the acknowledgement of the other flags: a host write of `STATUS`
(60_exceptions.md R348; 10_state.md R35). -/
def acknowledge (v : Word) (s : State) : State := s.setStatus (s.status.writeOneToClear v)

/-- `complete`, with the value the command's rule names for `RESULT` if it names one (40_command_protocol.md R186). The
program point and the work variables, any value between commands (10_state.md R58), stay as they are (DESIGN CHOICE,
log 23). -/
def complete (r : Option Word) (s : State) : State :=
  let s' := s.setStatus { s.status with done := true, busy := false }
  match r with
  | some v => s'.setResult v
  | none => s'

/-! ### Acceptance -/

/-- The accepting branch of a `CMD` write (40_command_protocol.md R182). -/
def acceptCommand (w : Word) (s : State) : State :=
  (s.setEng { s.eng with cmd := w, arg := s.arg, pp := .start }).setStatus
    { s.status with lastOp := opField w, done := false, busy := true }

/-- A `CMD` write (40_command_protocol.md R182): accepted, or dropped with `CMD_DROP`. -/
def issueCommand (w : Word) (s : State) : State :=
  if s.status.busy || s.status.err then s.setStatus { s.status with cmdDrop := true }
  else acceptCommand w s

/-! ### The micro-step -/

/-- Where the pure statements of the pseudocode lead: to the next primitive, to the end of the command, or to a state that
no run reaches (log 12). -/
inductive Flow where
  | atPrimitive (s : State)
  | ended (s : State)
  | broken (f : Fault)
deriving DecidableEq, Repr

/-- What an attempt at a micro-step gives: it ran, it is not enabled (20_memory.md R107), or no run reaches this. -/
inductive Micro where
  | ran (s : State)
  | blocked
  | broken (f : Fault)
deriving DecidableEq, Repr

/-- A micro-step ends at the next primitive or at the end of the command (40_command_protocol.md R184). -/
def Flow.toMicro : Flow → Micro
  | .atPrimitive s => .ran s
  | .ended s => .ran s
  | .broken f => .broken f

/-- The outcome of an attempt made in the state `s`. A micro-step that is not enabled does not happen: no state changes
(20_memory.md R107; log 2). -/
def Micro.outcome (s : State) : Micro → Host.Outcome State Fault Refusal
  | .ran s' => .next s'
  | .blocked => .next s
  | .broken f => .fault f

/-- `complete` as the end of the pseudocode. -/
def finish (r : Option Word) (s : State) : Flow := .ended (complete r s)

/-- `raise E` as the end of the pseudocode. -/
def fail (e : ErrCode) (s : State) : Flow := .ended (raiseError e s)

/-- One micro-step of a command. In the first, the common checks come first (40_command_protocol.md R183; the check for an
illegal word is the engine's), then the pseudocode up to its first primitive (`enter`), which the same micro-step performs
(`perform`); every later micro-step performs the primitive the engine stands at (R184). -/
def runCommand (inRange needsTree : Bool) (enter : State → Flow) (perform : State → Micro) (s : State) :
    Host.Outcome State Fault Refusal :=
  if s.eng.pp = .start then
    if !inRange then .next (raiseError .badArg s)
    else if needsTree && !s.tree.valid then .next (raiseError .noTree s)
    else match enter s with
      | .ended s' => .next s'
      | .broken f => .fault f
      | .atPrimitive s' => (perform s').outcome s
  else (perform s).outcome s

/-- The `perform` of a command that has no primitive: every program point but the start is stray. -/
def noPrimitive (_ : State) : Micro := .broken .strayProgramPoint

/-- The micro-step whose primitive is a `ReadBit`. -/
def performRead (onBit : Bool → State → Flow) (onEod : State → Flow) (s : State) : Micro :=
  match readBit s.inp with
  | .bit b c => (onBit b (s.setInp c)).toMicro
  | .eod => (onEod s).toMicro
  | .block => .blocked

/-- The state that stands at the first `ReadBit` of `ReadBits(n)` (20_memory.md R102: `v <- 0`, `k` = 0). -/
def standRead (p : ProgPoint) (s : State) : State := (s.setPp p).setWork { s.eng.work with rk := 0, rv := 0 }

/-- The pure start of `ReadBits(n)`. -/
def beginReadBits (p : ProgPoint) (s : State) : Flow := .atPrimitive (standRead p s)

/-- The state after one bit of `ReadBits`: `v <- (v << 1) | b` (20_memory.md R102). -/
def readBitsNext (b : Bool) (s : State) : State :=
  s.setWork { s.eng.work with rk := s.eng.work.rk + 1, rv := shiftIn s.eng.work.rv b }

/-- The micro-step that performs the next `ReadBit` of `ReadBits(n)` (20_memory.md R102): `done` goes on with the value,
`eod` with the number of bits consumed. -/
def performReadBits (n : Nat) (done : Word → State → Flow) (eod : Nat → State → Flow) (s : State) : Micro :=
  performRead
    (fun b s' =>
      if s'.eng.work.rk + 1 = n then done (shiftIn s'.eng.work.rv b) (readBitsNext b s')
      else .atPrimitive (readBitsNext b s'))
    (fun s' => eod s'.eng.work.rk s') s

/-- The state that stands at the first `WriteBit` of a list of bits. -/
def standWrite (p : ProgPoint) (bits : List Bool) (s : State) : State :=
  (s.setPp p).setWork { s.eng.work with wq := bits }

/-- The pure start of `WriteBits` or `WriteCode`: stand at its first `WriteBit`, or go on at once where there is no bit
to write (20_memory.md R105; 44_encode.md R262). -/
def beginWrite (p : ProgPoint) (bits : List Bool) (k : State → Flow) (s : State) : Flow :=
  match bits with
  | [] => k s
  | _ :: _ => .atPrimitive (standWrite p bits s)

/-- The state after one bit of `WriteBits` or `WriteCode`, with the channel it left and the bits still to write. -/
def writeNext (o : OutChan) (rest : List Bool) (s : State) : State :=
  (s.setOut o).setWork { s.eng.work with wq := rest }

/-- The micro-step that performs the next `WriteBit` of `WriteBits` or `WriteCode`; after the last one `k` goes on. -/
def performWrite (k : State → Flow) (s : State) : Micro :=
  match s.eng.work.wq with
  | [] => .broken .strayProgramPoint
  | b :: rest =>
    match writeBit s.params.outDepth b s.out with
    | none => .blocked
    | some o =>
      match rest with
      | [] => (k (writeNext o [] s)).toMicro
      | _ :: _ => .ran (writeNext o rest s)

end Sys2Proof.Machine
end

