-- ==== Sys2Proof/Machine/BitIO.lean ====
section
/-! DEFINITION. Bit I/O and the container's magic number (46_bitio.md). -/

namespace Sys2Proof.Machine

/-- `PUT_BITS` (R300). -/
def execPutBits (nm1 : BitVec 5) (s : State) : Host.Outcome State Fault Refusal :=
  runCommand (Instr.putBits nm1).inRange false
    (fun s => beginWrite .putBit (bitsMsb (bitCount nm1) s.eng.arg) (finish none) s)
    (fun s => match s.eng.pp with
      | .putBit => performWrite (finish none) s
      | _ => .broken .strayProgramPoint) s

/-- `GET_BITS` (R302). -/
def execGetBits (nm1 : BitVec 5) (s : State) : Host.Outcome State Fault Refusal :=
  runCommand (Instr.getBits nm1).inRange false
    (beginReadBits .getBit)
    (fun s => match s.eng.pp with
      | .getBit => performReadBits (bitCount nm1) (fun v => finish (some v)) (fun _ => fail .truncated) s
      | _ => .broken .strayProgramPoint) s

/-- The primitive of `FLUSH` (R304; 20_memory.md R106). -/
def performFlush (s : State) : Micro :=
  match flushByte s.params.outDepth s.out with
  | none => .blocked
  | some (p, o) => (finish (some (BitVec.ofNat 32 p)) (s.setOut o)).toMicro

/-- `FLUSH` (R304). -/
def execFlush (s : State) : Host.Outcome State Fault Refusal :=
  runCommand Instr.flush.inRange false
    (fun s => .atPrimitive (s.setPp .flushByte))
    (fun s => match s.eng.pp with
      | .flushByte => performFlush s
      | _ => .broken .strayProgramPoint) s

/-- `ALIGN_IN` (R306). -/
def execAlignIn (s : State) : Host.Outcome State Fault Refusal :=
  runCommand Instr.alignIn.inRange false
    (fun s => finish (some (BitVec.ofNat 32 s.inp.brCnt.val)) (s.setInp (alignIn s.inp))) noPrimitive s

/-- `MAGIC_WRITE` (R308). -/
def execMagicWrite (s : State) : Host.Outcome State Fault Refusal :=
  runCommand Instr.magicWrite.inRange false
    (fun s => beginWrite .magicOut (bitsMsb 32 s.params.magic) (finish none) s)
    (fun s => match s.eng.pp with
      | .magicOut => performWrite (finish none) s
      | _ => .broken .strayProgramPoint) s

/-- The 32 bits of `MAGIC_CHECK` have been read (R310): `RESULT` is written before the comparison. -/
def magicCompare (v : Word) (s : State) : Flow :=
  if v = s.params.magic then finish (some v) s else fail .badMagic (s.setResult v)

/-- `MAGIC_CHECK` (R310). -/
def execMagicCheck (s : State) : Host.Outcome State Fault Refusal :=
  runCommand Instr.magicCheck.inRange false
    (beginReadBits .magicIn)
    (fun s => match s.eng.pp with
      | .magicIn => performReadBits 32 magicCompare (fun _ => fail .truncated) s
      | _ => .broken .strayProgramPoint) s

end Sys2Proof.Machine
end

