-- ==== Sys2Proof/Machine/Decoder.lean ====
section
/-! DEFINITION. The decode transducer (45_decode.md). -/

namespace Sys2Proof.Machine

/-- The test of `WalkOne`'s loop (R282): stand at the next `ReadBit`, or go on with the leaf's symbol. -/
def walkLoop (p : ProgPoint) (k : Symbol → State → Flow) (s : State) : Flow :=
  match s.tree.nodes.get s.eng.work.cur with
  | .int _ _ => .atPrimitive (s.setPp p)
  | .leaf sym => k sym s

/-- The start of `WalkOne` (R282). -/
def walkOne (p : ProgPoint) (k : Symbol → State → Flow) (s : State) : Flow :=
  walkLoop p k (s.setWork { s.eng.work with cur := s.tree.root })

/-- One step of the walk (R282): left on 0, right on 1. -/
def walkBit (p : ProgPoint) (k : Symbol → State → Flow) (b : Bool) (s : State) : Flow :=
  match s.tree.nodes.get s.eng.work.cur with
  | .int l r => walkLoop p k (s.setWork { s.eng.work with cur := if b then r else l })
  | .leaf _ => .broken .strayProgramPoint

/-- A symbol has been decoded by `DECODE` (R280): complete at the sentinel, else write the byte. -/
def decodeSymbol (sym : Symbol) (s : State) : Flow :=
  if sym = sentinel then finish (some s.eng.work.cnt) s
  else beginWrite .decByte (bitsMsb 8 (BitVec.ofNat 8 sym.val)) .atPrimitive s

/-- After the byte (R280): count it and walk again. -/
def decodeNext (s : State) : Flow :=
  walkOne .decWalk decodeSymbol (s.setWork { s.eng.work with cnt := s.eng.work.cnt + 1 })

/-- `DECODE` (R280). -/
def execDecode (s : State) : Host.Outcome State Fault Refusal :=
  runCommand Instr.decode.inRange true
    (fun s => walkOne .decWalk decodeSymbol (s.setWork { s.eng.work with cnt := 0 }))
    (fun s => match s.eng.pp with
      | .decWalk => performRead (walkBit .decWalk decodeSymbol) (fail .truncated) s
      | .decByte => performWrite decodeNext s
      | _ => .broken .strayProgramPoint) s

/-- A symbol has been decoded by `DECODE_SYM` (R285). -/
def decodeSymDone (sym : Symbol) (s : State) : Flow := finish (some (BitVec.ofNat 32 sym.val)) s

/-- `DECODE_SYM` (R285). -/
def execDecodeSym (s : State) : Host.Outcome State Fault Refusal :=
  runCommand Instr.decodeSym.inRange true
    (walkOne .dsymWalk decodeSymDone)
    (fun s => match s.eng.pp with
      | .dsymWalk => performRead (walkBit .dsymWalk decodeSymDone) (fail .truncated) s
      | _ => .broken .strayProgramPoint) s

end Sys2Proof.Machine
end

