-- ==== Sys2Proof/Machine/Encoder.lean ====
section
/-! DEFINITION. The encode transducer (44_encode.md). -/

namespace Sys2Proof.Machine

/-- After a byte's code (R260): count the byte and read the next. -/
def encodeNext (s : State) : Flow :=
  beginReadBits .encByte (s.setWork { s.eng.work with cnt := s.eng.work.cnt + 1 })

/-- A byte has been read (R260): write its code, or raise `NO_CODE`. -/
def encodeByte (r : Word) (s : State) : Flow :=
  let e := codeAt s.tree (r.setWidth 8).toNat
  if e.valid then beginWrite .encCode e.toBits encodeNext s else fail .noCode s

/-- After the terminator (R260). -/
def encodeDone (s : State) : Flow := finish (some s.eng.work.cnt) s

/-- `EOD` in `ENCODE` (R260): write the terminator, or a byte was cut short. -/
def encodeEod (k : Nat) (s : State) : Flow :=
  if k = 0 then beginWrite .encEnd (codeAt s.tree 256).toBits encodeDone s else fail .truncated s

/-- `ENCODE` (R260). -/
def execEncode (s : State) : Host.Outcome State Fault Refusal :=
  runCommand Instr.encode.inRange true
    (fun s => beginReadBits .encByte (s.setWork { s.eng.work with cnt := 0 }))
    (fun s => match s.eng.pp with
      | .encByte => performReadBits 8 encodeByte encodeEod s
      | .encCode => performWrite encodeNext s
      | .encEnd => performWrite encodeDone s
      | _ => .broken .strayProgramPoint) s

/-- After the code of `ENCODE_SYM` (R264). -/
def encodeSymDone (sym : BitVec 10) (s : State) : Flow :=
  finish (some ((codeAt s.tree sym.toNat).len.setWidth 32)) s

/-- `ENCODE_SYM` (R264). -/
def execEncodeSym (sym : BitVec 10) (s : State) : Host.Outcome State Fault Refusal :=
  runCommand (Instr.encodeSym sym).inRange true
    (fun s =>
      let e := codeAt s.tree sym.toNat
      if e.valid then beginWrite .encSym e.toBits (encodeSymDone sym) s else fail .noCode s)
    (fun s => match s.eng.pp with
      | .encSym => performWrite (encodeSymDone sym) s
      | _ => .broken .strayProgramPoint) s

end Sys2Proof.Machine
end

