-- ==== Sys2Proof/Machine/Frequency.lean ====
section
/-! DEFINITION. The frequency table commands (41_frequency.md). -/

namespace Sys2Proof.Machine

/-- `FREQ_CLEAR` (R200). -/
def execFreqClear (s : State) : Host.Outcome State Fault Refusal :=
  runCommand Instr.freqClear.inRange false
    (fun s => finish none (s.setFreq (.replicate 256 0))) noPrimitive s

/-- `FREQ_WRITE` (R201). -/
def execFreqWrite (sym : BitVec 10) (s : State) : Host.Outcome State Fault Refusal :=
  runCommand (Instr.freqWrite sym).inRange false
    (fun s => finish none (s.setFreq (s.freq.setIfInBounds sym.toNat s.eng.arg))) noPrimitive s

/-- `FREQ_READ` (R203). -/
def execFreqRead (sym : BitVec 10) (s : State) : Host.Outcome State Fault Refusal :=
  runCommand (Instr.freqRead sym).inRange false
    (fun s => finish (some (countOf s.freq sym)) s) noPrimitive s

/-- One byte of `FREQ_COUNT` (R205): count it, or raise `FREQ_OVERFLOW`. -/
def countByte (r : Word) (s : State) : Flow :=
  let k := (r.setWidth 8).toNat
  if freqAt s.freq k = 0xFFFFFFFF#32 then fail .freqOverflow s
  else
    let s' := s.setFreq (s.freq.setIfInBounds k (freqAt s.freq k + 1))
    beginReadBits .freqByte (s'.setWork { s'.eng.work with cnt := s'.eng.work.cnt + 1 })

/-- `EOD` in `FREQ_COUNT` (R205): the end of the stream, or a byte cut short. -/
def countEnd (k : Nat) (s : State) : Flow :=
  if k = 0 then finish (some s.eng.work.cnt) s else fail .truncated s

/-- `FREQ_COUNT` (R205). -/
def execFreqCount (s : State) : Host.Outcome State Fault Refusal :=
  runCommand Instr.freqCount.inRange false
    (fun s => beginReadBits .freqByte (s.setWork { s.eng.work with cnt := 0 }))
    (fun s => match s.eng.pp with
      | .freqByte => performReadBits 8 countByte countEnd s
      | _ => .broken .strayProgramPoint) s

end Sys2Proof.Machine
end

