-- ==== Sys2Proof/Machine/Inspect.lean ====
section
/-! DEFINITION. Tree and code inspection (47_inspect.md). -/

namespace Sys2Proof.Machine

/-- `NODE_READ` (R320). -/
def execNodeRead (node : BitVec 10) (s : State) : Host.Outcome State Fault Refusal :=
  runCommand (Instr.nodeRead node).inRange true
    (fun s => finish (some (nodeWord s.tree node)) s) noPrimitive s

/-- `CODE_LEN_READ` (R322). -/
def execCodeLenRead (sym : BitVec 10) (s : State) : Host.Outcome State Fault Refusal :=
  runCommand (Instr.codeLenRead sym).inRange true
    (fun s => finish (some (codeAt s.tree sym.toNat).lenWord) s) noPrimitive s

/-- `CODE_BITS_READ` (R324). -/
def execCodeBitsRead (sym : BitVec 10) (w : BitVec 5) (s : State) : Host.Outcome State Fault Refusal :=
  runCommand (Instr.codeBitsRead sym w).inRange true
    (fun s => finish (some ((codeAt s.tree sym.toNat).bitsWord w.toNat)) s) noPrimitive s

end Sys2Proof.Machine
end

