-- ==== Sys2Proof/Machine/Protocol.lean ====
section
/-! DEFINITION. `NOP` (40_command_protocol.md R188). -/

namespace Sys2Proof.Machine

/-- `NOP` (R188). -/
def execNop (s : State) : Host.Outcome State Fault Refusal :=
  runCommand Instr.nop.inRange false (finish none) noPrimitive s

end Sys2Proof.Machine
end

