-- ==== Sys2Proof/Machine/TreeBuild.lean ====
section
/-! DEFINITION. Tree construction (42_tree_build.md): `BUILD`, and the code table that `DESERIALIZE` computes too. -/

namespace Sys2Proof.Machine

/-- The code table's bit string of a path, c_0 in bit 0 (10_state.md R54; log 19). -/
def packBits (p : List Bool) : BitVec 256 := (BitVec.ofBoolListLE p).setWidth 256

/-- The table entry of a leaf reached by the path `p` (R228). -/
def leafEntry (p : List Bool) : CodeEntry := ⟨true, BitVec.ofNat 9 p.length, packBits p⟩

/-- `Walk(x, p)` (R228). The first argument bounds the depth; no tree is deeper than it (R223; log 13). -/
def walkCodes (nodes : Vector Node 513) : Nat → NodeIx → List Bool → Vector CodeEntry 257 → Vector CodeEntry 257
  | 0, _, _, t => t
  | fuel + 1, x, p, t =>
    match nodes.get x with
    | .leaf s => t.set s.val (leafEntry p) s.isLt
    | .int l r => walkCodes nodes fuel r (p ++ [true]) (walkCodes nodes fuel l (p ++ [false]) t)

/-- `BuildCodes()` (R228). -/
def buildCodes (nodes : Vector Node 513) (root : NodeIx) : Vector CodeEntry 257 :=
  walkCodes nodes 513 root [] (.replicate 257 CodeEntry.absent)

/-- The leaves placed so far by `Seed`: the node memory, the working array and `L` (R221). -/
structure Seeding where
  nodes : Vector Node 513
  wfreq : Vector Sum 513
  n : Nat
deriving DecidableEq, Repr

/-- `NODE[L] <- leaf s; WFREQ[L] <- f; L <- L + 1` (R221). -/
def seedPut (sym : Symbol) (f : Sum) (d : Seeding) : Seeding :=
  ⟨d.nodes.setIfInBounds d.n (.leaf sym), d.wfreq.setIfInBounds d.n f, d.n + 1⟩

/-- The leaf of byte `k`, if its count is not 0 (R221). -/
def seedByte (freq : Vector Word 256) (d : Seeding) (k : Nat) : Seeding :=
  if freqAt freq k = 0 then d else seedPut (Fin.ofNat 257 k) ((freqAt freq k).setWidth 41) d

/-- `Seed()` (R221), with the filler leaf of R222. -/
def seed (freq : Vector Word 256) (nodes : Vector Node 513) (wfreq : Vector Sum 513) : Seeding :=
  let d := (List.range 256).foldl (seedByte freq) ⟨nodes, wfreq, 0⟩
  let d := if d.n = 0 then seedPut 0 0 d else d
  seedPut sentinel 1 d

/-- The priority order: `(WFREQ[x], x) < (WFREQ[y], y)` lexicographically (R224). -/
def ranksBefore (w : Vector Sum 513) (x y : NodeIx) : Bool :=
  decide (w.get x < w.get y) || (decide (w.get x = w.get y) && decide (x < y))

/-- `Min` of a non-empty active set, given as its first element and the rest (R224). -/
def minRank (w : Vector Sum 513) (a : NodeIx) (as : List NodeIx) : NodeIx :=
  as.foldl (fun m y => if ranksBefore w y m then y else m) a

/-- The loop of `Merge` (R225): `active` is the set A, `next` the next node's index. The first argument counts the rounds
still allowed; the active set shrinks by one in each. -/
def mergeLoop : Nat → List NodeIx → Nat → Vector Node 513 → Vector Sum 513 → Vector Node 513 × Vector Sum 513
  | 0, _, _, nodes, w => (nodes, w)
  | rounds + 1, active, next, nodes, w =>
    match active with
    | a₀ :: as =>
      let a := minRank w a₀ as
      match active.erase a with
      | b₀ :: bs =>
        let b := minRank w b₀ bs
        mergeLoop rounds (((active.erase a).erase b) ++ [Fin.ofNat 513 next]) (next + 1)
          (nodes.setIfInBounds next (.int a b)) (w.setIfInBounds next (w.get a + w.get b))
      | [] => (nodes, w)
    | [] => (nodes, w)

/-- The tree `BUILD` makes from a frequency table, and L (R220). -/
def buildTree (freq : Vector Word 256) (t : TreeMem) : TreeMem × Nat :=
  let d := seed freq t.nodes t.wfreq
  let m := mergeLoop d.n ((List.range d.n).map (Fin.ofNat 513)) d.n d.nodes d.wfreq
  let root : NodeIx := Fin.ofNat 513 (2 * d.n - 2)
  (⟨m.1, m.2, buildCodes m.1 root, root, BitVec.ofNat 10 (2 * d.n - 1), true⟩, d.n)

/-- `BUILD` (R220): one micro-step. -/
def execBuild (s : State) : Host.Outcome State Fault Refusal :=
  runCommand Instr.build.inRange false
    (fun s =>
      let b := buildTree s.freq s.tree
      finish (some (BitVec.ofNat 32 b.2)) (s.setTree b.1)) noPrimitive s

end Sys2Proof.Machine
end

