-- ==== Sys2Proof/Machine/TreeSerial.lean ====
section
/-! DEFINITION. Tree serialization and deserialization (43_tree_serial.md). -/

namespace Sys2Proof.Machine

/-! ### SERIALIZE -/

/-- A stack entry of `SERIALIZE`: its tags are not read (10_state.md R58). -/
def nodeEntry (x : NodeIx) : StkEntry := ⟨x, .left, true⟩

/-- The top of `SERIALIZE`'s loop (R240): pop a node and stand at its first bit, or complete. -/
def serializeLoop (s : State) : Flow :=
  let w := s.eng.work
  match w.stk with
  | [] => finish (some w.nbits) s
  | e :: rest =>
    let s' := s.setWork { w with stk := rest, x := e.ix }
    match s.tree.nodes.get e.ix with
    | .int _ _ => beginWrite .serInt [true] .atPrimitive s'
    | .leaf sym => beginWrite .serLeaf (false :: bitsMsb 9 (BitVec.ofNat 9 sym.val)) .atPrimitive s'

/-- After the marker of the internal node `x` (R240): count it and push its children, the left on top. -/
def serializeInt (s : State) : Flow :=
  let w := s.eng.work
  match s.tree.nodes.get w.x with
  | .int l r => serializeLoop (s.setWork { w with nbits := w.nbits + 1, stk := nodeEntry l :: nodeEntry r :: w.stk })
  | .leaf _ => .broken .strayProgramPoint

/-- After the bits of a leaf (R240): count them. -/
def serializeLeaf (s : State) : Flow :=
  serializeLoop (s.setWork { s.eng.work with nbits := s.eng.work.nbits + 10 })

/-- `SERIALIZE` (R240). -/
def execSerialize (s : State) : Host.Outcome State Fault Refusal :=
  runCommand Instr.serialize.inRange true
    (fun s => serializeLoop (s.setWork { s.eng.work with stk := [nodeEntry s.tree.root], nbits := 0 }))
    (fun s => match s.eng.pp with
      | .serInt => performWrite serializeInt s
      | .serLeaf => performWrite serializeLeaf s
      | _ => .broken .strayProgramPoint) s

/-! ### DESERIALIZE -/

/-- `NODE[p].left <- x` or `NODE[p].right <- x` (R245). -/
def linkChild (side : Side) (x : NodeIx) : Node → Node
  | .int l r => match side with
    | .left => .int x r
    | .right => .int l x
  | .leaf sym => .leaf sym

/-- `NODE[x].kind <- INT` (R245): the children, not read before `linkChild` has written them, stay what they were, or 0
(DESIGN CHOICE, log 11). -/
def makeInternal : Node → Node
  | .int l r => .int l r
  | .leaf _ => .int 0 0

/-- Update one entry of the node memory. -/
def modifyNode (f : Node → Node) (x : NodeIx) (t : TreeMem) : TreeMem :=
  { t with nodes := t.nodes.set x.val (f (t.nodes.get x)) x.isLt }

/-- The end of `DESERIALIZE` (R245): the checks on the whole tree, then the tree registers and the code table. -/
def deserializeEnd (s : State) : Flow :=
  let w := s.eng.work
  match s.tree.nodes.get 0 with
  | .leaf _ => fail .leafRoot s
  | .int _ _ =>
    if w.seen.get sentinel then
      finish (some w.nbits)
        (s.setTree { s.tree with root := 0, count := BitVec.ofNat 10 w.nn, codes := buildCodes s.tree.nodes 0, valid := true })
    else fail .noSentinel s

/-- The top of `DESERIALIZE`'s loop (R245): number the next node, link it to its parent and stand at its marker, or end. -/
def deserializeLoop (s : State) : Flow :=
  let w := s.eng.work
  match w.stk with
  | [] => deserializeEnd s
  | e :: rest =>
    if h : w.nn < 513 then
      let x : NodeIx := ⟨w.nn, h⟩
      let s' := s.setWork { w with stk := rest, x := x, nn := w.nn + 1 }
      let s'' := if e.noParent then s' else s'.setTree (modifyNode (linkChild e.side x) e.ix s'.tree)
      .atPrimitive (s''.setPp .desMark)
    else .broken .nodeMemoryFull

/-- After a marker bit (R245): an internal node, or the start of a leaf's symbol. -/
def deserializeMark (b : Bool) (s : State) : Flow :=
  let w := { s.eng.work with nbits := s.eng.work.nbits + 1 }
  if b then
    if w.ni = 256 then fail .treeTooLarge (s.setWork w)
    else
      deserializeLoop
        ((s.setTree (modifyNode makeInternal w.x s.tree)).setWork
          { w with ni := w.ni + 1, stk := ⟨w.x, .left, false⟩ :: ⟨w.x, .right, false⟩ :: w.stk })
  else beginReadBits .desSym (s.setWork w)

/-- After a leaf's 9-bit symbol (R245): the symbol checks, then the leaf. -/
def deserializeSymbol (v : Word) (s : State) : Flow :=
  let w := { s.eng.work with nbits := s.eng.work.nbits + 9 }
  if h : v.toNat < 257 then
    let sym : Symbol := ⟨v.toNat, h⟩
    if w.seen.get sym then fail .dupSymbol (s.setWork w)
    else
      deserializeLoop
        ((s.setTree (modifyNode (fun _ => .leaf sym) w.x s.tree)).setWork
          { w with seen := w.seen.set sym.val true sym.isLt, nl := w.nl + 1 })
  else fail .badSymbol (s.setWork w)

/-- `DESERIALIZE` (R245). -/
def execDeserialize (s : State) : Host.Outcome State Fault Refusal :=
  runCommand Instr.deserialize.inRange false
    (fun s =>
      deserializeLoop
        ((s.setTree { s.tree with valid := false }).setWork
          { s.eng.work with
            nn := 0, ni := 0, nl := 0, nbits := 0, seen := .replicate 257 false, stk := [⟨0, .left, true⟩] }))
    (fun s => match s.eng.pp with
      | .desMark => performRead deserializeMark (fail .truncated) s
      | .desSym => performReadBits 9 deserializeSymbol (fun _ => fail .truncated) s
      | _ => .broken .strayProgramPoint) s

end Sys2Proof.Machine
end

