-- ==== Sys2Proof/Machine/Dispatch.lean ====
section
/-! DEFINITION. One micro-step of the running command, an arm per row of the opcode map (30_encoding.md R143; log 20). -/

namespace Sys2Proof.Machine

/-- One micro-step of the command `i` (40_command_protocol.md R184). -/
def exec (i : Instr) (s : State) : Host.Outcome State Fault Refusal :=
  match i with
  | .nop => Sys2Proof.Machine.execNop s
  | .freqClear => Sys2Proof.Machine.execFreqClear s
  | .freqWrite sym => Sys2Proof.Machine.execFreqWrite sym s
  | .freqRead sym => Sys2Proof.Machine.execFreqRead sym s
  | .freqCount => Sys2Proof.Machine.execFreqCount s
  | .build => Sys2Proof.Machine.execBuild s
  | .serialize => Sys2Proof.Machine.execSerialize s
  | .deserialize => Sys2Proof.Machine.execDeserialize s
  | .encode => Sys2Proof.Machine.execEncode s
  | .encodeSym sym => Sys2Proof.Machine.execEncodeSym sym s
  | .decode => Sys2Proof.Machine.execDecode s
  | .decodeSym => Sys2Proof.Machine.execDecodeSym s
  | .putBits nm1 => Sys2Proof.Machine.execPutBits nm1 s
  | .getBits nm1 => Sys2Proof.Machine.execGetBits nm1 s
  | .flush => Sys2Proof.Machine.execFlush s
  | .alignIn => Sys2Proof.Machine.execAlignIn s
  | .magicWrite => Sys2Proof.Machine.execMagicWrite s
  | .magicCheck => Sys2Proof.Machine.execMagicCheck s
  | .nodeRead node => Sys2Proof.Machine.execNodeRead node s
  | .codeLenRead sym => Sys2Proof.Machine.execCodeLenRead sym s
  | .codeBitsRead sym w => Sys2Proof.Machine.execCodeBitsRead sym w s

end Sys2Proof.Machine
end

