-- ==== Sys2Proof/Machine/HostAccess.lean ====
section
/-! DEFINITION. The register block: what a host read returns and what a host write does (10_state.md R31 to R47;
20_memory.md R92 to R96; 60_exceptions.md R356; 70_reset_and_hazards.md R381). -/

namespace Sys2Proof.Machine

/-- The sixteen registers (10_state.md R32). -/
inductive Reg where
  | id | ctrl | status | irqEn | cmd | arg | result | treeInfo | inData | inLevel | outData | outLevel | bitsIn | bitsOut
  | bitpos | reserved
deriving DecidableEq, Repr

/-- The register at a byte offset of the window (10_state.md R32). -/
def regAt : Nat → Option Reg
  | 0x00 => some .id
  | 0x04 => some .ctrl
  | 0x08 => some .status
  | 0x0C => some .irqEn
  | 0x10 => some .cmd
  | 0x14 => some .arg
  | 0x18 => some .result
  | 0x1C => some .treeInfo
  | 0x20 => some .inData
  | 0x24 => some .inLevel
  | 0x28 => some .outData
  | 0x2C => some .outLevel
  | 0x30 => some .bitsIn
  | 0x34 => some .bitsOut
  | 0x38 => some .bitpos
  | 0x3C => some .reserved
  | _ => none

/-! ### Reads -/

/-- The value of `TREE_INFO` while idle (10_state.md R40). -/
def treeInfoWord (t : TreeMem) : Word :=
  if t.valid then 0#6 ++ t.count ++ 0#6 ++ NodeIx.field t.root else 0

/-- A level register: the capacity above, the number of bytes below (10_state.md R42, R44). -/
def levelWord (depth : Nat) (fifo : List Byte) : Word := BitVec.ofNat 16 depth ++ BitVec.ofNat 16 fifo.length

/-- The value of `BITPOS` while idle (10_state.md R46). -/
def bitposWord (s : State) : Word := 0#20 ++ BitVec.ofNat 4 s.out.bwCnt.val ++ 0#4 ++ BitVec.ofNat 4 s.inp.brCnt.val

/-- A read of a register that is exact only while BUSY = 0; while BUSY = 1 the value is a free draw
(10_state.md R62; log 3). -/
def readWhenIdle (v : Word) (s : State) : Word × State :=
  if s.status.busy then (Config.freeWord s.draws, s.setDraws (s.draws + 1)) else (v, s)

/-- A read of `OUT_DATA` pops a byte when one is present (10_state.md R43). -/
def popOut (s : State) : Word × State :=
  match s.out.fifo with
  | [] => (0, s)
  | b :: rest => (0#23 ++ 1#1 ++ b, s.setOut { s.out with fifo := rest })

/-- The value a host read of a register returns, and its side effect (10_state.md R31 to R47; 20_memory.md R96). -/
def readReg (r : Reg) (s : State) : Word × State :=
  match r with
  | .id => (Config.idValue, s)
  | .ctrl => (0, s)
  | .status => (statusWord s, s)
  | .irqEn => (irqEnWord s.irqEn, s)
  | .cmd => (0, s)
  | .arg => (s.arg, s)
  | .result => readWhenIdle s.result s
  | .treeInfo => readWhenIdle (treeInfoWord s.tree) s
  | .inData => (0, s)
  | .inLevel => (levelWord s.params.inDepth s.inp.fifo, s)
  | .outData => popOut s
  | .outLevel => (levelWord s.params.outDepth s.out.fifo, s)
  | .bitsIn => readWhenIdle s.inp.bitsIn s
  | .bitsOut => readWhenIdle s.out.bitsOut s
  | .bitpos => readWhenIdle (bitposWord s) s
  | .reserved => (0, s)

/-! ### Writes -/

/-- `CTRL.SRST` (70_reset_and_hazards.md R381): every piece of the core's state takes its reset value. The instance's
parameters, the schedule, the host's record of reads and the count of draws are not the core's (log 6). -/
def softReset (s : State) : State :=
  (((State.resetWith s.params).setSched s.sched).setReads s.reads).setDraws s.draws

/-- `CTRL.ABORT` (60_exceptions.md R356). -/
def abortCommand (s : State) : State := if s.status.busy then raiseError .aborted s else s

/-- `CTRL.IN_CLEAR` (10_state.md R33). -/
def clearIn (s : State) : State := if s.status.busy then s else s.setInp InChan.reset

/-- `CTRL.OUT_CLEAR` (10_state.md R33). -/
def clearOut (s : State) : State := if s.status.busy then s else s.setOut OutChan.reset

/-- `CTRL.IN_END` (10_state.md R33). -/
def endIn (s : State) : State := s.setInp { s.inp with ended := true }

/-- An action of `CTRL`, if its bit is written as 1. -/
def onBit (b : Bool) (f : State → State) (s : State) : State := if b then f s else s

/-- A write of `v` to `CTRL` (10_state.md R33): `SRST` alone, or the other actions in order. -/
def writeCtrl (v : Word) (s : State) : State :=
  if v.getLsbD 0 then softReset s
  else onBit (v.getLsbD 4) endIn (onBit (v.getLsbD 3) clearOut (onBit (v.getLsbD 2) clearIn (onBit (v.getLsbD 1) abortCommand s)))

/-- A write of `v` to `IN_DATA` (10_state.md R41). -/
def pushIn (v : Word) (s : State) : State :=
  if s.inp.ended || decide (s.inp.fifo.length = s.params.inDepth) then s.setStatus { s.status with inDrop := true }
  else s.setInp { s.inp with fifo := s.inp.fifo ++ [v.setWidth 8] }

/-- The effect of a host write of `v` to a register (10_state.md R32 to R47). -/
def writeReg (r : Reg) (v : Word) (s : State) : State :=
  match r with
  | .id => s
  | .ctrl => writeCtrl v s
  | .status => acknowledge v s
  | .irqEn => s.setIrqEn (irqEnOfWord v)
  | .cmd => issueCommand v s
  | .arg => s.setArg v
  | .result => s
  | .treeInfo => s
  | .inData => pushIn v s
  | .inLevel => s
  | .outData => s
  | .outLevel => s
  | .bitsIn => s
  | .bitsOut => s
  | .bitpos => s
  | .reserved => s

/-! ### The access -/

/-- A host read of a register; the model records the value returned (20_memory.md R92; log 15). -/
def hostRead (r : Reg) (s : State) : State :=
  let p := readReg r s
  p.2.setReads (p.1 :: p.2.reads)

/-- A host access to a register (20_memory.md R92). -/
def accessReg (r : Reg) : AccessKind → State → State
  | .read, s => hostRead r s
  | .write v, s => writeReg r v s

/-- A host access (20_memory.md R92, R93, R95): to a register of the window, or refused (log 9). -/
def hostStep (a : Access) (s : State) : Host.Outcome State Fault Refusal :=
  if a.addr < s.params.base || decide (s.params.base + 0x40 ≤ a.addr) then .refused .outsideWindow
  else if a.bytes ≠ 4 then .refused .busError
  else match regAt (a.addr - s.params.base) with
    | none => .refused .busError
    | some r => .next (accessReg r a.kind s)

end Sys2Proof.Machine
end

