-- ==== Sys2Proof/Machine/Engine.lean ====
section
/-! DEFINITION. One step of the engine, and one step of the agent whose turn it is (20_memory.md R90, R91;
40_command_protocol.md R180, R183, R184). -/

namespace Sys2Proof.Machine

/-- The engine's turn. An idle engine has no step (40_command_protocol.md R180; log 2). A running one performs a micro-step
of the command its latched word selects; an illegal word raises `ILLEGAL_CMD` (R183; log 14). -/
def engineStep (s : State) : Host.Outcome State Fault Refusal :=
  if s.status.busy then
    match decode s.eng.cmd with
    | .error _ => .next (raiseError .illegalCmd s)
    | .ok i => exec i s
  else .next s

/-- The move of one agent. -/
def moveStep (m : Move) (s : State) : Host.Outcome State Fault Refusal :=
  match m with
  | .engine => engineStep s
  | .host a => hostStep a s

/-- The next move of the schedule; once it is used up the host makes no further access and the engine moves alone
(20_memory.md R91; log 1). -/
def scheduledStep (s : State) : Host.Outcome State Fault Refusal :=
  match s.sched with
  | [] => engineStep s
  | m :: rest => moveStep m (s.setSched rest)

/-- The state in which the engine is about to run the command word `w`: `w` has just been accepted
(40_command_protocol.md R182) and it is the engine's turn (log 10). -/
def withCommand (w : Word) (s : State) : State := acceptCommand w (s.setSched (.engine :: s.sched))

end Sys2Proof.Machine
end

