-- ==== Sys2Proof/Machine/Step.lean ====
section
/-! DEFINITION. One step of the machine. -/

namespace Sys2Proof.Machine

/-- One step: the move of the agent whose turn it is (20_memory.md R90, R91). -/
def step (s : State) : Host.Outcome State Fault Refusal := scheduledStep s

/-- `s` with the command word `w` latched, so that the very next step is its first micro-step. The core fetches nothing
(10_state.md R30; 20_memory.md R115): what stands for the fetch is the acceptance of a `CMD` write (log 10).
Every word has 32 bits (30_encoding.md R146). -/
def State.withFetchWord (s : State) (_nbits w : Nat) : State := withCommand (BitVec.ofNat 32 w) s

end Sys2Proof.Machine
end

