-- ==== Sys2Proof/Safety.lean ====
section
/-! DEFINITION. What claims speak of: the bits of the channels, the invariants of a run, and the tree that the node memory
holds (42_tree_build.md R223). -/

namespace Sys2Proof.Machine

/-! ### The channels as bit streams -/

/-- The unread bits of the input channel, the next first: those of `br_byte`, then those of `IN` (20_memory.md R100, R101). -/
def inBits (c : InChan) : List Bool := bitsMsb c.brCnt.val c.brByte ++ c.fifo.flatMap (bitsMsb 8)

/-- The bits of the output channel not yet popped, the oldest first: those of `OUT`, then those placed in `bw_byte`
(20_memory.md R100, R104). -/
def outBits (c : OutChan) : List Bool := c.fifo.flatMap (bitsMsb 8) ++ (bitsMsb 8 c.bwByte).take c.bwCnt.val

/-- The node at the end of a path from the node `x`: left on 0, right on 1; none where the path goes on below a leaf
(30_encoding.md R152, R154). -/
def walkPath (nodes : Vector Node 513) : List Bool → NodeIx → Option Node
  | [], x => some (nodes.get x)
  | b :: path, x =>
    match nodes.get x with
    | .int l r => walkPath nodes path (if b then r else l)
    | .leaf _ => none

/-- The number that a list of bits, most significant first, stands for in 32 bits (20_memory.md R102). -/
def wordOfBits (bs : List Bool) : Word := bs.foldl shiftIn 0

/-- The bits of `bw_byte` not yet written are 0 (10_state.md R57). -/
def OutChan.tailZero (c : OutChan) : Prop := ∀ j, j < 8 - c.bwCnt.val → c.bwByte.getLsbD j = false

/-- `k` more bits can be written without a pop: the bytes they complete fit in `OUT` (20_memory.md R104). -/
def OutChan.hasRoom (depth : Nat) (c : OutChan) (k : Nat) : Prop := c.fifo.length + (c.bwCnt.val + k) / 8 ≤ depth

/-- A `ReadBit` would block (20_memory.md R101, R107). -/
def InChan.starved (c : InChan) : Prop := inBits c = [] ∧ c.ended = false

/-- The channel is exhausted: a `ReadBit` returns `EOD` (10_state.md R56; 20_memory.md R101). -/
def InChan.exhausted (c : InChan) : Prop := inBits c = [] ∧ c.ended = true

/-! ### The invariant of a run -/

/-- The parameters are legal (00_scope.md R7; 20_memory.md R95). -/
structure ParamsInv (p : Params) : Prop where
  inDepth : 1 ≤ p.inDepth
  outDepth : 1 ≤ p.outDepth
  base : p.base % 64 = 0

/-- The flags: `DONE` and `ERR` are never both 1 (10_state.md R34), neither is 1 while a command runs, and `ERRCODE` is 0
exactly while `ERR` = 0. -/
structure StatusInv (st : Status) : Prop where
  notBoth : ¬(st.done = true ∧ st.err = true)
  busyDone : st.busy = true → st.done = false
  busyErr : st.busy = true → st.err = false
  errcode : st.err = false ↔ st.errcode = .none

/-- The channels: the FIFOs keep to their capacities, and the unwritten bits of `bw_byte` are 0 (10_state.md R56, R57). -/
structure ChannelInv (s : State) : Prop where
  inBound : s.inp.fifo.length ≤ s.params.inDepth
  outBound : s.out.fifo.length ≤ s.params.outDepth
  tail : s.out.tailZero

/-- The program points of a command besides its start (10_state.md R58). -/
def commandPoints : Instr → List ProgPoint
  | .freqCount => [.freqByte]
  | .serialize => [.serInt, .serLeaf]
  | .deserialize => [.desMark, .desSym]
  | .encode => [.encByte, .encCode, .encEnd]
  | .encodeSym _ => [.encSym]
  | .decode => [.decWalk, .decByte]
  | .decodeSym => [.dsymWalk]
  | .putBits _ => [.putBit]
  | .getBits _ => [.getBit]
  | .flush => [.flushByte]
  | .magicWrite => [.magicOut]
  | .magicCheck => [.magicIn]
  | _ => []

/-- A node is internal. -/
def Node.isInt : Node → Bool
  | .int _ _ => true
  | .leaf _ => false

/-- The counts of `DESERIALIZE` while a node is being read (43_tree_serial.md R247). -/
def Work.counts (w : Work) : Prop := w.nn = w.ni + w.nl + 1 ∧ w.stk.length + w.nl = w.ni ∧ w.ni ≤ 256

/-- What the work variables hold at a program point (10_state.md R58). -/
def pointInv (i : Instr) (s : State) : Prop :=
  let w := s.eng.work
  match s.eng.pp with
  | .start => True
  | .freqByte => w.rk < 8
  | .serInt => w.wq ≠ [] ∧ (s.tree.nodes.get w.x).isInt = true
  | .serLeaf => w.wq ≠ []
  | .desMark => w.counts
  | .desSym => w.counts ∧ w.rk < 9
  | .encByte => w.rk < 8
  | .encCode => w.wq ≠ []
  | .encEnd => w.wq ≠ []
  | .encSym => w.wq ≠ []
  | .decWalk => (s.tree.nodes.get w.cur).isInt = true
  | .decByte => w.wq ≠ []
  | .dsymWalk => (s.tree.nodes.get w.cur).isInt = true
  | .putBit => w.wq ≠ []
  | .getBit => w.rk < bitCount i.nOperand
  | .flushByte => True
  | .magicOut => w.wq ≠ []
  | .magicIn => w.rk < 32

/-- A running engine stands at a point of its command's pseudocode, with the work variables that point needs
(40_command_protocol.md R184; 10_state.md R58). -/
def EngineInv (s : State) : Prop :=
  s.status.busy = true →
    match decode s.eng.cmd with
    | .error _ => s.eng.pp = .start
    | .ok i => (s.eng.pp = .start ∨ s.eng.pp ∈ commandPoints i) ∧ pointInv i s

/-- The invariant of a run: it holds at reset, and every step keeps it. -/
structure State.Inv (s : State) : Prop where
  params : ParamsInv s.params
  status : StatusInv s.status
  channels : ChannelInv s
  engine : EngineInv s

/-! ### Runs of one command -/

/-- `n` micro-steps of the command `i`, the host making no access between them (40_command_protocol.md R184). -/
def microSteps (i : Instr) : Nat → State → Host.Outcome State Fault Refusal
  | 0, s => .next s
  | n + 1, s =>
    match exec i s with
    | .next t => microSteps i n t
    | .fault f => .fault f
    | .refused r => .refused r

/-- What no micro-step of any command changes: the parameters, the registers only the host writes, the latches of the
running command, the flags only the host's accesses write, and the model's own fields (10_state.md R38, R49). -/
structure EngineKeeps (s t : State) : Prop where
  params : t.params = s.params
  irqEn : t.irqEn = s.irqEn
  arg : t.arg = s.arg
  cmd : t.eng.cmd = s.eng.cmd
  engArg : t.eng.arg = s.eng.arg
  inDrop : t.status.inDrop = s.status.inDrop
  cmdDrop : t.status.cmdDrop = s.status.cmdDrop
  lastOp : t.status.lastOp = s.status.lastOp
  sched : t.sched = s.sched
  reads : t.reads = s.reads
  draws : t.draws = s.draws

/-- The flags after a command has completed (40_command_protocol.md R186). -/
def Status.completed (st : Status) : Status := { st with done := true, busy := false }

/-- The flags after a command has ended with an error (60_exceptions.md R345). -/
def Status.failed (st : Status) (e : ErrCode) : Status := { st with err := true, errcode := e, busy := false }

/-- The commands that need a tree (30_encoding.md R143, the column "tree"). -/
def needsTree : Instr → Bool
  | .serialize | .encode | .encodeSym _ | .decode | .decodeSym | .nodeRead _ | .codeLenRead _ | .codeBitsRead _ _ => true
  | _ => false

/-! ### The tree -/

/-- A full binary tree with the node index each of its nodes has (42_tree_build.md R223). -/
inductive Shape where
  | leaf (x : NodeIx) (sym : Symbol)
  | int (x : NodeIx) (l r : Shape)
deriving DecidableEq, Repr

/-- The index of a tree's root. -/
def Shape.root : Shape → NodeIx
  | .leaf x _ => x
  | .int x _ _ => x

/-- The indices of a tree's nodes, in pre-order. -/
def Shape.indices : Shape → List NodeIx
  | .leaf x _ => [x]
  | .int x l r => x :: (l.indices ++ r.indices)

/-- The symbols of a tree's leaves, from left to right. -/
def Shape.symbols : Shape → List Symbol
  | .leaf _ sym => [sym]
  | .int _ l r => l.symbols ++ r.symbols

/-- Whether the root is an internal node. -/
def Shape.isInt : Shape → Bool
  | .leaf _ _ => false
  | .int _ _ _ => true

/-- The codes of a tree: each leaf's symbol with the labels of its root-to-leaf path (30_encoding.md R152). -/
def Shape.codes : Shape → List (Symbol × List Bool)
  | .leaf _ sym => [(sym, [])]
  | .int _ l r => l.codes.map (fun c => (c.1, false :: c.2)) ++ r.codes.map (fun c => (c.1, true :: c.2))

/-- The serialized tree (30_encoding.md R150). -/
def Shape.ser : Shape → List Bool
  | .leaf _ sym => false :: bitsMsb 9 (BitVec.ofNat 9 sym.val)
  | .int _ l r => true :: (l.ser ++ r.ser)

/-- The node memory holds this tree (10_state.md R52). -/
def Shape.fits (nodes : Vector Node 513) : Shape → Prop
  | .leaf x sym => nodes.get x = .leaf sym
  | .int x l r => nodes.get x = .int l.root r.root ∧ l.fits nodes ∧ r.fits nodes

/-- The invariants of 42_tree_build.md R223, for the tree `sh` in the tree memory `t`. -/
structure TreeOk (t : TreeMem) (sh : Shape) : Prop where
  /-- Invariant 1: the nodes 0 to `NODE_COUNT` - 1 are the nodes of a full binary tree with root `ROOT`, each once. -/
  fits : sh.fits t.nodes
  root : sh.root = t.root
  nodes : (sh.indices.map Fin.val).Perm (List.range t.count.toNat)
  /-- Invariant 2: the root is internal. -/
  internal : sh.isInt = true
  /-- Invariant 3: no two leaves carry the same symbol (a `Symbol` is in 0 to 256). -/
  unique : sh.symbols.Nodup
  /-- Invariant 4: some leaf carries the sentinel. -/
  hasSentinel : sentinel ∈ sh.symbols
  /-- Invariant 5: the number of leaves, and `NODE_COUNT`. -/
  leaves : 2 ≤ sh.symbols.length ∧ sh.symbols.length ≤ 257
  count : t.count.toNat = 2 * sh.symbols.length - 1

/-- The code table holds the root-to-leaf paths of the tree and nothing else (10_state.md R54; 42_tree_build.md R228). -/
def CodesOk (t : TreeMem) (sh : Shape) : Prop :=
  (∀ c ∈ sh.codes, t.codes.get c.1 = leafEntry c.2) ∧ ∀ sym, sym ∉ sh.symbols → t.codes.get sym = CodeEntry.absent

/-- The tree memory holds a complete, checked tree with its code table (10_state.md R53). -/
def HoldsTree (t : TreeMem) : Prop := ∃ sh, TreeOk t sh ∧ CodesOk t sh

/-- The symbols that get a leaf (42_tree_build.md R221, R222): the bytes present in ascending order, or the filler if there
is none, then the sentinel. -/
def leafSymbols (freq : Vector Word 256) : List Nat :=
  let present := (List.range 256).filter fun k => freqAt freq k ≠ 0
  (if present = [] then [0] else present) ++ [256]

/-- The body of a byte sequence in a tree memory: the codes of the bytes, then the sentinel's (30_encoding.md R153). -/
def bodyBits (t : TreeMem) (bytes : List Byte) : List Bool :=
  bytes.flatMap (fun b => (codeAt t b.toNat).toBits) ++ (codeAt t 256).toBits

/-! ### A tree being deserialized -/

/-- The nodes after the trees `fill` have been linked into the pending slots `stk`, each tree to its slot's parent
(43_tree_serial.md R245). -/
def linkAll : List StkEntry → List Shape → Vector Node 513 → Vector Node 513
  | e :: stk, f :: fill, nodes =>
    linkAll stk fill
      (if e.noParent then nodes else nodes.set e.ix.val (linkChild e.side f.root (nodes.get e.ix)) e.ix.isLt)
  | _, _, nodes => nodes

/-- The nodes 0 to `nn` - 1, with leaves `syms`, are one tree but for the pending slots `stk`: whatever trees, numbered on
from `nn` in pre-order, are put into those slots, the whole is one full binary tree with root 0 (43_tree_serial.md R245). -/
def Fillable (nodes : Vector Node 513) (nn : Nat) (stk : List StkEntry) (syms : List Symbol) : Prop :=
  ∀ (fill : List Shape) (nodes' : Vector Node 513), fill.length = stk.length →
    (fill.flatMap Shape.indices).map Fin.val = List.range' nn (fill.flatMap Shape.indices).length →
    (∀ f ∈ fill, f.fits nodes') →
    (∀ x : NodeIx, x.val < nn → nodes'.get x = (linkAll stk fill nodes).get x) →
    ∃ sh : Shape, sh.fits nodes' ∧ sh.root = 0 ∧
      (sh.indices.map Fin.val).Perm (List.range (nn + (fill.flatMap Shape.indices).length)) ∧
      sh.symbols.Perm (syms ++ fill.flatMap Shape.symbols)

/-- What `DESERIALIZE` has built while it reads the node nn - 1: that node is the first pending slot, and its parent's link
to it has been written. -/
structure Growing (s : State) : Prop where
  invalid : s.tree.valid = false
  numbered : s.eng.work.x.val + 1 = s.eng.work.nn
  parents : ∀ e ∈ s.eng.work.stk, e.noParent = false ∧ e.ix.val < s.eng.work.x.val
  fillable : ∃ syms : List Symbol, syms.Nodup ∧ (∀ y, s.eng.work.seen.get y = true ↔ y ∈ syms) ∧
    Fillable s.tree.nodes s.eng.work.x.val (⟨0, .left, true⟩ :: s.eng.work.stk) syms

/-- `TREE_VALID` is 1 only while the node memory holds a complete, checked tree with its code table (10_state.md R53), and
a running `DESERIALIZE` has part of a tree. -/
structure TreeInv (s : State) : Prop where
  valid : s.tree.valid = true → HoldsTree s.tree
  growing : s.status.busy = true → decode s.eng.cmd = .ok .deserialize → s.eng.pp ≠ .start → Growing s

end Sys2Proof.Machine
end

