-- ==== Sys2Proof/Certificates/Slice0/Obligations.lean ====
section
/-! DEFINITION. The statements about the model, for the provers. Each docstring names the rule of spec/ it rests on. -/

open Sys2Proof Sys2Proof.Machine

/-! ### Command words -/

/-- 30_encoding.md R140, R143, R160: no bit of an encoding is dropped. -/
def Obligations.DecodeInvertsEncode : Prop := ∀ i : Instr, decode (encode i) = .ok i

/-- 30_encoding.md R141, R143: a legal word is the encoding of the one command it decodes to. -/
def Obligations.EncodeInvertsDecode : Prop := ∀ (w : Word) (i : Instr), decode w = .ok i → encode i = w

/-- 30_encoding.md R141, R143: a legal word selects exactly the row of its command, an illegal word selects none. -/
def Obligations.DecodeFollowsOpcodeMap : Prop :=
  ∀ w : Word,
    (∀ i, decode w = .ok i → ∀ k r, opcodeMap[k]? = some r → (r.selects w = true ↔ k = i.opcode.toNat)) ∧
    (∀ e, decode w = .error e → ∀ r ∈ opcodeMap, r.selects w = false)

/-- 30_encoding.md R144; 40_command_protocol.md R183: which words are illegal, and that each raises `ILLEGAL_CMD` with no
other effect. That it does so at any program point is the model's (log 14; the rules give the raise in the first
micro-step). That the program point and the work variables stay as they are at a command's end is the model's (log 23). -/
def Obligations.IllegalWordsRaiseIllegalCmd : Prop :=
  ∀ w : Word,
    ((∃ e, decode w = .error e) ↔
      0x15 ≤ (opField w).toNat ∨ rsvField w ≠ 0 ∨
      (idxField w ≠ 0 ∧ (opField w).toNat ∈
        [0x00, 0x01, 0x04, 0x05, 0x06, 0x07, 0x08, 0x0A, 0x0B, 0x0C, 0x0D, 0x0E, 0x0F, 0x10, 0x11]) ∨
      (nField w ≠ 0 ∧ (opField w).toNat ∈
        [0x00, 0x01, 0x02, 0x03, 0x04, 0x05, 0x06, 0x07, 0x08, 0x09, 0x0A, 0x0B, 0x0E, 0x0F, 0x10, 0x11, 0x12, 0x13])) ∧
    ∀ (s : State) (e : DecodeError), s.status.busy = true → s.eng.cmd = w → decode w = .error e →
      engineStep s = .next { s with status := s.status.failed .illegalCmd }

/-- 30_encoding.md R143, R160: words written out from the encodings. -/
def Obligations.SpecWordsDecode : Prop :=
  decode 0x00000000#32 = .ok .nop ∧ decode 0x00004102#32 = .ok (.freqWrite 0x41#10) ∧
  decode 0x00010003#32 = .ok (.freqRead 256#10) ∧ decode 0x00000005#32 = .ok .build ∧
  decode 0x00000006#32 = .ok .serialize ∧ decode 0x00004209#32 = .ok (.encodeSym 0x42#10) ∧
  decode 0x0000000B#32 = .ok .decodeSym ∧ decode 0x007C000C#32 = .ok (.putBits 31#5) ∧
  decode 0x00020012#32 = .ok (.nodeRead 512#10) ∧ decode 0x00050014#32 = .ok (.codeBitsRead 256#10 1#5) ∧
  decode 0x00000015#32 = .error .reservedOpcode ∧ decode 0x80000005#32 = .error .reservedBits

/-! ### The step, the checks, the ends of a command -/

/-- 20_memory.md R90, R91, R115; 40_command_protocol.md R184: the engine's move runs the latched command, a host move is
that access, and `withFetchWord` makes the next step the word's first micro-step. The schedule is the model's (log 1). -/
def Obligations.StepRunsLatchedCommand : Prop :=
  (∀ (s : State) (i : Instr), s.status.busy = true → decode s.eng.cmd = .ok i →
    (s.sched = [] → step s = exec i s) ∧
    (∀ rest, s.sched = .engine :: rest → step s = exec i { s with sched := rest })) ∧
  (∀ (s : State) (a : Access) rest, s.sched = .host a :: rest → step s = hostStep a { s with sched := rest }) ∧
  (∀ (s : State) (w : Nat) (i : Instr), decode (BitVec.ofNat 32 w) = .ok i →
    step (s.withFetchWord 32 w) = exec i (acceptCommand (BitVec.ofNat 32 w) s))

/-- 40_command_protocol.md R180, R189: an idle engine touches no state. That the step answers the same state is the model's
choice (log 2). -/
def Obligations.IdleEngineTouchesNothing : Prop :=
  ∀ s : State, s.status.busy = false →
    (s.sched = [] → step s = .next s) ∧
    (∀ rest, s.sched = .engine :: rest → step s = .next { s with sched := rest })

/-- 30_encoding.md R145: the ranges, and that a legal word out of range raises `BAD_ARG` in its first micro-step with no
other effect, before the `NO_TREE` check. That the program point and the work variables stay as they are at a command's end
is the model's (log 23). -/
def Obligations.OutOfRangeRaisesBadArg : Prop :=
  (∀ (i : Instr) (s : State), s.eng.pp = .start → ¬ i.WellFormed →
    exec i s = .next { s with status := s.status.failed .badArg }) ∧
  (∀ sym : BitVec 10, (Instr.freqWrite sym).WellFormed ↔ sym.toNat ≤ 255) ∧
  (∀ sym : BitVec 10, ((Instr.freqRead sym).WellFormed ↔ sym.toNat ≤ 256) ∧
    ((Instr.encodeSym sym).WellFormed ↔ sym.toNat ≤ 256) ∧ ((Instr.codeLenRead sym).WellFormed ↔ sym.toNat ≤ 256)) ∧
  (∀ (sym : BitVec 10) (w : BitVec 5), (Instr.codeBitsRead sym w).WellFormed ↔ sym.toNat ≤ 256 ∧ w.toNat ≤ 7) ∧
  (∀ node : BitVec 10, (Instr.nodeRead node).WellFormed ↔ node.toNat ≤ 512) ∧
  (∀ n : BitVec 5, (Instr.putBits n).WellFormed ∧ (Instr.getBits n).WellFormed)

/-- 60_exceptions.md R341; 40_command_protocol.md R183: a command that needs a tree raises `NO_TREE` when there is none.
That the program point and the work variables stay as they are at a command's end is the model's (log 23). -/
def Obligations.TreeCommandsRaiseNoTree : Prop :=
  ∀ (i : Instr) (s : State), needsTree i = true → s.eng.pp = .start → i.WellFormed → s.tree.valid = false →
    exec i s = .next { s with status := s.status.failed .noTree }

/-- 60_exceptions.md R345: what `raise E` records, that it writes nothing else, and that the positions in the streams can
then be read exactly. That the program point and the work variables stay as they are at a command's end is the model's (log
23). -/
def Obligations.RaiseRecordsTheError : Prop :=
  ∀ (e : ErrCode) (s : State),
    raiseError e s = { s with status := { s.status with err := true, errcode := e, busy := false } } ∧
    (readReg .status (raiseError e s)).1.extractLsb' 8 8 = e.code ∧
    (readReg .bitsIn (raiseError e s)).1 = s.inp.bitsIn ∧ (readReg .bitsOut (raiseError e s)).1 = s.out.bitsOut ∧
    (readReg .bitpos (raiseError e s)).1.toNat = s.inp.brCnt.val + 256 * s.out.bwCnt.val

/-- 40_command_protocol.md R186: what `complete` writes, and that it writes nothing else. That the program point and the
work variables stay as they are at a command's end is the model's (log 23). -/
def Obligations.CompletionWritesResultAndDone : Prop :=
  ∀ (s : State) (v : Word),
    complete (some v) s = { s with result := v, status := { s.status with done := true, busy := false } } ∧
    complete none s = { s with status := { s.status with done := true, busy := false } }

/-- 20_memory.md R107; 40_command_protocol.md R184: a micro-step whose primitive would block does not happen, and no state
changes: the reads, at an inner point and in the first micro-step; the writes that complete a byte, likewise; and `FLUSH`.
That such a step answers the same state is the model's form (log 2). -/
def Obligations.BlockedMicroStepChangesNothing : Prop :=
  ∀ (i : Instr) (s : State),
    (s.inp.starved →
      (s.eng.pp ∈ commandPoints i → s.eng.pp ∈ [.freqByte, .desMark, .desSym, .encByte, .decWalk, .dsymWalk, .getBit, .magicIn] →
        exec i s = .next s) ∧
      (s.eng.pp = .start → i ∈ [.freqCount, .deserialize, .magicCheck] → exec i s = .next s) ∧
      (s.eng.pp = .start → ∀ n, i = .getBits n → exec i s = .next s) ∧
      (s.eng.pp = .start → s.tree.valid = true → i = .encode → exec i s = .next s) ∧
      (s.eng.pp = .start → s.tree.valid = true → (s.tree.nodes.get s.tree.root).isInt = true → i ∈ [.decode, .decodeSym] →
        exec i s = .next s)) ∧
    (s.out.bwCnt = 7 → s.out.fifo.length = s.params.outDepth →
      (s.eng.work.wq ≠ [] → s.eng.pp ∈ commandPoints i →
        s.eng.pp ∈ [.serInt, .serLeaf, .encCode, .encEnd, .encSym, .decByte, .putBit, .magicOut] → exec i s = .next s) ∧
      (s.eng.pp = .start → ∀ n, i = .putBits n → exec i s = .next s) ∧
      (s.eng.pp = .start → i = .magicWrite → exec i s = .next s) ∧
      (s.eng.pp = .start → s.tree.valid = true → i = .serialize → exec i s = .next s) ∧
      (s.eng.pp = .start → s.tree.valid = true → ∀ sym, i = .encodeSym sym → (codeAt s.tree sym.toNat).valid = true →
        (codeAt s.tree sym.toNat).toBits ≠ [] → exec i s = .next s)) ∧
    (s.out.bwCnt ≠ 0 → s.out.fifo.length = s.params.outDepth → s.eng.pp = .start ∨ s.eng.pp = .flushByte → i = .flush →
      exec i s = .next s)

/-! ### The register block -/

/-- 10_state.md R60; 70_reset_and_hazards.md R380, R381: every register and every piece of state with a reset value, after
power-on reset and after a `CTRL` write with `SRST`, for every choice of the parameters. The values the spec leaves unspecified,
and what a soft reset keeps, are the model's (logs 4 to 8). -/
def Obligations.ResetGivesTheResetValues : Prop :=
  (∀ p : Params, ∀ s, s = State.resetWith p →
    (readReg .id s).1 = 0x48554631#32 ∧ (readReg .status s).1 = 0 ∧ (readReg .irqEn s).1 = 0 ∧ (readReg .arg s).1 = 0 ∧
    (readReg .result s).1 = 0 ∧ (readReg .treeInfo s).1 = 0 ∧
    (readReg .inLevel s).1 = BitVec.ofNat 16 p.inDepth ++ 0#16 ∧ (readReg .outData s).1 = 0 ∧
    (readReg .outLevel s).1 = BitVec.ofNat 16 p.outDepth ++ 0#16 ∧ (readReg .bitsIn s).1 = 0 ∧
    (readReg .bitsOut s).1 = 0 ∧ (readReg .bitpos s).1 = 0 ∧
    s.status = ⟨false, false, false, false, false, .none, 0⟩ ∧ s.irqEn = ⟨false, false⟩ ∧
    s.inp.fifo = [] ∧ s.inp.ended = false ∧ s.inp.brByte = 0 ∧ s.inp.brCnt = 0 ∧ s.inp.bitsIn = 0 ∧
    s.out.fifo = [] ∧ s.out.bwByte = 0 ∧ s.out.bwCnt = 0 ∧ s.out.bitsOut = 0 ∧
    (∀ k : Fin 256, s.freq.get k = 0) ∧ s.tree.root = 0 ∧ s.tree.count = 0 ∧ s.tree.valid = false ∧
    s.eng.cmd = 0 ∧ s.eng.arg = 0 ∧ irq s = false) ∧
  State.reset = State.resetWith ⟨Config.base, 16, 16, 0x00000736#32⟩ ∧
  (∀ (s : State) (v : Word), v.getLsbD 0 = true →
    writeReg .ctrl v s = { State.resetWith s.params with sched := s.sched, reads := s.reads, draws := s.draws })

/-- 10_state.md R33: a `CTRL` write without `SRST`: its actions in order, each seeing BUSY as the earlier ones left it, and
nothing else written. That the program point and the work variables stay as they are at a command's end is the model's (log
23). -/
def Obligations.ControlActionsInOrder : Prop :=
  ∀ (s : State) (v : Word), v.getLsbD 0 = false →
    let busy := s.status.busy && !v.getLsbD 1
    writeReg .ctrl v s =
      { s with
        status := if v.getLsbD 1 && s.status.busy then s.status.failed .aborted else s.status
        inp :=
          if v.getLsbD 2 && !busy then ⟨[], v.getLsbD 4, 0, 0, 0⟩
          else { s.inp with ended := s.inp.ended || v.getLsbD 4 }
        out := if v.getLsbD 3 && !busy then ⟨[], 0, 0, 0⟩ else s.out }

/-- 10_state.md R34; 60_exceptions.md R340: every field of the value `STATUS` reads, and the fourteen error codes. -/
def Obligations.StatusReadsItsFields : Prop :=
  [ErrCode.none, .illegalCmd, .badArg, .noTree, .truncated, .badSymbol, .dupSymbol, .treeTooLarge, .leafRoot, .noSentinel,
    .noCode, .freqOverflow, .badMagic, .aborted].map ErrCode.code =
    [0x00#8, 0x01#8, 0x02#8, 0x03#8, 0x04#8, 0x05#8, 0x06#8, 0x07#8, 0x08#8, 0x09#8, 0x0A#8, 0x0B#8, 0x0C#8, 0x0D#8] ∧
  ∀ s : State,
    (readReg .status s).1.getLsbD 0 = s.status.busy ∧ (readReg .status s).1.getLsbD 1 = s.status.done ∧
    (readReg .status s).1.getLsbD 2 = s.status.err ∧ (readReg .status s).1.getLsbD 3 = s.tree.valid ∧
    (readReg .status s).1.getLsbD 4 = s.inp.ended ∧ (readReg .status s).1.getLsbD 5 = s.status.inDrop ∧
    (readReg .status s).1.getLsbD 6 = s.status.cmdDrop ∧ (readReg .status s).1.getLsbD 7 = irq s ∧
    (readReg .status s).1.extractLsb' 8 8 = s.status.errcode.code ∧
    (readReg .status s).1.extractLsb' 16 8 = s.status.lastOp ∧ (readReg .status s).1.extractLsb' 24 8 = 0#8

/-- 60_exceptions.md R350, R351: the interrupt output, and that `STATUS.IRQ` reads it. -/
def Obligations.InterruptReportsEnabledFlags : Prop :=
  ∀ s : State,
    (irq s = true ↔ (s.status.done = true ∧ s.irqEn.doneIe = true) ∨ (s.status.err = true ∧ s.irqEn.errIe = true)) ∧
    (readReg .status s).1.getLsbD 7 = irq s

/-- 10_state.md R35: a `STATUS` write clears the flags written as 1 and changes nothing else. -/
def Obligations.StatusWriteClearsFlags : Prop :=
  ∀ (s : State) (v : Word),
    writeReg .status v s =
      { s with
        status :=
          { busy := s.status.busy
            done := if v.getLsbD 1 then false else s.status.done
            err := if v.getLsbD 2 then false else s.status.err
            inDrop := if v.getLsbD 5 then false else s.status.inDrop
            cmdDrop := if v.getLsbD 6 then false else s.status.cmdDrop
            errcode := if v.getLsbD 2 then .none else s.status.errcode
            lastOp := s.status.lastOp } }

/-- 10_state.md R37; 40_command_protocol.md R182: a `CMD` write is accepted or dropped; an illegal word is accepted, and its
first micro-step raises `ILLEGAL_CMD`; `CMD` reads 0. That the program point and the work variables stay as they are at a
command's end is the model's (log 23). -/
def Obligations.CommandWriteAcceptedOrDropped : Prop :=
  ∀ (s : State) (w : Word),
    (s.status.busy = true ∨ s.status.err = true →
      writeReg .cmd w s = { s with status := { s.status with cmdDrop := true } }) ∧
    (s.status.busy = false → s.status.err = false →
      writeReg .cmd w s =
        { s with
          eng := { s.eng with cmd := w, arg := s.arg, pp := .start }
          status := { s.status with lastOp := w.extractLsb' 0 8, done := false, busy := true } }) ∧
    (∀ e, s.status.busy = false → s.status.err = false → decode w = .error e →
      engineStep (writeReg .cmd w s) =
        .next { writeReg .cmd w s with status := (writeReg .cmd w s).status.failed .illegalCmd }) ∧
    readReg .cmd s = (0, s)

/-- 10_state.md R41: an `IN_DATA` write pushes its low byte, or is dropped with `IN_DROP`. -/
def Obligations.InDataPushesOrDrops : Prop :=
  ∀ (s : State) (v : Word),
    (s.inp.ended = true ∨ s.inp.fifo.length = s.params.inDepth →
      writeReg .inData v s = { s with status := { s.status with inDrop := true } }) ∧
    (s.inp.ended = false → s.inp.fifo.length ≠ s.params.inDepth →
      writeReg .inData v s = { s with inp := { s.inp with fifo := s.inp.fifo ++ [v.extractLsb' 0 8] } }) ∧
    (readReg .inData s).1 = 0

/-- 10_state.md R43: a read of `OUT_DATA` pops the oldest byte, with VALID in bit 8; a write is ignored; the engine's bytes
are pushed behind those that are there. -/
def Obligations.OutDataPopsTheOldestByte : Prop :=
  ∀ s : State,
    (s.out.fifo = [] → readReg .outData s = (0, s)) ∧
    (∀ b rest, s.out.fifo = b :: rest →
      readReg .outData s = (0x100#32 ||| b.setWidth 32, { s with out := { s.out with fifo := rest } })) ∧
    (∀ v, writeReg .outData v s = s) ∧
    (∀ b c, writeBit s.params.outDepth b s.out = some c → ∃ pushed, c.fifo = s.out.fifo ++ pushed) ∧
    (∀ p c, flushByte s.params.outDepth s.out = some (p, c) → ∃ pushed, c.fifo = s.out.fifo ++ pushed)

/-- 10_state.md R62, R39, R40, R45, R46: five registers read a free draw while BUSY = 1 (that each draw is the next value of
an opaque constant is the model's, log 3) and exactly as their rules say while BUSY = 0. -/
def Obligations.FiveRegistersReadFreelyWhileBusy : Prop :=
  ∀ s : State,
    (s.status.busy = true → ∀ r ∈ [Reg.result, .treeInfo, .bitsIn, .bitsOut, .bitpos],
      readReg r s = (Config.freeWord s.draws, { s with draws := s.draws + 1 })) ∧
    (s.status.busy = false →
      readReg .result s = (s.result, s) ∧ readReg .bitsIn s = (s.inp.bitsIn, s) ∧ readReg .bitsOut s = (s.out.bitsOut, s) ∧
      (readReg .bitpos s).2 = s ∧
      (readReg .bitpos s).1.toNat = s.inp.brCnt.val + 256 * s.out.bwCnt.val ∧
      (readReg .treeInfo s).2 = s ∧
      (readReg .treeInfo s).1.toNat =
        if s.tree.valid then s.tree.root.val + 65536 * s.tree.count.toNat else 0)

/-- 20_memory.md R96; 10_state.md R31, R32, R33, R37, R41, R42, R44, R47: no read but that of `OUT_DATA` changes the core's
state; `ID` reads its constant; the registers without storage and the reserved offset read 0; and the level registers read
the capacity and the number of bytes. -/
def Obligations.ReadsHaveNoSideEffect : Prop :=
  (∀ (r : Reg) (s : State), r ≠ .outData →
    ∃ v d, accessReg r .read s = { s with reads := v :: s.reads, draws := d }) ∧
  ∀ s : State,
    readReg .id s = (0x48554631#32, s) ∧
    (∀ r ∈ [Reg.ctrl, .cmd, .inData, .reserved], readReg r s = (0, s)) ∧
    readReg .inLevel s = (BitVec.ofNat 16 s.params.inDepth ++ BitVec.ofNat 16 s.inp.fifo.length, s) ∧
    readReg .outLevel s = (BitVec.ofNat 16 s.params.outDepth ++ BitVec.ofNat 16 s.out.fifo.length, s)

/-- 10_state.md R32, R36, R38, R39, R47, R49: what no host access writes, other than a `CTRL` write with `SRST`: `RESULT`,
the frequency table, the tree and, other than by an accepted command, the engine; and the two registers it stores to. That
the program point and the work variables stay as they are at an abort is the model's (log 23). -/
def Obligations.HostAccessesLeaveTheEngineAlone : Prop :=
  (∀ (r : Reg) (k : AccessKind) (s : State), (∀ v, r = .ctrl → k = .write v → v.getLsbD 0 = false) →
    (accessReg r k s).result = s.result ∧ (accessReg r k s).freq = s.freq ∧ (accessReg r k s).tree = s.tree ∧
    (accessReg r k s).params = s.params ∧ (r ≠ .cmd → (accessReg r k s).eng = s.eng)) ∧
  (∀ (v : Word) (s : State), writeReg .arg v s = { s with arg := v } ∧
    writeReg .irqEn v s = { s with irqEn := ⟨v.getLsbD 0, v.getLsbD 1⟩ } ∧ readReg .arg s = (s.arg, s) ∧
    (readReg .irqEn s).1.toNat = s.irqEn.doneIe.toNat + 2 * s.irqEn.errIe.toNat) ∧
  (∀ (v : Word) (s : State), ∀ r ∈ [Reg.id, .result, .treeInfo, .inLevel, .outLevel, .bitsIn, .bitsOut, .bitpos, .reserved],
    writeReg r v s = s)

/-- 20_memory.md R92, R93, R95; 10_state.md R32: the register at each offset, which host accesses are to a register, and
which are refused (log 9). -/
def Obligations.HostAccessIsAlignedWordOrRefused : Prop :=
  [0x00, 0x04, 0x08, 0x0C, 0x10, 0x14, 0x18, 0x1C, 0x20, 0x24, 0x28, 0x2C, 0x30, 0x34, 0x38, 0x3C].map regAt =
    [some Reg.id, some .ctrl, some .status, some .irqEn, some .cmd, some .arg, some .result, some .treeInfo, some .inData,
      some .inLevel, some .outData, some .outLevel, some .bitsIn, some .bitsOut, some .bitpos, some .reserved] ∧
  ∀ (a : Access) (s : State),
    (a.addr < s.params.base ∨ s.params.base + 0x40 ≤ a.addr → hostStep a s = .refused .outsideWindow) ∧
    (s.params.base ≤ a.addr → a.addr < s.params.base + 0x40 → a.bytes ≠ 4 ∨ (a.addr - s.params.base) % 4 ≠ 0 →
      hostStep a s = .refused .busError) ∧
    (s.params.base ≤ a.addr → a.addr < s.params.base + 0x40 → a.bytes = 4 → (a.addr - s.params.base) % 4 = 0 →
      ∃ r, regAt (a.addr - s.params.base) = some r ∧ hostStep a s = .next (accessReg r a.kind s))

/-! ### The channel primitives -/

/-- 20_memory.md R101: `ReadBit`. -/
def Obligations.ReadBitTakesTheNextBit : Prop :=
  ∀ c : InChan,
    (∀ k, c.brCnt.val = k + 1 →
      ∃ c', readBit c = .bit (c.brByte.getLsbD k) c' ∧ c'.brCnt.val = k ∧ c'.fifo = c.fifo ∧ c'.brByte = c.brByte ∧
        c'.ended = c.ended ∧ c'.bitsIn = c.bitsIn + 1) ∧
    (∀ b rest, c.brCnt.val = 0 → c.fifo = b :: rest →
      readBit c = .bit (b.getLsbD 7) { c with fifo := rest, brByte := b, brCnt := 7, bitsIn := c.bitsIn + 1 }) ∧
    (c.brCnt.val = 0 → c.fifo = [] → c.ended = true → readBit c = .eod) ∧
    (c.brCnt.val = 0 → c.fifo = [] → c.ended = false → readBit c = .block)

/-- 20_memory.md R104, R106: `WriteBit` and `FlushByte` block exactly on a full `OUT` when they would push a byte, and else
append their bits to the stream: the bit written, counted; the padding zeros, not counted. -/
def Obligations.WriteBitAndFlushAppend : Prop :=
  ∀ (depth : Nat) (c : OutChan), c.tailZero →
    (∀ b, (writeBit depth b c = none ↔ c.bwCnt.val = 7 ∧ c.fifo.length = depth) ∧
      ∀ c', writeBit depth b c = some c' →
        outBits c' = outBits c ++ [b] ∧ c'.bitsOut = c.bitsOut + 1 ∧ c'.bwCnt.val = (c.bwCnt.val + 1) % 8) ∧
    (flushByte depth c = none ↔ c.bwCnt.val ≠ 0 ∧ c.fifo.length = depth) ∧
    ∀ p c', flushByte depth c = some (p, c') →
      outBits c' = outBits c ++ List.replicate p false ∧ c'.bitsOut = c.bitsOut ∧ c'.bwCnt.val = 0 ∧
        p = (8 - c.bwCnt.val) % 8

/-! ### NOP and the frequency table -/

/-- 40_command_protocol.md R188: `NOP` completes and changes nothing besides the common flags. That the program point and
the work variables stay as they are at a command's end is the model's (log 23). -/
def Obligations.NopCompletes : Prop :=
  ∀ s : State, s.eng.pp = .start → exec .nop s = .next { s with status := s.status.completed }

/-- 41_frequency.md R200, R201, R203; 10_state.md R51: `FREQ_CLEAR`, `FREQ_WRITE` and `FREQ_READ` complete in one
micro-step, write what their rules say, and nothing else. That the program point and the work variables stay as they are at
a command's end is the model's (log 23). -/
def Obligations.FrequencyTableCommandsComplete : Prop :=
  ∀ s : State, s.eng.pp = .start →
    exec .freqClear s = .next { s with freq := .replicate 256 0, status := s.status.completed } ∧
    (∀ (sym : BitVec 10) (h : sym.toNat < 256),
      exec (.freqWrite sym) s = .next { s with freq := s.freq.set sym.toNat s.eng.arg h, status := s.status.completed } ∧
      exec (.freqRead sym) s = .next { s with result := s.freq[sym.toNat]'h, status := s.status.completed }) ∧
    exec (.freqRead 256#10) s = .next { s with result := 1, status := s.status.completed }

/-- 41_frequency.md R205: the micro-step that ends a byte counts it, or raises `FREQ_OVERFLOW` with the byte consumed and no
count changed. -/
def Obligations.FreqCountCountsAByte : Prop :=
  ∀ (s : State) (b : Bool) (c : InChan) (k : Fin 256), s.eng.pp = .freqByte → s.eng.work.rk = 7 →
    readBit s.inp = .bit b c → ((shiftIn s.eng.work.rv b).setWidth 8).toNat = k.val →
    (s.freq.get k ≠ 0xFFFFFFFF#32 →
      ∃ t, exec .freqCount s = .next t ∧ t.freq = s.freq.set k.val (s.freq.get k + 1) k.isLt ∧
        t.eng.work.cnt = s.eng.work.cnt + 1 ∧ t.eng.work.rk = 0 ∧ t.eng.pp = .freqByte ∧ t.inp = c ∧
        t.status = s.status ∧ t.result = s.result ∧ t.out = s.out ∧ t.tree = s.tree ∧ EngineKeeps s t) ∧
    (s.freq.get k = 0xFFFFFFFF#32 →
      ∃ t, exec .freqCount s = .next t ∧ t.freq = s.freq ∧ t.status = s.status.failed .freqOverflow ∧ t.inp = c ∧
        t.result = s.result ∧ t.out = s.out ∧ t.tree = s.tree ∧ EngineKeeps s t)

/-- 41_frequency.md R205, 70_reset_and_hazards.md R397: over a whole stream of bytes that is all there and ended, and that
lets no count pass 2^32 - 1, `FREQ_COUNT` adds each byte's occurrences to its count and completes with their number, in
8 micro-steps a byte and one for `EOD`. -/
def Obligations.FreqCountTotalsTheStream : Prop :=
  ∀ (s : State) (bytes : List Byte), s.eng.pp = .start → inBits s.inp = bytes.flatMap (bitsMsb 8) → s.inp.ended = true →
    (∀ k : Fin 256, (s.freq.get k).toNat + bytes.count (BitVec.ofNat 8 k.val) < 2 ^ 32) →
    ∃ t, microSteps .freqCount (8 * bytes.length + 1) s = .next t ∧
      (∀ k : Fin 256, (t.freq.get k).toNat = (s.freq.get k).toNat + bytes.count (BitVec.ofNat 8 k.val)) ∧
      t.result = BitVec.ofNat 32 bytes.length ∧ t.status = s.status.completed ∧ inBits t.inp = [] ∧
      t.inp.bitsIn = s.inp.bitsIn + BitVec.ofNat 32 (8 * bytes.length) ∧
      t.out = s.out ∧ t.tree = s.tree ∧ EngineKeeps s t

/-- 41_frequency.md R205: at `EOD`, `FREQ_COUNT` completes between bytes and raises `TRUNCATED` inside one. That the program
point and the work variables stay as they are at a command's end is the model's (log 23). -/
def Obligations.FreqCountEndsAtEndOfData : Prop :=
  ∀ s : State, s.inp.exhausted →
    (s.eng.pp = .start → ∃ t, exec .freqCount s = .next t ∧ t.result = 0 ∧ t.status = s.status.completed ∧ t.freq = s.freq ∧
      t.inp = s.inp ∧ t.out = s.out ∧ t.tree = s.tree ∧ EngineKeeps s t) ∧
    (s.eng.pp = .freqByte → s.eng.work.rk = 0 →
      exec .freqCount s = .next { s with result := s.eng.work.cnt, status := s.status.completed }) ∧
    (s.eng.pp = .freqByte → s.eng.work.rk ≠ 0 →
      exec .freqCount s = .next { s with status := s.status.failed .truncated })

/-! ### BUILD -/

/-- 42_tree_build.md R220, R221, R222, R227: `BUILD` completes from every table in one micro-step; RESULT is L, the leaves
are NODE[0 .. L-1] in ascending symbol order, each with the frequency of its symbol (its count; 0 for the filler, whose
count is 0; 1 for the sentinel), ROOT is 2L - 2 and NODE_COUNT is 2L - 1; nothing but the tree, RESULT and the common flags
is written. That the program point and the work variables stay as they are at a command's end is the model's (log 23). -/
def Obligations.BuildCompletesWithItsLeaves : Prop :=
  ∀ s : State, s.eng.pp = .start →
    ∃ t : TreeMem, exec .build s =
        .next { s with
          tree := t
          result := BitVec.ofNat 32 (leafSymbols s.freq).length
          status := s.status.completed } ∧
      t.valid = true ∧ 2 ≤ (leafSymbols s.freq).length ∧ (leafSymbols s.freq).length ≤ 257 ∧
      t.root.val = 2 * (leafSymbols s.freq).length - 2 ∧ t.count.toNat = 2 * (leafSymbols s.freq).length - 1 ∧
      ∀ (k : Nat) (sym : Nat), (leafSymbols s.freq)[k]? = some sym →
        ∃ x y, x.val = k ∧ y.val = sym ∧ t.nodes.get x = .leaf y ∧
          (t.wfreq.get x).toNat = if sym = 256 then 1 else (freqAt s.freq sym).toNat

/-- 42_tree_build.md R220, R223, R228; 10_state.md R53, R54: from every frequency table `BUILD` leaves a tree that satisfies
every invariant of R223, with the code table of its root-to-leaf paths. -/
def Obligations.BuildLeavesAValidTree : Prop :=
  ∀ s t : State, s.eng.pp = .start → exec .build s = .next t → t.tree.valid = true ∧ HoldsTree t.tree

/-- 42_tree_build.md R221, R222, R224, R225, R226: each leaf has the frequency of its symbol in the table, 1 for the sentinel;
each internal node joins the two lowest-ranked nodes that are then active, the lower as its left child, and its frequency is
their exact sum. (A node is active at `x` when its index is below `x` and it is no child of an internal node with an index
below `x`.) -/
def Obligations.BuildMergesTheTwoLowest : Prop :=
  ∀ s t : State, s.eng.pp = .start → exec .build s = .next t →
    (∀ (x : NodeIx) (sym : Symbol), x ≤ t.tree.root → t.tree.nodes.get x = .leaf sym →
      (t.tree.wfreq.get x).toNat = if sym = sentinel then 1 else (freqAt s.freq sym.val).toNat) ∧
    ∀ x a b : NodeIx, x ≤ t.tree.root → t.tree.nodes.get x = .int a b →
      let active (y : NodeIx) : Prop := y < x ∧ ∀ z l r : NodeIx, z < x → t.tree.nodes.get z = .int l r → y ≠ l ∧ y ≠ r
      active a ∧ active b ∧ a ≠ b ∧
      (∀ y, active y → y ≠ a → ranksBefore t.tree.wfreq a y = true) ∧
      (∀ y, active y → y ≠ a → y ≠ b → ranksBefore t.tree.wfreq b y = true) ∧
      (t.tree.wfreq.get x).toNat = (t.tree.wfreq.get a).toNat + (t.tree.wfreq.get b).toNat

/-- 42_tree_build.md R224: every build of the same table gives the same tree, whatever the memories held before. -/
def Obligations.BuildDependsOnlyOnTheTable : Prop :=
  ∀ s s' t t' : State, s.eng.pp = .start → s'.eng.pp = .start → s.freq = s'.freq →
    exec .build s = .next t → exec .build s' = .next t' →
    t.tree.root = t'.tree.root ∧ t.tree.count = t'.tree.count ∧ t.tree.codes = t'.tree.codes ∧ t.result = t'.result ∧
    ∀ x : NodeIx, x.val < t.tree.count.toNat → t.tree.nodes.get x = t'.tree.nodes.get x

/-- 42_tree_build.md R222: with no byte counted, `BUILD` gives the filler tree: codes "0" for symbol 0 and "1" for the
sentinel. -/
def Obligations.BuildOfEmptyTableGivesFillerTree : Prop :=
  ∀ s : State, s.eng.pp = .start → s.freq = .replicate 256 0 →
    ∃ t, exec .build s = .next t ∧ t.tree.nodes.get 0 = .leaf 0 ∧ t.tree.nodes.get 1 = .leaf sentinel ∧
      t.tree.nodes.get 2 = .int 0 1 ∧ t.tree.root = 2 ∧ t.tree.count = 3 ∧ t.result = 2 ∧
      (codeAt t.tree 0).toBits = [false] ∧ (codeAt t.tree 256).toBits = [true] ∧ (codeAt t.tree 0).valid = true ∧
      (codeAt t.tree 256).valid = true

/-! ### SERIALIZE and DESERIALIZE -/

/-- 43_tree_serial.md R240; 30_encoding.md R150, R151: where `OUT` has room for all of it, `SERIALIZE` writes exactly the
pre-order encoding of the tree, one bit a micro-step, 11L - 1 bits, and completes with their number. -/
def Obligations.SerializeWritesPreOrder : Prop :=
  ∀ (s : State) (sh : Shape), s.eng.pp = .start → s.tree.valid = true → sh.fits s.tree.nodes → sh.root = s.tree.root →
    s.out.tailZero → s.out.hasRoom s.params.outDepth sh.ser.length →
    sh.ser.length + 1 = 11 * sh.symbols.length ∧
    ∃ t, microSteps .serialize sh.ser.length s = .next t ∧ outBits t.out = outBits s.out ++ sh.ser ∧
      t.out.bitsOut = s.out.bitsOut + BitVec.ofNat 32 sh.ser.length ∧
      t.result = BitVec.ofNat 32 sh.ser.length ∧ t.status = s.status.completed ∧ t.inp = s.inp ∧ t.freq = s.freq ∧
      t.tree = s.tree ∧ EngineKeeps s t

/-- 43_tree_serial.md R245, R248, R249; 42_tree_build.md R228: `DESERIALIZE` of the bits of a tree whose leaves are unique
and include the sentinel, and whose root is internal, completes in one micro-step a bit, consumes exactly those bits, and
leaves that tree with its nodes numbered in pre-order, valid, with its codes. -/
def Obligations.DeserializeReadsPreOrder : Prop :=
  ∀ (s : State) (sh : Shape) (rest : List Bool), s.eng.pp = .start → sh.isInt = true → sh.symbols.Nodup →
    sentinel ∈ sh.symbols → inBits s.inp = sh.ser ++ rest →
    ∃ t sh', microSteps .deserialize sh.ser.length s = .next t ∧ inBits t.inp = rest ∧
      t.result = BitVec.ofNat 32 sh.ser.length ∧ t.status = s.status.completed ∧ t.tree.valid = true ∧
      sh'.ser = sh.ser ∧ sh'.codes = sh.codes ∧ sh'.indices.map Fin.val = List.range (2 * sh.symbols.length - 1) ∧
      TreeOk t.tree sh' ∧ CodesOk t.tree sh' ∧ t.out = s.out ∧ t.freq = s.freq ∧ EngineKeeps s t

/-- 43_tree_serial.md R245; 60_exceptions.md R340, R343: the errors of `DESERIALIZE`, each at its point of the pseudocode,
and the completion, at the last bit of a leaf. -/
def Obligations.DeserializeChecksEachLeaf : Prop :=
  ∀ (s : State) (b : Bool) (c : InChan) (v : Nat), s.eng.pp = .desSym → s.eng.work.rk = 8 → readBit s.inp = .bit b c →
    (shiftIn s.eng.work.rv b).toNat = v →
    (256 < v → ∃ t, exec .deserialize s = .next t ∧ t.status = s.status.failed .badSymbol ∧ t.tree = s.tree ∧ t.inp = c ∧
      t.result = s.result) ∧
    (∀ sym : Symbol, sym.val = v → s.eng.work.seen.get sym = true →
      ∃ t, exec .deserialize s = .next t ∧ t.status = s.status.failed .dupSymbol ∧ t.tree = s.tree ∧ t.inp = c ∧
        t.result = s.result) ∧
    (∀ sym : Symbol, sym.val = v → s.eng.work.seen.get sym = false → s.eng.work.stk = [] →
      (s.eng.work.x = 0 → ∃ t, exec .deserialize s = .next t ∧ t.status = s.status.failed .leafRoot ∧
        t.tree.valid = s.tree.valid ∧ t.inp = c ∧ t.result = s.result) ∧
      (s.eng.work.x ≠ 0 → (s.tree.nodes.get 0).isInt = true → sym ≠ sentinel → s.eng.work.seen.get sentinel = false →
        ∃ t, exec .deserialize s = .next t ∧ t.status = s.status.failed .noSentinel ∧ t.tree.valid = s.tree.valid ∧
          t.inp = c ∧ t.result = s.result) ∧
      (s.eng.work.x ≠ 0 → (s.tree.nodes.get 0).isInt = true → sym = sentinel ∨ s.eng.work.seen.get sentinel = true →
        ∃ t, exec .deserialize s = .next t ∧ t.status = s.status.completed ∧ t.tree.valid = true ∧ t.tree.root = 0 ∧
          t.tree.count = BitVec.ofNat 10 s.eng.work.nn ∧ t.tree.nodes.get s.eng.work.x = .leaf sym ∧
          t.tree.codes = buildCodes t.tree.nodes 0 ∧ t.inp = c ∧ t.result = s.eng.work.nbits + 9))

/-- 43_tree_serial.md R245: a 257th internal node raises `TREE_TOO_LARGE`, and `EOD` at a marker or inside a symbol raises
`TRUNCATED`; `TREE_VALID` stays what it is. That the program point and the work variables stay as they are at a command's
end is the model's (log 23). -/
def Obligations.DeserializeRefusesTooLargeAndTruncated : Prop :=
  ∀ s : State,
    (∀ c, s.eng.pp = .desMark → readBit s.inp = .bit true c → s.eng.work.ni = 256 →
      ∃ t, exec .deserialize s = .next t ∧ t.status = s.status.failed .treeTooLarge ∧ t.tree = s.tree ∧ t.inp = c ∧
        t.result = s.result) ∧
    (s.inp.exhausted → s.eng.pp ∈ [.desMark, .desSym] →
      exec .deserialize s = .next { s with status := s.status.failed .truncated }) ∧
    (s.inp.exhausted → s.eng.pp = .start →
      ∃ t, exec .deserialize s = .next t ∧ t.status = s.status.failed .truncated ∧ t.tree.valid = false ∧
        t.tree.codes = s.tree.codes ∧ t.inp = s.inp ∧ t.result = s.result)

/-! ### ENCODE and DECODE -/

/-- 44_encode.md R262, R264: where `OUT` has room, `ENCODE_SYM` of a symbol that has a leaf writes its code, one bit a
micro-step, and completes with its length; of a symbol that has none it raises `NO_CODE` and writes nothing. That the
program point and the work variables stay as they are at a command's end is the model's (log 23). -/
def Obligations.EncodeSymWritesTheCode : Prop :=
  ∀ (s : State) (sym : BitVec 10) (h : sym.toNat < 257), s.eng.pp = .start → s.tree.valid = true →
    ((s.tree.codes[sym.toNat]'h).valid = false →
      exec (.encodeSym sym) s = .next { s with status := s.status.failed .noCode }) ∧
    ((s.tree.codes[sym.toNat]'h).valid = true → (s.tree.codes[sym.toNat]'h).toBits ≠ [] → s.out.tailZero →
      s.out.hasRoom s.params.outDepth (s.tree.codes[sym.toNat]'h).toBits.length →
      ∃ t, microSteps (.encodeSym sym) (s.tree.codes[sym.toNat]'h).len.toNat s = .next t ∧
        outBits t.out = outBits s.out ++ (s.tree.codes[sym.toNat]'h).toBits ∧
        t.result = (s.tree.codes[sym.toNat]'h).len.setWidth 32 ∧ t.status = s.status.completed ∧ t.inp = s.inp ∧
        t.freq = s.freq ∧ t.tree = s.tree ∧ EngineKeeps s t)

/-- 44_encode.md R260, R266; 30_encoding.md R153: over a whole stream of bytes that is all there and ended, each with a
code, and with room for the body, `ENCODE` writes exactly the encoded body and completes with the number of bytes, in 8
micro-steps a byte, one for `EOD` and one for each bit of the body. -/
def Obligations.EncodeWritesTheBody : Prop :=
  ∀ (s : State) (bytes : List Byte), s.eng.pp = .start → s.tree.valid = true → inBits s.inp = bytes.flatMap (bitsMsb 8) →
    s.inp.ended = true →
    (∀ b ∈ bytes, (codeAt s.tree b.toNat).valid = true ∧ (codeAt s.tree b.toNat).toBits ≠ []) →
    (codeAt s.tree 256).toBits ≠ [] → s.out.tailZero → s.out.hasRoom s.params.outDepth (bodyBits s.tree bytes).length →
    ∃ t, microSteps .encode (8 * bytes.length + 1 + (bodyBits s.tree bytes).length) s = .next t ∧
      outBits t.out = outBits s.out ++ bodyBits s.tree bytes ∧ inBits t.inp = [] ∧
      t.result = BitVec.ofNat 32 bytes.length ∧ t.status = s.status.completed ∧ t.freq = s.freq ∧ t.tree = s.tree ∧
      EngineKeeps s t

/-- 44_encode.md R260: a byte without a leaf raises `NO_CODE`, with the byte consumed and nothing written; `EOD` inside a
byte raises `TRUNCATED`; the last bit of the terminator completes `ENCODE`. That the program point and the work variables
stay as they are at a command's end is the model's (log 23). -/
def Obligations.EncodeErrorsAndCompletion : Prop :=
  ∀ s : State,
    (∀ b c, s.eng.pp = .encByte → s.eng.work.rk = 7 → readBit s.inp = .bit b c →
      (codeAt s.tree ((shiftIn s.eng.work.rv b).setWidth 8).toNat).valid = false →
      ∃ t, exec .encode s = .next t ∧ t.status = s.status.failed .noCode ∧ t.inp = c ∧ t.out = s.out ∧ t.result = s.result ∧
        t.freq = s.freq ∧ t.tree = s.tree ∧ EngineKeeps s t) ∧
    (s.inp.exhausted → s.eng.pp = .encByte → s.eng.work.rk ≠ 0 →
      exec .encode s = .next { s with status := s.status.failed .truncated }) ∧
    (∀ b o, s.eng.pp = .encEnd → s.eng.work.wq = [b] → writeBit s.params.outDepth b s.out = some o →
      ∃ t, exec .encode s = .next t ∧ t.status = s.status.completed ∧ t.result = s.eng.work.cnt ∧ t.out = o ∧
        t.inp = s.inp ∧ t.freq = s.freq ∧ t.tree = s.tree ∧ EngineKeeps s t)

/-- 45_decode.md R282, R285; 30_encoding.md R152, R154: `DECODE_SYM` on input that starts with the code of a leaf of the
tree, the root being internal, consumes exactly that code, one bit a micro-step, and returns the leaf's symbol. -/
def Obligations.DecodeSymReadsOneCode : Prop :=
  ∀ (s : State) (sh : Shape) (c : Symbol × List Bool) (rest : List Bool), s.eng.pp = .start → s.tree.valid = true →
    sh.fits s.tree.nodes → sh.root = s.tree.root → sh.isInt = true → c ∈ sh.codes → inBits s.inp = c.2 ++ rest →
    ∃ t, microSteps .decodeSym c.2.length s = .next t ∧ inBits t.inp = rest ∧ t.result = BitVec.ofNat 32 c.1.val ∧
      t.status = s.status.completed ∧ t.inp.bitsIn = s.inp.bitsIn + BitVec.ofNat 32 c.2.length ∧ t.out = s.out ∧
      t.freq = s.freq ∧ t.tree = s.tree ∧ EngineKeeps s t

/-- 45_decode.md R280, R287; 30_encoding.md R155: `DECODE` inverts the encoded body. On a valid tree with its codes, the
body of any bytes that have codes gives back exactly those bytes and consumes exactly the body's bits. -/
def Obligations.DecodeInvertsTheBody : Prop :=
  ∀ (s : State) (bytes : List Byte) (rest : List Bool), s.eng.pp = .start → s.tree.valid = true → HoldsTree s.tree →
    (∀ b ∈ bytes, (codeAt s.tree b.toNat).valid = true) → inBits s.inp = bodyBits s.tree bytes ++ rest →
    s.out.tailZero → s.out.hasRoom s.params.outDepth (8 * bytes.length) →
    ∃ t, microSteps .decode ((bodyBits s.tree bytes).length + 8 * bytes.length) s = .next t ∧ inBits t.inp = rest ∧
      outBits t.out = outBits s.out ++ bytes.flatMap (bitsMsb 8) ∧ t.result = BitVec.ofNat 32 bytes.length ∧
      t.status = s.status.completed ∧ t.freq = s.freq ∧ t.tree = s.tree ∧ EngineKeeps s t

/-- 45_decode.md R280, R282, R285: the step of the walk that reaches the sentinel's leaf completes `DECODE` without output,
the one that reaches a leaf completes `DECODE_SYM`, and `EOD` inside a walk raises `TRUNCATED`. That the program point and
the work variables stay as they are at a command's end is the model's (log 23). -/
def Obligations.DecodeWalkEnds : Prop :=
  ∀ (s : State) (l r : NodeIx), s.tree.nodes.get s.eng.work.cur = .int l r →
    (∀ b c, readBit s.inp = .bit b c → s.eng.pp = .decWalk →
      s.tree.nodes.get (if b then r else l) = .leaf sentinel →
      ∃ t, exec .decode s = .next t ∧ t.status = s.status.completed ∧ t.result = s.eng.work.cnt ∧ t.inp = c ∧ t.out = s.out ∧
        t.freq = s.freq ∧ t.tree = s.tree ∧ EngineKeeps s t) ∧
    (∀ b c sym, readBit s.inp = .bit b c → s.eng.pp = .dsymWalk →
      s.tree.nodes.get (if b then r else l) = .leaf sym →
      ∃ t, exec .decodeSym s = .next t ∧ t.status = s.status.completed ∧ t.result.toNat = sym.val ∧ t.inp = c ∧
        t.out = s.out ∧ t.freq = s.freq ∧ t.tree = s.tree ∧ EngineKeeps s t) ∧
    (s.inp.exhausted →
      (s.eng.pp = .decWalk → exec .decode s = .next { s with status := s.status.failed .truncated }) ∧
      (s.eng.pp = .dsymWalk → exec .decodeSym s = .next { s with status := s.status.failed .truncated }))

/-- 30_encoding.md R152: in a tree memory that holds a tree with its code table, a walk from the root along the code of a
symbol that has one (left on 0, right on 1) ends at the leaf that carries it, and no such code is a prefix of the code of
another symbol. -/
def Obligations.CodesArePrefixFree : Prop :=
  ∀ t : TreeMem, HoldsTree t →
    (∀ y : Symbol, (codeAt t y.val).valid = true → walkPath t.nodes (codeAt t y.val).toBits t.root = some (.leaf y)) ∧
    ∀ y z : Symbol, (codeAt t y.val).valid = true → (codeAt t z.val).valid = true →
      (codeAt t y.val).toBits <+: (codeAt t z.val).toBits → y = z

/-! ### Bit I/O and the container -/

/-- 46_bitio.md R300, R308: where `OUT` has room, `PUT_BITS n` writes the low n bits of the latched `ARG` and
`MAGIC_WRITE` the 32 bits of `MAGIC`, most significant first, one bit a micro-step, and complete with RESULT unchanged. -/
def Obligations.PutBitsAndMagicWriteTheirField : Prop :=
  (∀ (s : State) (nm1 : BitVec 5), s.eng.pp = .start → s.out.tailZero → s.out.hasRoom s.params.outDepth (nm1.toNat + 1) →
    ∃ t, microSteps (.putBits nm1) (nm1.toNat + 1) s = .next t ∧
      outBits t.out = outBits s.out ++ bitsMsb (nm1.toNat + 1) s.eng.arg ∧
      t.out.bitsOut = s.out.bitsOut + BitVec.ofNat 32 (nm1.toNat + 1) ∧ t.result = s.result ∧
      t.status = s.status.completed ∧ t.inp = s.inp ∧ t.freq = s.freq ∧ t.tree = s.tree ∧ EngineKeeps s t) ∧
  (∀ s : State, s.eng.pp = .start → s.out.tailZero → s.out.hasRoom s.params.outDepth 32 →
    ∃ t, microSteps .magicWrite 32 s = .next t ∧ outBits t.out = outBits s.out ++ bitsMsb 32 s.params.magic ∧
      t.out.bitsOut = s.out.bitsOut + 32 ∧ t.result = s.result ∧
      t.status = s.status.completed ∧ t.inp = s.inp ∧ t.freq = s.freq ∧ t.tree = s.tree ∧ EngineKeeps s t)

/-- 43_tree_serial.md R240; 44_encode.md R264; 46_bitio.md R300, R308: the micro-step that writes the last bit completes
`PUT_BITS`, `MAGIC_WRITE`, `ENCODE_SYM` and, if it is the last leaf's, `SERIALIZE`. That the program point and the work
variables stay as they are at a command's end is the model's (log 23). -/
def Obligations.WritersCompleteAtTheirLastBit : Prop :=
  ∀ (s : State) (b : Bool) (o : OutChan), s.eng.work.wq = [b] → writeBit s.params.outDepth b s.out = some o →
    (∀ nm1, s.eng.pp = .putBit →
      exec (.putBits nm1) s = .next { s with
        out := o, eng := { s.eng with work := { s.eng.work with wq := [] } }, status := s.status.completed }) ∧
    (s.eng.pp = .magicOut →
      exec .magicWrite s = .next { s with
        out := o, eng := { s.eng with work := { s.eng.work with wq := [] } }, status := s.status.completed }) ∧
    (∀ sym, s.eng.pp = .encSym →
      exec (.encodeSym sym) s = .next { s with
        out := o, eng := { s.eng with work := { s.eng.work with wq := [] } }, status := s.status.completed
        result := (codeAt s.tree sym.toNat).len.setWidth 32 }) ∧
    (s.eng.pp = .serLeaf → s.eng.work.stk = [] →
      ∃ t, exec .serialize s = .next t ∧ t.out = o ∧ t.result = s.eng.work.nbits + 10 ∧ t.status = s.status.completed ∧
        t.inp = s.inp ∧ t.freq = s.freq ∧ t.tree = s.tree ∧ EngineKeeps s t)

/-- 46_bitio.md R302; 20_memory.md R102: `GET_BITS n` on n bits that are there reads them, most significant first, one bit a
micro-step, into the low n bits of RESULT, zeros above. -/
def Obligations.GetBitsReadsItsField : Prop :=
  ∀ (s : State) (nm1 : BitVec 5) (bits rest : List Bool), s.eng.pp = .start → inBits s.inp = bits ++ rest →
    bits.length = nm1.toNat + 1 →
    ∃ t, microSteps (.getBits nm1) (nm1.toNat + 1) s = .next t ∧ inBits t.inp = rest ∧
      bitsMsb (nm1.toNat + 1) t.result = bits ∧ (∀ j, nm1.toNat + 1 ≤ j → t.result.getLsbD j = false) ∧
      t.inp.bitsIn = s.inp.bitsIn + BitVec.ofNat 32 (nm1.toNat + 1) ∧
      t.status = s.status.completed ∧ t.out = s.out ∧ t.freq = s.freq ∧ t.tree = s.tree ∧ EngineKeeps s t

/-- 46_bitio.md R310: `MAGIC_CHECK` on 32 bits that are there reads them into RESULT, and completes if they are `MAGIC`, else
raises `BAD_MAGIC`; in both cases exactly 32 bits are consumed and nothing is written. -/
def Obligations.MagicCheckComparesThirtyTwoBits : Prop :=
  ∀ (s : State) (bits rest : List Bool), s.eng.pp = .start → inBits s.inp = bits ++ rest → bits.length = 32 →
    ∃ t, microSteps .magicCheck 32 s = .next t ∧ inBits t.inp = rest ∧ bitsMsb 32 t.result = bits ∧
      t.status = (if bits = bitsMsb 32 s.params.magic then s.status.completed else s.status.failed .badMagic) ∧
      t.out = s.out ∧ t.freq = s.freq ∧ t.tree = s.tree ∧ EngineKeeps s t

/-- 46_bitio.md R302, R310: the micro-step that reads the last bit completes `GET_BITS` and ends `MAGIC_CHECK`, and `EOD`
before it raises `TRUNCATED` with RESULT unchanged. That the program point and the work variables stay as they are at a
command's end is the model's (log 23). -/
def Obligations.FieldReadersEnd : Prop :=
  ∀ s : State,
    (∀ (nm1 : BitVec 5) (b : Bool) (c : InChan), s.eng.pp = .getBit → s.eng.work.rk = nm1.toNat → readBit s.inp = .bit b c →
      ∃ t, exec (.getBits nm1) s = .next t ∧ t.result = shiftIn s.eng.work.rv b ∧ t.status = s.status.completed ∧ t.inp = c ∧
        t.out = s.out ∧ t.freq = s.freq ∧ t.tree = s.tree ∧ EngineKeeps s t) ∧
    (∀ (b : Bool) (c : InChan), s.eng.pp = .magicIn → s.eng.work.rk = 31 → readBit s.inp = .bit b c →
      shiftIn s.eng.work.rv b = s.params.magic →
      ∃ t, exec .magicCheck s = .next t ∧ t.result = s.params.magic ∧ t.status = s.status.completed ∧ t.inp = c ∧
        t.out = s.out ∧ t.freq = s.freq ∧ t.tree = s.tree ∧ EngineKeeps s t) ∧
    (s.inp.exhausted → ∀ nm1,
      (s.eng.pp = .getBit → exec (.getBits nm1) s = .next { s with status := s.status.failed .truncated }) ∧
      (s.eng.pp = .magicIn → exec .magicCheck s = .next { s with status := s.status.failed .truncated }) ∧
      (s.eng.pp = .start → ∀ i, i = .getBits nm1 ∨ i = .magicCheck →
        ∃ t, exec i s = .next t ∧ t.status = s.status.failed .truncated ∧ t.result = s.result ∧ t.inp = s.inp ∧
          t.out = s.out ∧ t.freq = s.freq ∧ t.tree = s.tree ∧ EngineKeeps s t))

/-- 46_bitio.md R304, R306: `FLUSH` pads with zeros and completes with their number; `ALIGN_IN` discards the unread bits of
the current byte, uncounted, and completes with their number. That the program point and the work variables stay as they are
at a command's end is the model's (log 23). -/
def Obligations.FlushAndAlignComplete : Prop :=
  (∀ s : State, s.eng.pp = .start → s.out.tailZero → s.out.bwCnt.val = 0 ∨ s.out.fifo.length ≠ s.params.outDepth →
    ∃ t p, exec .flush s = .next t ∧ p = (8 - s.out.bwCnt.val) % 8 ∧ t.result = BitVec.ofNat 32 p ∧
      outBits t.out = outBits s.out ++ List.replicate p false ∧ t.out.bwCnt = 0 ∧ t.out.bitsOut = s.out.bitsOut ∧
      t.status = s.status.completed ∧ t.inp = s.inp ∧ t.freq = s.freq ∧ t.tree = s.tree ∧ EngineKeeps s t) ∧
  (∀ s : State, s.eng.pp = .start →
    exec .alignIn s = .next { s with
      inp := { s.inp with brCnt := 0 }, result := BitVec.ofNat 32 s.inp.brCnt.val, status := s.status.completed })

/-! ### Inspection -/

/-- 47_inspect.md R320, R322, R324; 30_encoding.md R157, R158: the inspection commands complete in one micro-step, write
RESULT as their rules pack it, and nothing else. That the code bit c_j stands in bit j of the table entry is the model's
(log 19). That the program point and the work variables stay as they are at a command's end is the model's (log 23). -/
def Obligations.InspectionCommandsPackTheirResult : Prop :=
  ∀ s : State, s.eng.pp = .start → s.tree.valid = true →
    (∀ node : BitVec 10, node.toNat ≤ 512 →
      ∃ v, exec (.nodeRead node) s = .next { s with result := v, status := s.status.completed } ∧
        (s.tree.count ≤ node → v = 0) ∧
        (∀ x : NodeIx, x.val = node.toNat → node < s.tree.count →
          (∀ sym, s.tree.nodes.get x = .leaf sym → v.toNat = 2 ^ 31 + sym.val) ∧
          (∀ l r, s.tree.nodes.get x = .int l r → v.toNat = 2 ^ 31 + 2 ^ 30 + 1024 * r.val + l.val))) ∧
    (∀ (sym : BitVec 10) (h : sym.toNat < 257),
      ∃ v, exec (.codeLenRead sym) s = .next { s with result := v, status := s.status.completed } ∧
        v.getLsbD 31 = (s.tree.codes[sym.toNat]'h).valid ∧ v.extractLsb' 0 9 = (s.tree.codes[sym.toNat]'h).len ∧
        v.extractLsb' 9 22 = 0#22) ∧
    (∀ (sym : BitVec 10) (h : sym.toNat < 257) (w : BitVec 5), w.toNat ≤ 7 →
      ∃ v, exec (.codeBitsRead sym w) s = .next { s with result := v, status := s.status.completed } ∧
        ∀ j, j < 32 → v.getLsbD (31 - j) =
          if 32 * w.toNat + j < (s.tree.codes[sym.toNat]'h).len.toNat
          then (s.tree.codes[sym.toNat]'h).bits.getLsbD (32 * w.toNat + j) else false)

/-! ### Frames and invariants over every command and every step -/

/-- 10_state.md R38, R49; 40_command_protocol.md R187: what no micro-step of any command writes. -/
def Obligations.EngineNeverWritesHostState : Prop :=
  ∀ (i : Instr) (s t : State), exec i s = .next t → EngineKeeps s t

/-- 30_encoding.md R143 (the column "channels"); 10_state.md R49, R50, R53; 41_frequency.md R200: which commands touch the
input channel, the output channel, the frequency table and the tree; every other command leaves them as they are. -/
def Obligations.CommandsTouchOnlyTheirParts : Prop :=
  ∀ (i : Instr) (s t : State), exec i s = .next t →
    ((∀ n, i ≠ .getBits n) → i ∉ [.freqCount, .deserialize, .encode, .decode, .decodeSym, .alignIn, .magicCheck] →
      t.inp = s.inp) ∧
    ((∀ n, i ≠ .putBits n) → (∀ y, i ≠ .encodeSym y) → i ∉ [.serialize, .encode, .decode, .flush, .magicWrite] →
      t.out = s.out) ∧
    ((∀ y, i ≠ .freqWrite y) → i ∉ [.freqClear, .freqCount] → t.freq = s.freq) ∧
    (i ∉ [.build, .deserialize] → t.tree = s.tree)

/-- 10_state.md R34, R53, R60; 40_command_protocol.md R184: the invariants of a run hold after reset. -/
def Obligations.InvariantHoldsAtReset : Prop :=
  (State.reset.Inv ∧ TreeInv State.reset) ∧ ∀ p : Params, ParamsInv p → (State.resetWith p).Inv ∧ TreeInv (State.resetWith p)

/-- 10_state.md R34, R56 to R58; 43_tree_serial.md R247: every step of either agent keeps the invariant of a run: legal
flags, FIFOs within their capacities, and an engine at a point of its command's pseudocode. -/
def Obligations.EveryStepKeepsTheInvariant : Prop :=
  ∀ s t : State, s.Inv → step s = .next t → t.Inv

/-- 10_state.md R53; 42_tree_build.md R223; 43_tree_serial.md R245: every step of either agent keeps the rule that
`TREE_VALID` is 1 only while the node memory holds a complete, checked tree with its code table. -/
def Obligations.EveryStepKeepsAValidTree : Prop :=
  ∀ s t : State, s.Inv → TreeInv s → step s = .next t → TreeInv t

/-- 40_command_protocol.md R184; 43_tree_serial.md R247; 20_memory.md R93, R95; 93_implementation_defined.md U10: from a state
of a run no step ends in a fault, and none is refused but a host access outside the window or, inside it, one that is not an
aligned word. (The two refusals are the model's, log 9.) -/
def Obligations.NoStepOfARunFaults : Prop :=
  ∀ s : State, s.Inv →
    (∀ f, step s ≠ .fault f) ∧
    (∀ r, step s = .refused r → ∃ a rest, s.sched = .host a :: rest ∧
      ((r = .outsideWindow ∧ (a.addr < s.params.base ∨ s.params.base + 0x40 ≤ a.addr)) ∨
        (r = .busError ∧ s.params.base ≤ a.addr ∧ a.addr < s.params.base + 0x40 ∧
          (a.bytes ≠ 4 ∨ (a.addr - s.params.base) % 4 ≠ 0))))
end

