-- ==== Sys2Proof/Laws/State.lean ====
section
/-! SUPPORT. Each named update of the state, field by field. -/

namespace Sys2Proof.Machine

variable (s : State)

@[simp] theorem State.setStatus_params (v : Status) : (s.setStatus v).params = s.params := rfl
@[simp] theorem State.setStatus_status (v : Status) : (s.setStatus v).status = v := rfl
@[simp] theorem State.setStatus_irqEn (v : Status) : (s.setStatus v).irqEn = s.irqEn := rfl
@[simp] theorem State.setStatus_arg (v : Status) : (s.setStatus v).arg = s.arg := rfl
@[simp] theorem State.setStatus_result (v : Status) : (s.setStatus v).result = s.result := rfl
@[simp] theorem State.setStatus_inp (v : Status) : (s.setStatus v).inp = s.inp := rfl
@[simp] theorem State.setStatus_out (v : Status) : (s.setStatus v).out = s.out := rfl
@[simp] theorem State.setStatus_freq (v : Status) : (s.setStatus v).freq = s.freq := rfl
@[simp] theorem State.setStatus_tree (v : Status) : (s.setStatus v).tree = s.tree := rfl
@[simp] theorem State.setStatus_eng (v : Status) : (s.setStatus v).eng = s.eng := rfl
@[simp] theorem State.setStatus_sched (v : Status) : (s.setStatus v).sched = s.sched := rfl
@[simp] theorem State.setStatus_reads (v : Status) : (s.setStatus v).reads = s.reads := rfl
@[simp] theorem State.setStatus_draws (v : Status) : (s.setStatus v).draws = s.draws := rfl

@[simp] theorem State.setIrqEn_params (v : IrqEn) : (s.setIrqEn v).params = s.params := rfl
@[simp] theorem State.setIrqEn_status (v : IrqEn) : (s.setIrqEn v).status = s.status := rfl
@[simp] theorem State.setIrqEn_irqEn (v : IrqEn) : (s.setIrqEn v).irqEn = v := rfl
@[simp] theorem State.setIrqEn_arg (v : IrqEn) : (s.setIrqEn v).arg = s.arg := rfl
@[simp] theorem State.setIrqEn_result (v : IrqEn) : (s.setIrqEn v).result = s.result := rfl
@[simp] theorem State.setIrqEn_inp (v : IrqEn) : (s.setIrqEn v).inp = s.inp := rfl
@[simp] theorem State.setIrqEn_out (v : IrqEn) : (s.setIrqEn v).out = s.out := rfl
@[simp] theorem State.setIrqEn_freq (v : IrqEn) : (s.setIrqEn v).freq = s.freq := rfl
@[simp] theorem State.setIrqEn_tree (v : IrqEn) : (s.setIrqEn v).tree = s.tree := rfl
@[simp] theorem State.setIrqEn_eng (v : IrqEn) : (s.setIrqEn v).eng = s.eng := rfl
@[simp] theorem State.setIrqEn_sched (v : IrqEn) : (s.setIrqEn v).sched = s.sched := rfl
@[simp] theorem State.setIrqEn_reads (v : IrqEn) : (s.setIrqEn v).reads = s.reads := rfl
@[simp] theorem State.setIrqEn_draws (v : IrqEn) : (s.setIrqEn v).draws = s.draws := rfl

@[simp] theorem State.setArg_params (v : Word) : (s.setArg v).params = s.params := rfl
@[simp] theorem State.setArg_status (v : Word) : (s.setArg v).status = s.status := rfl
@[simp] theorem State.setArg_irqEn (v : Word) : (s.setArg v).irqEn = s.irqEn := rfl
@[simp] theorem State.setArg_arg (v : Word) : (s.setArg v).arg = v := rfl
@[simp] theorem State.setArg_result (v : Word) : (s.setArg v).result = s.result := rfl
@[simp] theorem State.setArg_inp (v : Word) : (s.setArg v).inp = s.inp := rfl
@[simp] theorem State.setArg_out (v : Word) : (s.setArg v).out = s.out := rfl
@[simp] theorem State.setArg_freq (v : Word) : (s.setArg v).freq = s.freq := rfl
@[simp] theorem State.setArg_tree (v : Word) : (s.setArg v).tree = s.tree := rfl
@[simp] theorem State.setArg_eng (v : Word) : (s.setArg v).eng = s.eng := rfl
@[simp] theorem State.setArg_sched (v : Word) : (s.setArg v).sched = s.sched := rfl
@[simp] theorem State.setArg_reads (v : Word) : (s.setArg v).reads = s.reads := rfl
@[simp] theorem State.setArg_draws (v : Word) : (s.setArg v).draws = s.draws := rfl

@[simp] theorem State.setResult_params (v : Word) : (s.setResult v).params = s.params := rfl
@[simp] theorem State.setResult_status (v : Word) : (s.setResult v).status = s.status := rfl
@[simp] theorem State.setResult_irqEn (v : Word) : (s.setResult v).irqEn = s.irqEn := rfl
@[simp] theorem State.setResult_arg (v : Word) : (s.setResult v).arg = s.arg := rfl
@[simp] theorem State.setResult_result (v : Word) : (s.setResult v).result = v := rfl
@[simp] theorem State.setResult_inp (v : Word) : (s.setResult v).inp = s.inp := rfl
@[simp] theorem State.setResult_out (v : Word) : (s.setResult v).out = s.out := rfl
@[simp] theorem State.setResult_freq (v : Word) : (s.setResult v).freq = s.freq := rfl
@[simp] theorem State.setResult_tree (v : Word) : (s.setResult v).tree = s.tree := rfl
@[simp] theorem State.setResult_eng (v : Word) : (s.setResult v).eng = s.eng := rfl
@[simp] theorem State.setResult_sched (v : Word) : (s.setResult v).sched = s.sched := rfl
@[simp] theorem State.setResult_reads (v : Word) : (s.setResult v).reads = s.reads := rfl
@[simp] theorem State.setResult_draws (v : Word) : (s.setResult v).draws = s.draws := rfl

@[simp] theorem State.setInp_params (v : InChan) : (s.setInp v).params = s.params := rfl
@[simp] theorem State.setInp_status (v : InChan) : (s.setInp v).status = s.status := rfl
@[simp] theorem State.setInp_irqEn (v : InChan) : (s.setInp v).irqEn = s.irqEn := rfl
@[simp] theorem State.setInp_arg (v : InChan) : (s.setInp v).arg = s.arg := rfl
@[simp] theorem State.setInp_result (v : InChan) : (s.setInp v).result = s.result := rfl
@[simp] theorem State.setInp_inp (v : InChan) : (s.setInp v).inp = v := rfl
@[simp] theorem State.setInp_out (v : InChan) : (s.setInp v).out = s.out := rfl
@[simp] theorem State.setInp_freq (v : InChan) : (s.setInp v).freq = s.freq := rfl
@[simp] theorem State.setInp_tree (v : InChan) : (s.setInp v).tree = s.tree := rfl
@[simp] theorem State.setInp_eng (v : InChan) : (s.setInp v).eng = s.eng := rfl
@[simp] theorem State.setInp_sched (v : InChan) : (s.setInp v).sched = s.sched := rfl
@[simp] theorem State.setInp_reads (v : InChan) : (s.setInp v).reads = s.reads := rfl
@[simp] theorem State.setInp_draws (v : InChan) : (s.setInp v).draws = s.draws := rfl

@[simp] theorem State.setOut_params (v : OutChan) : (s.setOut v).params = s.params := rfl
@[simp] theorem State.setOut_status (v : OutChan) : (s.setOut v).status = s.status := rfl
@[simp] theorem State.setOut_irqEn (v : OutChan) : (s.setOut v).irqEn = s.irqEn := rfl
@[simp] theorem State.setOut_arg (v : OutChan) : (s.setOut v).arg = s.arg := rfl
@[simp] theorem State.setOut_result (v : OutChan) : (s.setOut v).result = s.result := rfl
@[simp] theorem State.setOut_inp (v : OutChan) : (s.setOut v).inp = s.inp := rfl
@[simp] theorem State.setOut_out (v : OutChan) : (s.setOut v).out = v := rfl
@[simp] theorem State.setOut_freq (v : OutChan) : (s.setOut v).freq = s.freq := rfl
@[simp] theorem State.setOut_tree (v : OutChan) : (s.setOut v).tree = s.tree := rfl
@[simp] theorem State.setOut_eng (v : OutChan) : (s.setOut v).eng = s.eng := rfl
@[simp] theorem State.setOut_sched (v : OutChan) : (s.setOut v).sched = s.sched := rfl
@[simp] theorem State.setOut_reads (v : OutChan) : (s.setOut v).reads = s.reads := rfl
@[simp] theorem State.setOut_draws (v : OutChan) : (s.setOut v).draws = s.draws := rfl

@[simp] theorem State.setFreq_params (v : Vector Word 256) : (s.setFreq v).params = s.params := rfl
@[simp] theorem State.setFreq_status (v : Vector Word 256) : (s.setFreq v).status = s.status := rfl
@[simp] theorem State.setFreq_irqEn (v : Vector Word 256) : (s.setFreq v).irqEn = s.irqEn := rfl
@[simp] theorem State.setFreq_arg (v : Vector Word 256) : (s.setFreq v).arg = s.arg := rfl
@[simp] theorem State.setFreq_result (v : Vector Word 256) : (s.setFreq v).result = s.result := rfl
@[simp] theorem State.setFreq_inp (v : Vector Word 256) : (s.setFreq v).inp = s.inp := rfl
@[simp] theorem State.setFreq_out (v : Vector Word 256) : (s.setFreq v).out = s.out := rfl
@[simp] theorem State.setFreq_freq (v : Vector Word 256) : (s.setFreq v).freq = v := rfl
@[simp] theorem State.setFreq_tree (v : Vector Word 256) : (s.setFreq v).tree = s.tree := rfl
@[simp] theorem State.setFreq_eng (v : Vector Word 256) : (s.setFreq v).eng = s.eng := rfl
@[simp] theorem State.setFreq_sched (v : Vector Word 256) : (s.setFreq v).sched = s.sched := rfl
@[simp] theorem State.setFreq_reads (v : Vector Word 256) : (s.setFreq v).reads = s.reads := rfl
@[simp] theorem State.setFreq_draws (v : Vector Word 256) : (s.setFreq v).draws = s.draws := rfl

@[simp] theorem State.setTree_params (v : TreeMem) : (s.setTree v).params = s.params := rfl
@[simp] theorem State.setTree_status (v : TreeMem) : (s.setTree v).status = s.status := rfl
@[simp] theorem State.setTree_irqEn (v : TreeMem) : (s.setTree v).irqEn = s.irqEn := rfl
@[simp] theorem State.setTree_arg (v : TreeMem) : (s.setTree v).arg = s.arg := rfl
@[simp] theorem State.setTree_result (v : TreeMem) : (s.setTree v).result = s.result := rfl
@[simp] theorem State.setTree_inp (v : TreeMem) : (s.setTree v).inp = s.inp := rfl
@[simp] theorem State.setTree_out (v : TreeMem) : (s.setTree v).out = s.out := rfl
@[simp] theorem State.setTree_freq (v : TreeMem) : (s.setTree v).freq = s.freq := rfl
@[simp] theorem State.setTree_tree (v : TreeMem) : (s.setTree v).tree = v := rfl
@[simp] theorem State.setTree_eng (v : TreeMem) : (s.setTree v).eng = s.eng := rfl
@[simp] theorem State.setTree_sched (v : TreeMem) : (s.setTree v).sched = s.sched := rfl
@[simp] theorem State.setTree_reads (v : TreeMem) : (s.setTree v).reads = s.reads := rfl
@[simp] theorem State.setTree_draws (v : TreeMem) : (s.setTree v).draws = s.draws := rfl

@[simp] theorem State.setEng_params (v : Engine) : (s.setEng v).params = s.params := rfl
@[simp] theorem State.setEng_status (v : Engine) : (s.setEng v).status = s.status := rfl
@[simp] theorem State.setEng_irqEn (v : Engine) : (s.setEng v).irqEn = s.irqEn := rfl
@[simp] theorem State.setEng_arg (v : Engine) : (s.setEng v).arg = s.arg := rfl
@[simp] theorem State.setEng_result (v : Engine) : (s.setEng v).result = s.result := rfl
@[simp] theorem State.setEng_inp (v : Engine) : (s.setEng v).inp = s.inp := rfl
@[simp] theorem State.setEng_out (v : Engine) : (s.setEng v).out = s.out := rfl
@[simp] theorem State.setEng_freq (v : Engine) : (s.setEng v).freq = s.freq := rfl
@[simp] theorem State.setEng_tree (v : Engine) : (s.setEng v).tree = s.tree := rfl
@[simp] theorem State.setEng_eng (v : Engine) : (s.setEng v).eng = v := rfl
@[simp] theorem State.setEng_sched (v : Engine) : (s.setEng v).sched = s.sched := rfl
@[simp] theorem State.setEng_reads (v : Engine) : (s.setEng v).reads = s.reads := rfl
@[simp] theorem State.setEng_draws (v : Engine) : (s.setEng v).draws = s.draws := rfl

@[simp] theorem State.setSched_params (v : List Move) : (s.setSched v).params = s.params := rfl
@[simp] theorem State.setSched_status (v : List Move) : (s.setSched v).status = s.status := rfl
@[simp] theorem State.setSched_irqEn (v : List Move) : (s.setSched v).irqEn = s.irqEn := rfl
@[simp] theorem State.setSched_arg (v : List Move) : (s.setSched v).arg = s.arg := rfl
@[simp] theorem State.setSched_result (v : List Move) : (s.setSched v).result = s.result := rfl
@[simp] theorem State.setSched_inp (v : List Move) : (s.setSched v).inp = s.inp := rfl
@[simp] theorem State.setSched_out (v : List Move) : (s.setSched v).out = s.out := rfl
@[simp] theorem State.setSched_freq (v : List Move) : (s.setSched v).freq = s.freq := rfl
@[simp] theorem State.setSched_tree (v : List Move) : (s.setSched v).tree = s.tree := rfl
@[simp] theorem State.setSched_eng (v : List Move) : (s.setSched v).eng = s.eng := rfl
@[simp] theorem State.setSched_sched (v : List Move) : (s.setSched v).sched = v := rfl
@[simp] theorem State.setSched_reads (v : List Move) : (s.setSched v).reads = s.reads := rfl
@[simp] theorem State.setSched_draws (v : List Move) : (s.setSched v).draws = s.draws := rfl

@[simp] theorem State.setReads_params (v : List Word) : (s.setReads v).params = s.params := rfl
@[simp] theorem State.setReads_status (v : List Word) : (s.setReads v).status = s.status := rfl
@[simp] theorem State.setReads_irqEn (v : List Word) : (s.setReads v).irqEn = s.irqEn := rfl
@[simp] theorem State.setReads_arg (v : List Word) : (s.setReads v).arg = s.arg := rfl
@[simp] theorem State.setReads_result (v : List Word) : (s.setReads v).result = s.result := rfl
@[simp] theorem State.setReads_inp (v : List Word) : (s.setReads v).inp = s.inp := rfl
@[simp] theorem State.setReads_out (v : List Word) : (s.setReads v).out = s.out := rfl
@[simp] theorem State.setReads_freq (v : List Word) : (s.setReads v).freq = s.freq := rfl
@[simp] theorem State.setReads_tree (v : List Word) : (s.setReads v).tree = s.tree := rfl
@[simp] theorem State.setReads_eng (v : List Word) : (s.setReads v).eng = s.eng := rfl
@[simp] theorem State.setReads_sched (v : List Word) : (s.setReads v).sched = s.sched := rfl
@[simp] theorem State.setReads_reads (v : List Word) : (s.setReads v).reads = v := rfl
@[simp] theorem State.setReads_draws (v : List Word) : (s.setReads v).draws = s.draws := rfl

@[simp] theorem State.setDraws_params (v : Nat) : (s.setDraws v).params = s.params := rfl
@[simp] theorem State.setDraws_status (v : Nat) : (s.setDraws v).status = s.status := rfl
@[simp] theorem State.setDraws_irqEn (v : Nat) : (s.setDraws v).irqEn = s.irqEn := rfl
@[simp] theorem State.setDraws_arg (v : Nat) : (s.setDraws v).arg = s.arg := rfl
@[simp] theorem State.setDraws_result (v : Nat) : (s.setDraws v).result = s.result := rfl
@[simp] theorem State.setDraws_inp (v : Nat) : (s.setDraws v).inp = s.inp := rfl
@[simp] theorem State.setDraws_out (v : Nat) : (s.setDraws v).out = s.out := rfl
@[simp] theorem State.setDraws_freq (v : Nat) : (s.setDraws v).freq = s.freq := rfl
@[simp] theorem State.setDraws_tree (v : Nat) : (s.setDraws v).tree = s.tree := rfl
@[simp] theorem State.setDraws_eng (v : Nat) : (s.setDraws v).eng = s.eng := rfl
@[simp] theorem State.setDraws_sched (v : Nat) : (s.setDraws v).sched = s.sched := rfl
@[simp] theorem State.setDraws_reads (v : Nat) : (s.setDraws v).reads = s.reads := rfl
@[simp] theorem State.setDraws_draws (v : Nat) : (s.setDraws v).draws = v := rfl

@[simp] theorem State.setWork_params (w : Work) : (s.setWork w).params = s.params := rfl
@[simp] theorem State.setWork_status (w : Work) : (s.setWork w).status = s.status := rfl
@[simp] theorem State.setWork_irqEn (w : Work) : (s.setWork w).irqEn = s.irqEn := rfl
@[simp] theorem State.setWork_arg (w : Work) : (s.setWork w).arg = s.arg := rfl
@[simp] theorem State.setWork_result (w : Work) : (s.setWork w).result = s.result := rfl
@[simp] theorem State.setWork_inp (w : Work) : (s.setWork w).inp = s.inp := rfl
@[simp] theorem State.setWork_out (w : Work) : (s.setWork w).out = s.out := rfl
@[simp] theorem State.setWork_freq (w : Work) : (s.setWork w).freq = s.freq := rfl
@[simp] theorem State.setWork_tree (w : Work) : (s.setWork w).tree = s.tree := rfl
@[simp] theorem State.setWork_eng (w : Work) : (s.setWork w).eng = { s.eng with work := w } := rfl
@[simp] theorem State.setWork_sched (w : Work) : (s.setWork w).sched = s.sched := rfl
@[simp] theorem State.setWork_reads (w : Work) : (s.setWork w).reads = s.reads := rfl
@[simp] theorem State.setWork_draws (w : Work) : (s.setWork w).draws = s.draws := rfl

@[simp] theorem State.setPp_params (p : ProgPoint) : (s.setPp p).params = s.params := rfl
@[simp] theorem State.setPp_status (p : ProgPoint) : (s.setPp p).status = s.status := rfl
@[simp] theorem State.setPp_irqEn (p : ProgPoint) : (s.setPp p).irqEn = s.irqEn := rfl
@[simp] theorem State.setPp_arg (p : ProgPoint) : (s.setPp p).arg = s.arg := rfl
@[simp] theorem State.setPp_result (p : ProgPoint) : (s.setPp p).result = s.result := rfl
@[simp] theorem State.setPp_inp (p : ProgPoint) : (s.setPp p).inp = s.inp := rfl
@[simp] theorem State.setPp_out (p : ProgPoint) : (s.setPp p).out = s.out := rfl
@[simp] theorem State.setPp_freq (p : ProgPoint) : (s.setPp p).freq = s.freq := rfl
@[simp] theorem State.setPp_tree (p : ProgPoint) : (s.setPp p).tree = s.tree := rfl
@[simp] theorem State.setPp_eng (p : ProgPoint) : (s.setPp p).eng = { s.eng with pp := p } := rfl
@[simp] theorem State.setPp_sched (p : ProgPoint) : (s.setPp p).sched = s.sched := rfl
@[simp] theorem State.setPp_reads (p : ProgPoint) : (s.setPp p).reads = s.reads := rfl
@[simp] theorem State.setPp_draws (p : ProgPoint) : (s.setPp p).draws = s.draws := rfl

@[simp] theorem raiseError_params (e : ErrCode) : (raiseError e s).params = s.params := rfl
@[simp] theorem raiseError_status (e : ErrCode) : (raiseError e s).status = { s.status with err := true, errcode := e, busy := false } := rfl
@[simp] theorem raiseError_irqEn (e : ErrCode) : (raiseError e s).irqEn = s.irqEn := rfl
@[simp] theorem raiseError_arg (e : ErrCode) : (raiseError e s).arg = s.arg := rfl
@[simp] theorem raiseError_result (e : ErrCode) : (raiseError e s).result = s.result := rfl
@[simp] theorem raiseError_inp (e : ErrCode) : (raiseError e s).inp = s.inp := rfl
@[simp] theorem raiseError_out (e : ErrCode) : (raiseError e s).out = s.out := rfl
@[simp] theorem raiseError_freq (e : ErrCode) : (raiseError e s).freq = s.freq := rfl
@[simp] theorem raiseError_tree (e : ErrCode) : (raiseError e s).tree = s.tree := rfl
@[simp] theorem raiseError_eng (e : ErrCode) : (raiseError e s).eng = s.eng := rfl
@[simp] theorem raiseError_sched (e : ErrCode) : (raiseError e s).sched = s.sched := rfl
@[simp] theorem raiseError_reads (e : ErrCode) : (raiseError e s).reads = s.reads := rfl
@[simp] theorem raiseError_draws (e : ErrCode) : (raiseError e s).draws = s.draws := rfl

@[simp] theorem acknowledge_params (v : Word) : (acknowledge v s).params = s.params := rfl
@[simp] theorem acknowledge_status (v : Word) : (acknowledge v s).status = s.status.writeOneToClear v := rfl
@[simp] theorem acknowledge_irqEn (v : Word) : (acknowledge v s).irqEn = s.irqEn := rfl
@[simp] theorem acknowledge_arg (v : Word) : (acknowledge v s).arg = s.arg := rfl
@[simp] theorem acknowledge_result (v : Word) : (acknowledge v s).result = s.result := rfl
@[simp] theorem acknowledge_inp (v : Word) : (acknowledge v s).inp = s.inp := rfl
@[simp] theorem acknowledge_out (v : Word) : (acknowledge v s).out = s.out := rfl
@[simp] theorem acknowledge_freq (v : Word) : (acknowledge v s).freq = s.freq := rfl
@[simp] theorem acknowledge_tree (v : Word) : (acknowledge v s).tree = s.tree := rfl
@[simp] theorem acknowledge_eng (v : Word) : (acknowledge v s).eng = s.eng := rfl
@[simp] theorem acknowledge_sched (v : Word) : (acknowledge v s).sched = s.sched := rfl
@[simp] theorem acknowledge_reads (v : Word) : (acknowledge v s).reads = s.reads := rfl
@[simp] theorem acknowledge_draws (v : Word) : (acknowledge v s).draws = s.draws := rfl

@[simp] theorem standRead_params (p : ProgPoint) : (standRead p s).params = s.params := rfl
@[simp] theorem standRead_status (p : ProgPoint) : (standRead p s).status = s.status := rfl
@[simp] theorem standRead_irqEn (p : ProgPoint) : (standRead p s).irqEn = s.irqEn := rfl
@[simp] theorem standRead_arg (p : ProgPoint) : (standRead p s).arg = s.arg := rfl
@[simp] theorem standRead_result (p : ProgPoint) : (standRead p s).result = s.result := rfl
@[simp] theorem standRead_inp (p : ProgPoint) : (standRead p s).inp = s.inp := rfl
@[simp] theorem standRead_out (p : ProgPoint) : (standRead p s).out = s.out := rfl
@[simp] theorem standRead_freq (p : ProgPoint) : (standRead p s).freq = s.freq := rfl
@[simp] theorem standRead_tree (p : ProgPoint) : (standRead p s).tree = s.tree := rfl
@[simp] theorem standRead_eng (p : ProgPoint) : (standRead p s).eng = { s.eng with pp := p, work := { s.eng.work with rk := 0, rv := 0 } } := rfl
@[simp] theorem standRead_sched (p : ProgPoint) : (standRead p s).sched = s.sched := rfl
@[simp] theorem standRead_reads (p : ProgPoint) : (standRead p s).reads = s.reads := rfl
@[simp] theorem standRead_draws (p : ProgPoint) : (standRead p s).draws = s.draws := rfl

@[simp] theorem standWrite_params (p : ProgPoint) (bs : List Bool) : (standWrite p bs s).params = s.params := rfl
@[simp] theorem standWrite_status (p : ProgPoint) (bs : List Bool) : (standWrite p bs s).status = s.status := rfl
@[simp] theorem standWrite_irqEn (p : ProgPoint) (bs : List Bool) : (standWrite p bs s).irqEn = s.irqEn := rfl
@[simp] theorem standWrite_arg (p : ProgPoint) (bs : List Bool) : (standWrite p bs s).arg = s.arg := rfl
@[simp] theorem standWrite_result (p : ProgPoint) (bs : List Bool) : (standWrite p bs s).result = s.result := rfl
@[simp] theorem standWrite_inp (p : ProgPoint) (bs : List Bool) : (standWrite p bs s).inp = s.inp := rfl
@[simp] theorem standWrite_out (p : ProgPoint) (bs : List Bool) : (standWrite p bs s).out = s.out := rfl
@[simp] theorem standWrite_freq (p : ProgPoint) (bs : List Bool) : (standWrite p bs s).freq = s.freq := rfl
@[simp] theorem standWrite_tree (p : ProgPoint) (bs : List Bool) : (standWrite p bs s).tree = s.tree := rfl
@[simp] theorem standWrite_eng (p : ProgPoint) (bs : List Bool) : (standWrite p bs s).eng = { s.eng with pp := p, work := { s.eng.work with wq := bs } } := rfl
@[simp] theorem standWrite_sched (p : ProgPoint) (bs : List Bool) : (standWrite p bs s).sched = s.sched := rfl
@[simp] theorem standWrite_reads (p : ProgPoint) (bs : List Bool) : (standWrite p bs s).reads = s.reads := rfl
@[simp] theorem standWrite_draws (p : ProgPoint) (bs : List Bool) : (standWrite p bs s).draws = s.draws := rfl

@[simp] theorem readBitsNext_params (b : Bool) : (readBitsNext b s).params = s.params := rfl
@[simp] theorem readBitsNext_status (b : Bool) : (readBitsNext b s).status = s.status := rfl
@[simp] theorem readBitsNext_irqEn (b : Bool) : (readBitsNext b s).irqEn = s.irqEn := rfl
@[simp] theorem readBitsNext_arg (b : Bool) : (readBitsNext b s).arg = s.arg := rfl
@[simp] theorem readBitsNext_result (b : Bool) : (readBitsNext b s).result = s.result := rfl
@[simp] theorem readBitsNext_inp (b : Bool) : (readBitsNext b s).inp = s.inp := rfl
@[simp] theorem readBitsNext_out (b : Bool) : (readBitsNext b s).out = s.out := rfl
@[simp] theorem readBitsNext_freq (b : Bool) : (readBitsNext b s).freq = s.freq := rfl
@[simp] theorem readBitsNext_tree (b : Bool) : (readBitsNext b s).tree = s.tree := rfl
@[simp] theorem readBitsNext_eng (b : Bool) : (readBitsNext b s).eng = { s.eng with work := { s.eng.work with rk := s.eng.work.rk + 1, rv := shiftIn s.eng.work.rv b } } := rfl
@[simp] theorem readBitsNext_sched (b : Bool) : (readBitsNext b s).sched = s.sched := rfl
@[simp] theorem readBitsNext_reads (b : Bool) : (readBitsNext b s).reads = s.reads := rfl
@[simp] theorem readBitsNext_draws (b : Bool) : (readBitsNext b s).draws = s.draws := rfl

@[simp] theorem writeNext_params (o : OutChan) (bs : List Bool) : (writeNext o bs s).params = s.params := rfl
@[simp] theorem writeNext_status (o : OutChan) (bs : List Bool) : (writeNext o bs s).status = s.status := rfl
@[simp] theorem writeNext_irqEn (o : OutChan) (bs : List Bool) : (writeNext o bs s).irqEn = s.irqEn := rfl
@[simp] theorem writeNext_arg (o : OutChan) (bs : List Bool) : (writeNext o bs s).arg = s.arg := rfl
@[simp] theorem writeNext_result (o : OutChan) (bs : List Bool) : (writeNext o bs s).result = s.result := rfl
@[simp] theorem writeNext_inp (o : OutChan) (bs : List Bool) : (writeNext o bs s).inp = s.inp := rfl
@[simp] theorem writeNext_out (o : OutChan) (bs : List Bool) : (writeNext o bs s).out = o := rfl
@[simp] theorem writeNext_freq (o : OutChan) (bs : List Bool) : (writeNext o bs s).freq = s.freq := rfl
@[simp] theorem writeNext_tree (o : OutChan) (bs : List Bool) : (writeNext o bs s).tree = s.tree := rfl
@[simp] theorem writeNext_eng (o : OutChan) (bs : List Bool) : (writeNext o bs s).eng = { s.eng with work := { s.eng.work with wq := bs } } := rfl
@[simp] theorem writeNext_sched (o : OutChan) (bs : List Bool) : (writeNext o bs s).sched = s.sched := rfl
@[simp] theorem writeNext_reads (o : OutChan) (bs : List Bool) : (writeNext o bs s).reads = s.reads := rfl
@[simp] theorem writeNext_draws (o : OutChan) (bs : List Bool) : (writeNext o bs s).draws = s.draws := rfl

@[simp] theorem acceptCommand_params (w : Word) : (acceptCommand w s).params = s.params := rfl
@[simp] theorem acceptCommand_status (w : Word) : (acceptCommand w s).status = { s.status with lastOp := opField w, done := false, busy := true } := rfl
@[simp] theorem acceptCommand_irqEn (w : Word) : (acceptCommand w s).irqEn = s.irqEn := rfl
@[simp] theorem acceptCommand_arg (w : Word) : (acceptCommand w s).arg = s.arg := rfl
@[simp] theorem acceptCommand_result (w : Word) : (acceptCommand w s).result = s.result := rfl
@[simp] theorem acceptCommand_inp (w : Word) : (acceptCommand w s).inp = s.inp := rfl
@[simp] theorem acceptCommand_out (w : Word) : (acceptCommand w s).out = s.out := rfl
@[simp] theorem acceptCommand_freq (w : Word) : (acceptCommand w s).freq = s.freq := rfl
@[simp] theorem acceptCommand_tree (w : Word) : (acceptCommand w s).tree = s.tree := rfl
@[simp] theorem acceptCommand_eng (w : Word) : (acceptCommand w s).eng = { s.eng with cmd := w, arg := s.arg, pp := .start } := rfl
@[simp] theorem acceptCommand_sched (w : Word) : (acceptCommand w s).sched = s.sched := rfl
@[simp] theorem acceptCommand_reads (w : Word) : (acceptCommand w s).reads = s.reads := rfl
@[simp] theorem acceptCommand_draws (w : Word) : (acceptCommand w s).draws = s.draws := rfl

@[simp] theorem complete_params (r : Option Word) : (complete r s).params = s.params := by cases r <;> rfl
@[simp] theorem complete_status (r : Option Word) : (complete r s).status = { s.status with done := true, busy := false } := by cases r <;> rfl
@[simp] theorem complete_irqEn (r : Option Word) : (complete r s).irqEn = s.irqEn := by cases r <;> rfl
@[simp] theorem complete_arg (r : Option Word) : (complete r s).arg = s.arg := by cases r <;> rfl
@[simp] theorem complete_result (r : Option Word) : (complete r s).result = r.getD s.result := by cases r <;> rfl
@[simp] theorem complete_inp (r : Option Word) : (complete r s).inp = s.inp := by cases r <;> rfl
@[simp] theorem complete_out (r : Option Word) : (complete r s).out = s.out := by cases r <;> rfl
@[simp] theorem complete_freq (r : Option Word) : (complete r s).freq = s.freq := by cases r <;> rfl
@[simp] theorem complete_tree (r : Option Word) : (complete r s).tree = s.tree := by cases r <;> rfl
@[simp] theorem complete_eng (r : Option Word) : (complete r s).eng = s.eng := by cases r <;> rfl
@[simp] theorem complete_sched (r : Option Word) : (complete r s).sched = s.sched := by cases r <;> rfl
@[simp] theorem complete_reads (r : Option Word) : (complete r s).reads = s.reads := by cases r <;> rfl
@[simp] theorem complete_draws (r : Option Word) : (complete r s).draws = s.draws := by cases r <;> rfl

end Sys2Proof.Machine
end

