-- ==== Sys2Proof/Laws/Ops.lean ====
section
/-! SUPPORT. What each shared operation can do, said once: the channel primitives over the streams of bits, the end of a
command, and the frame of a micro-step. -/

namespace Sys2Proof.Machine

/-! ### Reads of the memories after a write -/

theorem get_eq_getElem {α : Type} {n : Nat} (v : Vector α n) (k : Fin n) : v.get k = v[k.val]'k.isLt := rfl

theorem get_set_self {α : Type} {n : Nat} (v : Vector α n) (k : Fin n) (a : α) : (v.set k.val a k.isLt).get k = a := by
  simp [get_eq_getElem]

theorem get_set_ne {α : Type} {n : Nat} (v : Vector α n) {j k : Fin n} (h : k ≠ j) (a : α) :
    (v.set k.val a k.isLt).get j = v.get j := by
  have h' : k.val ≠ j.val := fun e => h (Fin.ext e)
  simp only [get_eq_getElem]
  exact Vector.getElem_set_ne _ _ h'

theorem get_set {α : Type} {n : Nat} (v : Vector α n) (j k : Fin n) (a : α) :
    (v.set k.val a k.isLt).get j = if k = j then a else v.get j := by
  split
  · rename_i h
    rw [← h, get_set_self]
  · rename_i h
    rw [get_set_ne v h]

theorem set_eq_setIfInBounds {α : Type} {n : Nat} (v : Vector α n) (k : Nat) (h : k < n) (a : α) :
    v.setIfInBounds k a = v.set k a h := by
  apply Vector.ext
  intro i hi
  simp [Vector.getElem_set, Vector.getElem_setIfInBounds]

theorem get_replicate {α : Type} {n : Nat} (a : α) (k : Fin n) : (Vector.replicate n a).get k = a := by
  simp [get_eq_getElem]

theorem getElem?_eq_get {α : Type} {n : Nat} (v : Vector α n) (k : Fin n) : v[k.val]? = some (v.get k) := by
  simp [get_eq_getElem]

theorem freqAt_eq_get (f : Vector Word 256) (k : Fin 256) : freqAt f k.val = f.get k := by
  unfold freqAt
  rw [getElem?_eq_get]
  rfl

theorem codeAt_eq_get (t : TreeMem) (k : Symbol) : codeAt t k.val = t.codes.get k := by
  unfold codeAt
  rw [getElem?_eq_get]
  rfl

/-! ### Bits, most significant first -/

theorem bitsMsb_zero {w : Nat} (v : BitVec w) : bitsMsb 0 v = [] := rfl

theorem bitsMsb_succ {w : Nat} (n : Nat) (v : BitVec w) : bitsMsb (n + 1) v = v.getLsbD n :: bitsMsb n v := by
  simp [bitsMsb, List.range_succ]

@[simp] theorem bitsMsb_length {w : Nat} (n : Nat) (v : BitVec w) : (bitsMsb n v).length = n := by
  simp [bitsMsb]

theorem bitsMsb_ne_nil {w : Nat} {n : Nat} (v : BitVec w) (h : 0 < n) : bitsMsb n v ≠ [] := by
  intro e
  have := congrArg List.length e
  simp at this
  omega

/-- The first `k` of the eight bits of a byte are its bits 7, 6, … -/
theorem take_bitsMsb (v : Byte) {k : Nat} (h : k ≤ 8) :
    (bitsMsb 8 v).take k = (List.range k).map fun j => v.getLsbD (7 - j) := by
  have e : bitsMsb 8 v = (List.range 8).map fun j => v.getLsbD (7 - j) := by
    simp [bitsMsb, List.range_succ]
  rw [e, ← List.map_take, List.take_range, Nat.min_eq_left h]

/-! ### ReadBit -/

/-- A bit read is the first unread bit, and it is counted. -/
theorem readBit_bit {c c' : InChan} {b : Bool} (h : readBit c = .bit b c') :
    inBits c = b :: inBits c' ∧ c'.bitsIn = c.bitsIn + 1 ∧ c'.ended = c.ended ∧
      c'.fifo.length ≤ c.fifo.length := by
  unfold readBit at h
  split at h
  case isTrue h0 =>
    split at h
    · rename_i x rest hf
      obtain ⟨rfl, rfl⟩ := ReadResult.bit.inj h
      have e : bitsMsb 8 x = x.getLsbD 7 :: bitsMsb 7 x := bitsMsb_succ 7 x
      refine ⟨?_, rfl, rfl, ?_⟩
      · simp [inBits, h0, hf, bitsMsb_zero, e]
      · simp [hf]
    · split at h <;> cases h
  case isFalse h0 =>
    obtain ⟨rfl, rfl⟩ := ReadResult.bit.inj h
    obtain ⟨k, hk⟩ := Nat.exists_eq_succ_of_ne_zero h0
    refine ⟨?_, rfl, rfl, le_rfl⟩
    simp [inBits, hk, bitsMsb_succ]

/-- `EOD` is returned exactly when the channel is exhausted. -/
theorem readBit_eod {c : InChan} : readBit c = .eod ↔ c.exhausted := by
  obtain ⟨fifo, ended, brByte, ⟨k, hk⟩, bitsIn⟩ := c
  rcases k with _ | k
  · cases fifo with
    | nil => cases ended <;> simp [readBit, InChan.exhausted, inBits, bitsMsb_zero]
    | cons x rest => simp [readBit, InChan.exhausted, inBits, bitsMsb_succ 7 x]
  · simp [readBit, InChan.exhausted, inBits, bitsMsb_succ]

/-- `ReadBit` blocks exactly when the channel is starved. -/
theorem readBit_block {c : InChan} : readBit c = .block ↔ c.starved := by
  obtain ⟨fifo, ended, brByte, ⟨k, hk⟩, bitsIn⟩ := c
  rcases k with _ | k
  · cases fifo with
    | nil => cases ended <;> simp [readBit, InChan.starved, inBits, bitsMsb_zero]
    | cons x rest => simp [readBit, InChan.starved, inBits, bitsMsb_succ 7 x]
  · simp [readBit, InChan.starved, inBits, bitsMsb_succ]

/-- Where a bit is unread, `ReadBit` returns it. -/
theorem readBit_of_inBits {c : InChan} {b : Bool} {bs : List Bool} (h : inBits c = b :: bs) :
    ∃ c', readBit c = .bit b c' ∧ inBits c' = bs := by
  cases hr : readBit c with
  | bit b' c' =>
    have := (readBit_bit hr).1
    rw [h] at this
    obtain ⟨rfl, rfl⟩ := List.cons.inj this
    exact ⟨c', rfl, rfl⟩
  | eod => exact absurd (readBit_eod.mp hr).1 (by simp [h])
  | block => exact absurd (readBit_block.mp hr).1 (by simp [h])

/-! ### WriteBit and FlushByte -/

/-- The byte `WriteBit` leaves: bit 7 - bw_cnt is `b`, the others are as before. -/
theorem getLsbD_placed (v : Byte) (b : Bool) {k : Nat} (hk : k < 8) (hz : v.getLsbD (7 - k) = false) (j : Nat) (hj : j < 8) :
    (v ||| ((BitVec.ofBool b).setWidth 8 <<< (7 - k))).getLsbD j = if j = 7 - k then b else v.getLsbD j := by
  rw [BitVec.getLsbD_or, BitVec.getLsbD_shiftLeft]
  by_cases e : j = 7 - k
  · subst e
    cases b <;> simp [hz]
    omega
  · rcases Nat.lt_or_ge j (7 - k) with h | h
    · simp [h, e]
    · have : j - (7 - k) ≠ 0 := by omega
      cases b <;> simp [e, BitVec.getLsbD_one, this]

/-- A bit written is appended to the stream and counted; the frame of the channel is kept. -/
theorem writeBit_some {depth : Nat} {b : Bool} {c c' : OutChan} (h : writeBit depth b c = some c') (ht : c.tailZero) :
    outBits c' = outBits c ++ [b] ∧ c'.bitsOut = c.bitsOut + 1 ∧ c'.tailZero := by
  have hc := c.bwCnt.isLt
  have hz : c.bwByte.getLsbD (7 - c.bwCnt.val) = false := ht _ (by omega)
  have hb := fun j hj => getLsbD_placed c.bwByte b hc hz j hj
  unfold writeBit at h
  split at h
  case isTrue h7 =>
    split at h
    · cases h
    · obtain rfl := (Option.some.inj h).symm
      refine ⟨?_, rfl, ?_⟩
      · have e8 : ∀ v : Byte, bitsMsb 8 v = (List.range 8).map fun j => v.getLsbD (7 - j) := fun v => by
          have := take_bitsMsb v (le_refl 8)
          rwa [List.take_of_length_le (by simp)] at this
        have hmap : (List.range 7).map (fun j => (c.bwByte ||| ((BitVec.ofBool b).setWidth 8 <<< (7 - c.bwCnt.val))).getLsbD (7 - j))
            = (List.range 7).map fun j => c.bwByte.getLsbD (7 - j) := by
          apply List.map_congr_left
          intro j hj
          rw [List.mem_range] at hj
          rw [hb _ (by omega), if_neg (by omega)]
        have h0 := hb (7 - 7) (by omega)
        rw [if_pos (by omega)] at h0
        have r8 : List.range 8 = List.range 7 ++ [7] := List.range_succ
        simp only [outBits, List.flatMap_append, List.flatMap_cons, List.flatMap_nil, List.append_nil]
        rw [take_bitsMsb _ (by omega), e8 (_ ||| _), r8, List.map_append, hmap, take_bitsMsb _ (by omega), h7]
        rw [h7] at h0
        rw [List.map_singleton, h0]
        simp
      · intro j hj
        simp
  case isFalse h7 =>
    obtain rfl := (Option.some.inj h).symm
    refine ⟨?_, rfl, ?_⟩
    · simp only [outBits]
      rw [take_bitsMsb _ (by omega), take_bitsMsb _ (by omega), List.append_assoc, List.range_succ, List.map_append]
      congr 2
      · apply List.map_congr_left
        intro j hj
        rw [List.mem_range] at hj
        rw [hb _ (by omega), if_neg (by omega)]
      · rw [List.map_singleton, hb _ (by omega), if_pos rfl]
    · intro j hj
      simp only at hj ⊢
      rw [hb _ (by omega), if_neg (by omega)]
      exact ht _ (by omega)

/-- `WriteBit` blocks exactly when it would complete a byte and `OUT` is full. -/
theorem writeBit_none {depth : Nat} {b : Bool} {c : OutChan} :
    writeBit depth b c = none ↔ c.bwCnt.val = 7 ∧ c.fifo.length = depth := by
  unfold writeBit
  split
  · split <;> simp_all
  · simp_all

/-- A `WriteBit` moves at most one byte into `OUT`, and only where there is room. -/
theorem writeBit_length {depth : Nat} {b : Bool} {c c' : OutChan} (h : writeBit depth b c = some c')
    (hl : c.fifo.length ≤ depth) : c'.fifo.length ≤ depth := by
  unfold writeBit at h
  split at h
  · split at h
    · cases h
    · obtain rfl := (Option.some.inj h).symm
      simp
      omega
  · obtain rfl := (Option.some.inj h).symm
    exact hl

/-- Room for k + 1 bits is a bit that can be written, and room for k after it. -/
theorem writeBit_room {depth : Nat} {c : OutChan} {k : Nat} (h : c.hasRoom depth (k + 1)) (b : Bool) :
    ∃ c', writeBit depth b c = some c' ∧ c'.hasRoom depth k := by
  have hc := c.bwCnt.isLt
  unfold OutChan.hasRoom at h
  unfold writeBit OutChan.hasRoom
  by_cases h7 : c.bwCnt.val = 7
  · have : c.fifo.length ≠ depth := by omega
    simp only [h7, dite_true, this, if_false]
    refine ⟨_, rfl, ?_⟩
    simp
    omega
  · simp only [h7, dite_false]
    refine ⟨_, rfl, ?_⟩
    simp
    omega

/-- `FlushByte` pads to a byte with zeros, uncounted. -/
theorem flushByte_some {depth p : Nat} {c c' : OutChan} (h : flushByte depth c = some (p, c')) (ht : c.tailZero)
    (hl : c.fifo.length ≤ depth) :
    outBits c' = outBits c ++ List.replicate p false ∧ c'.bitsOut = c.bitsOut ∧ c'.bwCnt = 0 ∧ c'.tailZero ∧
      c'.fifo.length ≤ depth := by
  have hc := c.bwCnt.isLt
  unfold flushByte at h
  split at h
  case isTrue h0 =>
    obtain ⟨rfl, rfl⟩ := Prod.mk.inj (Option.some.inj h)
    exact ⟨by simp, rfl, Fin.ext h0, ht, hl⟩
  case isFalse h0 =>
    split at h
    · cases h
    · obtain ⟨rfl, rfl⟩ := Prod.mk.inj (Option.some.inj h)
      refine ⟨?_, rfl, rfl, fun _ _ => by simp, ?_⟩
      · simp only [outBits, List.flatMap_append, List.flatMap_cons, List.flatMap_nil, List.append_nil]
        have : bitsMsb 8 c.bwByte = (bitsMsb 8 c.bwByte).take c.bwCnt.val ++ List.replicate (8 - c.bwCnt.val) false := by
          conv_lhs => rw [← List.take_append_drop c.bwCnt.val (bitsMsb 8 c.bwByte)]
          congr 1
          apply List.ext_getElem (by simp)
          intro i h1 h2
          simp [bitsMsb]
          simp at h1
          exact ht _ (by omega)
        conv_lhs => rw [this]
        simp
      · simp
        omega

end Sys2Proof.Machine
end

