-- ==== Sys2Proof/Laws/Micro.lean ====
section
/-! SUPPORT. What a micro-step can do, said once: postconditions of flows and micro-steps, and the inversion of
`runCommand`, of the engine's step and of the machine's step. -/

namespace Sys2Proof.Machine

/-- Every state the flow leads to has `P`; `B` is what a broken flow must give. -/
def Flow.Post (B : Prop) (P : State → Prop) : Flow → Prop
  | .atPrimitive s => P s
  | .ended s => P s
  | .broken _ => B

/-- The state a micro-step leads to, if it is enabled, has `P`; `B` is what a broken one must give. -/
def Micro.Post (B : Prop) (P : State → Prop) : Micro → Prop
  | .ran s => P s
  | .blocked => True
  | .broken _ => B

@[simp] theorem Flow.post_atPrimitive (B : Prop) (P : State → Prop) (s : State) : (Flow.atPrimitive s).Post B P = P s := rfl
@[simp] theorem Flow.post_ended (B : Prop) (P : State → Prop) (s : State) : (Flow.ended s).Post B P = P s := rfl
@[simp] theorem Flow.post_broken (B : Prop) (P : State → Prop) (f : Fault) : (Flow.broken f).Post B P = B := rfl
@[simp] theorem Micro.post_ran (B : Prop) (P : State → Prop) (s : State) : (Micro.ran s).Post B P = P s := rfl
@[simp] theorem Micro.post_blocked (B : Prop) (P : State → Prop) : Micro.blocked.Post B P = True := rfl
@[simp] theorem Micro.post_broken (B : Prop) (P : State → Prop) (f : Fault) : (Micro.broken f).Post B P = B := rfl

@[simp] theorem Flow.post_toMicro {B : Prop} {P : State → Prop} (f : Flow) : f.toMicro.Post B P ↔ f.Post B P := by
  cases f <;> rfl

@[simp] theorem post_finish (B : Prop) (P : State → Prop) (r : Option Word) (s : State) :
    (finish r s).Post B P = P (complete r s) := rfl
@[simp] theorem post_fail (B : Prop) (P : State → Prop) (e : ErrCode) (s : State) :
    (fail e s).Post B P = P (raiseError e s) := rfl
@[simp] theorem post_beginReadBits (B : Prop) (P : State → Prop) (p : ProgPoint) (s : State) :
    (beginReadBits p s).Post B P = P (standRead p s) := rfl

theorem Flow.Post.mono {B : Prop} {P Q : State → Prop} {f : Flow} (h : f.Post B P) (i : ∀ s, P s → Q s) : f.Post B Q := by
  cases f
  · exact i _ h
  · exact i _ h
  · exact h

/-- The outcome of a step: a fault needs `B`, a refusal never comes from a command. -/
def OutcomePost (B : Prop) (P : State → Prop) : Host.Outcome State Fault Refusal → Prop
  | .next s => P s
  | .fault _ => B
  | .refused _ => False

@[simp] theorem outcomePost_next (B : Prop) (P : State → Prop) (s : State) : OutcomePost B P (.next s) = P s := rfl
@[simp] theorem outcomePost_fault (B : Prop) (P : State → Prop) (f : Fault) : OutcomePost B P (.fault f) = B := rfl

theorem Micro.post_outcome {B : Prop} {P : State → Prop} {m : Micro} {s : State} (h : m.Post B P) (hs : P s) :
    OutcomePost B P (m.outcome s) := by
  cases m
  · exact h
  · exact hs
  · exact h

/-- What a write of no bits, or of some, leads to. -/
theorem post_beginWrite {B : Prop} {P : State → Prop} {p : ProgPoint} {bits : List Bool} {k : State → Flow} {s : State}
    (h0 : bits = [] → (k s).Post B P) (h1 : bits ≠ [] → P (standWrite p bits s)) :
    (beginWrite p bits k s).Post B P := by
  cases bits with
  | nil => exact h0 rfl
  | cons b bs => exact h1 (by simp)

theorem post_performRead {B : Prop} {P : State → Prop} {onBit : Bool → State → Flow} {onEod : State → Flow} {s : State}
    (hb : ∀ b c, readBit s.inp = .bit b c → (onBit b (s.setInp c)).Post B P)
    (he : readBit s.inp = .eod → (onEod s).Post B P) : (performRead onBit onEod s).Post B P := by
  unfold performRead
  split
  · rename_i b c h
    simpa using hb b c h
  · rename_i h
    simpa using he h
  · trivial

theorem post_performReadBits {B : Prop} {P : State → Prop} {n : Nat} {done : Word → State → Flow} {eod : Nat → State → Flow}
    {s : State}
    (hd : ∀ b c, readBit s.inp = .bit b c → s.eng.work.rk + 1 = n →
      (done (shiftIn s.eng.work.rv b) (readBitsNext b (s.setInp c))).Post B P)
    (hm : ∀ b c, readBit s.inp = .bit b c → s.eng.work.rk + 1 ≠ n → P (readBitsNext b (s.setInp c)))
    (he : readBit s.inp = .eod → (eod s.eng.work.rk s).Post B P) : (performReadBits n done eod s).Post B P := by
  unfold performReadBits
  apply post_performRead
  · intro b c h
    by_cases hn : s.eng.work.rk + 1 = n
    · simpa [hn] using hd b c h hn
    · simpa [hn] using hm b c h hn
  · exact he

theorem post_performWrite {B : Prop} {P : State → Prop} {k : State → Flow} {s : State}
    (h0 : s.eng.work.wq = [] → B)
    (h1 : ∀ b o, s.eng.work.wq = [b] → writeBit s.params.outDepth b s.out = some o → (k (writeNext o [] s)).Post B P)
    (h2 : ∀ b rest o, s.eng.work.wq = b :: rest → rest ≠ [] → writeBit s.params.outDepth b s.out = some o →
      P (writeNext o rest s)) : (performWrite k s).Post B P := by
  unfold performWrite
  split
  · rename_i h
    exact h0 h
  · rename_i b rest h
    split
    · trivial
    · rename_i o ho
      cases rest with
      | nil => simpa using h1 b o h ho
      | cons c cs => exact h2 b (c :: cs) o h (by simp) ho

/-- What a flow and the micro-step that goes on from it give. -/
def Flow.Then (B : Prop) (P : State → Prop) (perform : State → Micro) : Flow → Prop
  | .ended s => P s
  | .broken _ => B
  | .atPrimitive s => (perform s).Post B P

@[simp] theorem Flow.then_ended (B : Prop) (P : State → Prop) (p : State → Micro) (s : State) :
    (Flow.ended s).Then B P p = P s := rfl
@[simp] theorem Flow.then_broken (B : Prop) (P : State → Prop) (p : State → Micro) (f : Fault) :
    (Flow.broken f).Then B P p = B := rfl
@[simp] theorem Flow.then_atPrimitive (B : Prop) (P : State → Prop) (p : State → Micro) (s : State) :
    (Flow.atPrimitive s).Then B P p = (p s).Post B P := rfl
@[simp] theorem then_finish (B : Prop) (P : State → Prop) (p : State → Micro) (r : Option Word) (s : State) :
    (finish r s).Then B P p = P (complete r s) := rfl
@[simp] theorem then_fail (B : Prop) (P : State → Prop) (p : State → Micro) (e : ErrCode) (s : State) :
    (fail e s).Then B P p = P (raiseError e s) := rfl
@[simp] theorem then_beginReadBits (B : Prop) (P : State → Prop) (q : State → Micro) (p : ProgPoint) (s : State) :
    (beginReadBits p s).Then B P q = (q (standRead p s)).Post B P := rfl

/-- A micro-step, by the cases of 40_command_protocol.md R183 and R184. -/
theorem post_runCommand {B : Prop} {P : State → Prop} {inRange needsTree : Bool} {enter : State → Flow}
    {perform : State → Micro} {s : State} (hs : P s)
    (hr : s.eng.pp = .start → P (raiseError .badArg s)) (hn : s.eng.pp = .start → P (raiseError .noTree s))
    (he : s.eng.pp = .start → inRange = true → (needsTree = true → s.tree.valid = true) → (enter s).Then B P perform)
    (hp : s.eng.pp ≠ .start → (perform s).Post B P) :
    OutcomePost B P (runCommand inRange needsTree enter perform s) := by
  unfold runCommand
  by_cases hpp : s.eng.pp = .start
  · rw [if_pos hpp]
    split
    · exact hr hpp
    · rename_i hin
      split
      · exact hn hpp
      · rename_i htree
        have h := he hpp (by simpa using hin) (by simpa using htree)
        split <;> rename_i f
        · rw [f] at h; exact h
        · rw [f] at h; exact h
        · rw [f] at h; exact Micro.post_outcome h hs
  · rw [if_neg hpp]
    exact Micro.post_outcome (hp hpp) hs

end Sys2Proof.Machine
end

