-- ==== Sys2Proof/Laws/Runs.lean ====
section
/-! SUPPORT. Runs of one command: reading a field bit by bit, writing a list of bits, and the first micro-step. -/

namespace Sys2Proof.Machine

theorem microSteps_succ {i : Instr} {n : Nat} {s t : State} (h : exec i s = .next t) :
    microSteps i (n + 1) s = microSteps i n t := by
  simp [microSteps, h]

theorem microSteps_add {i : Instr} {m n : Nat} {s t : State} (h : microSteps i m s = .next t) :
    microSteps i (m + n) s = microSteps i n t := by
  induction m generalizing s with
  | zero =>
    obtain rfl := Host.Outcome.next.inj h
    rw [Nat.zero_add]
  | succ m ih =>
    rw [Nat.succ_add]
    cases he : exec i s with
    | next u => rw [microSteps_succ he] at h ⊢; exact ih h
    | fault f => simp [microSteps, he] at h
    | refused r => simp [microSteps, he] at h

/-- One more bit is one more in the 32-bit counters. -/
theorem ofNat_succ_count (n : Nat) (c : Word) : c + BitVec.ofNat 32 (n + 1) = c + 1 + BitVec.ofNat 32 n := by
  rw [BitVec.ofNat_add, BitVec.add_comm (BitVec.ofNat 32 n), ← BitVec.add_assoc]
  rfl

/-- The first micro-step of a command that passes its checks and stands at a primitive is the micro-step of the state in
which it stands there. -/
theorem runCommand_start {inRange needsTree : Bool} {enter : State → Flow} {perform : State → Micro} {s s' : State}
    (hpp : s.eng.pp = .start) (hr : inRange = true) (ht : needsTree = true → s.tree.valid = true)
    (he : enter s = .atPrimitive s') :
    runCommand inRange needsTree enter perform s = (perform s').outcome s := by
  unfold runCommand
  rw [if_pos hpp, hr, he]
  cases needsTree <;> simp_all

/-- A command whose pseudocode ends without a primitive. -/
theorem runCommand_pure {inRange needsTree : Bool} {enter : State → Flow} {perform : State → Micro} {s s' : State}
    (hpp : s.eng.pp = .start) (hr : inRange = true) (ht : needsTree = true → s.tree.valid = true)
    (he : enter s = .ended s') : runCommand inRange needsTree enter perform s = .next s' := by
  unfold runCommand
  rw [if_pos hpp, hr, he]
  cases needsTree <;> simp_all

theorem runCommand_later {inRange needsTree : Bool} {enter : State → Flow} {perform : State → Micro} {s : State}
    (hpp : s.eng.pp ≠ .start) : runCommand inRange needsTree enter perform s = (perform s).outcome s := by
  unfold runCommand
  rw [if_neg hpp]

/-- The outcome of a micro-step that is enabled does not depend on the state it would have stayed in. -/
theorem Micro.outcome_eq {m : Micro} (h : m ≠ .blocked) (s s' : State) : m.outcome s = m.outcome s' := by
  cases m <;> simp_all [Micro.outcome]

theorem Flow.toMicro_ne_blocked (f : Flow) : f.toMicro ≠ .blocked := by
  cases f <;> simp [Flow.toMicro]

/-! ### Writing -/

/-- A bit that can be written, where more follow. -/
theorem performWrite_more {k : State → Flow} {s : State} {b c : Bool} {cs : List Bool} {o : OutChan}
    (hq : s.eng.work.wq = b :: c :: cs) (ho : writeBit s.params.outDepth b s.out = some o) :
    performWrite k s = .ran (writeNext o (c :: cs) s) := by
  simp [performWrite, hq, ho]

/-- The last bit. -/
theorem performWrite_last {k : State → Flow} {s : State} {b : Bool} {o : OutChan}
    (hq : s.eng.work.wq = [b]) (ho : writeBit s.params.outDepth b s.out = some o) :
    performWrite k s = (k (writeNext o [] s)).toMicro := by
  simp [performWrite, hq, ho]

/-- Writing a list of bits, where there is room for all of them and `m` more: one micro-step for each, and after the last one `k` goes
on. -/
theorem microSteps_write {i : Instr} {k : State → Flow} {p : ProgPoint}
    (hexec : ∀ s, s.eng.pp = p → exec i s = (performWrite k s).outcome s) (m : Nat) :
    ∀ (bits : List Bool) (s : State), s.eng.pp = p → s.eng.work.wq = bits → bits ≠ [] →
      s.out.hasRoom s.params.outDepth (bits.length + m) → s.out.tailZero →
      ∃ o : OutChan, outBits o = outBits s.out ++ bits ∧ o.tailZero ∧ o.hasRoom s.params.outDepth m ∧
        o.bitsOut = s.out.bitsOut + BitVec.ofNat 32 bits.length ∧
        ∀ t, (k (writeNext o [] s)).toMicro = .ran t → microSteps i bits.length s = .next t
  | [], _, _, _, hne, _, _ => absurd rfl hne
  | [b], s, hp, hq, _, hr, hz => by
    obtain ⟨o, ho, hroom⟩ := writeBit_room (k := m) (by simpa [Nat.add_comm] using hr) b
    obtain ⟨h1, h2, h3⟩ := writeBit_some ho hz
    refine ⟨o, h1, h3, hroom, h2, ?_⟩
    intro t ht
    rw [show [b].length = 0 + 1 from rfl, microSteps_succ (t := t)]
    · rfl
    · rw [hexec s hp, performWrite_last hq ho, ht]
      rfl
  | b :: c :: cs, s, hp, hq, _, hr, hz => by
    obtain ⟨o, ho, hroom⟩ := writeBit_room (k := (c :: cs).length + m) (by simpa [Nat.add_right_comm] using hr) b
    obtain ⟨h1, h2, h3⟩ := writeBit_some ho hz
    obtain ⟨o', g1, g2, g3, g4, g5⟩ := microSteps_write hexec m (c :: cs) (writeNext o (c :: cs) s) hp rfl (by simp) hroom h3
    refine ⟨o', ?_, g2, g3, ?_, ?_⟩
    · rw [g1]
      simp [h1]
    · rw [g4]
      rw [List.length_cons (a := b), ofNat_succ_count, writeNext_out, h2]
    · intro t ht
      have := g5 t ht
      rw [show (b :: c :: cs).length = (c :: cs).length + 1 from rfl, microSteps_succ (t := writeNext o (c :: cs) s)]
      · exact this
      · rw [hexec s hp, performWrite_more hq ho]
        rfl

/-! ### Reading -/

theorem wordOfBits_append (bs : List Bool) (b : Bool) : wordOfBits (bs ++ [b]) = shiftIn (wordOfBits bs) b := by
  simp [wordOfBits]

/-- Reading the rest of a field of `n` bits, where its bits are all there: one micro-step for each, and after the last one
`done` goes on with the value. -/
theorem microSteps_read {i : Instr} {n : Nat} {done : Word → State → Flow} {eod : Nat → State → Flow} {p : ProgPoint}
    (hexec : ∀ s, s.eng.pp = p → exec i s = (performReadBits n done eod s).outcome s) :
    ∀ (bits rest : List Bool) (s : State), s.eng.pp = p → inBits s.inp = bits ++ rest → bits ≠ [] →
      s.eng.work.rk + bits.length = n →
      ∃ c : InChan, inBits c = rest ∧ c.ended = s.inp.ended ∧ c.bitsIn = s.inp.bitsIn + BitVec.ofNat 32 bits.length ∧
        ∃ s' : State, s' = (s.setInp c).setWork { s.eng.work with rk := n, rv := bits.foldl shiftIn s.eng.work.rv } ∧
        ∀ t, (done (bits.foldl shiftIn s.eng.work.rv) s').toMicro = .ran t → microSteps i bits.length s = .next t
  | [], _, _, _, _, hne, _ => absurd rfl hne
  | [b], rest, s, hp, hb, _, hn => by
    obtain ⟨c, hc, hr⟩ := readBit_of_inBits hb
    obtain ⟨-, h2, h3, -⟩ := readBit_bit hc
    refine ⟨c, hr, h3, h2, _, rfl, ?_⟩
    intro t ht
    rw [show [b].length = 0 + 1 from rfl, microSteps_succ (t := t)]
    · rfl
    · rw [hexec s hp]
      have hn' : s.eng.work.rk + 1 = n := hn
      unfold performReadBits performRead
      simp only [hc, State.setInp_eng, hn', if_true]
      rw [show readBitsNext b (s.setInp c) =
        (s.setInp c).setWork { s.eng.work with rk := n, rv := [b].foldl shiftIn s.eng.work.rv } from by
          simp [readBitsNext, hn']]
      rw [show shiftIn s.eng.work.rv b = [b].foldl shiftIn s.eng.work.rv from rfl, ht]
      rfl
  | b :: b' :: bs, rest, s, hp, hb, _, hn => by
    obtain ⟨c, hc, hr⟩ := readBit_of_inBits hb
    obtain ⟨-, h2, h3, -⟩ := readBit_bit hc
    have hn' : s.eng.work.rk + 1 ≠ n := by simp at hn; omega
    obtain ⟨c', g1, g2, g3, s', g4, g5⟩ := microSteps_read hexec (b' :: bs) rest (readBitsNext b (s.setInp c)) hp hr (by simp)
      (by simp at hn ⊢; omega)
    refine ⟨c', g1, g2.trans h3, ?_, s', ?_, ?_⟩
    · rw [g3]
      rw [List.length_cons (a := b), ofNat_succ_count, readBitsNext_inp, State.setInp_inp, h2]
    · rw [g4]
      rfl
    · intro t ht
      have := g5 t ht
      rw [show (b :: b' :: bs).length = (b' :: bs).length + 1 from rfl, microSteps_succ (t := readBitsNext b (s.setInp c))]
      · exact this
      · rw [hexec s hp]
        unfold performReadBits performRead
        simp only [hc, State.setInp_eng, hn', if_false]
        rfl

/-! ### Values read -/

theorem not_starved {c : InChan} {bits rest : List Bool} (h : inBits c = bits ++ rest) (hb : bits ≠ []) : ¬ c.starved := by
  rintro ⟨h1, -⟩
  rw [h] at h1
  exact hb (List.append_eq_nil_iff.mp h1).1

theorem shiftIn_zero (v : Word) (b : Bool) : (shiftIn v b).getLsbD 0 = b := by
  unfold shiftIn
  cases b <;> simp

theorem shiftIn_succ (v : Word) (b : Bool) (k : Nat) (h : k + 1 < 32) :
    (shiftIn v b).getLsbD (k + 1) = v.getLsbD k := by
  unfold shiftIn
  simp
  intro
  omega

theorem bitsMsb_shiftIn (n : Nat) (v : Word) (b : Bool) (h : n < 32) :
    bitsMsb (n + 1) (shiftIn v b) = bitsMsb n v ++ [b] := by
  unfold bitsMsb
  rw [List.range_succ_eq_map]
  simp only [List.reverse_cons, List.map_append, List.map_cons, List.map_nil, shiftIn_zero, List.map_reverse, List.map_map]
  congr 2
  apply List.map_congr_left
  intro k hk
  rw [List.mem_range] at hk
  exact shiftIn_succ _ _ _ (by omega)

/-- The value read has the bits read, most significant first (20_memory.md R102). -/
theorem bitsMsb_wordOfBits (bits : List Bool) (h : bits.length ≤ 32) : bitsMsb bits.length (wordOfBits bits) = bits := by
  induction bits using List.reverseRecOn with
  | nil => rfl
  | append_singleton bs b ih =>
    simp only [List.length_append, List.length_cons, List.length_nil, Nat.zero_add] at h ⊢
    rw [wordOfBits_append, bitsMsb_shiftIn _ _ _ (by omega), ih (by omega)]

/-- The bits above those read are 0. -/
theorem wordOfBits_high (bits : List Bool) (h : bits.length ≤ 32) :
    ∀ j, bits.length ≤ j → (wordOfBits bits).getLsbD j = false := by
  induction bits using List.reverseRecOn with
  | nil => simp [wordOfBits]
  | append_singleton bs b ih =>
    intro j hj
    simp only [List.length_append, List.length_cons, List.length_nil, Nat.zero_add] at h hj
    rw [wordOfBits_append]
    rcases Nat.lt_or_ge j 32 with h' | h'
    · obtain ⟨k, rfl⟩ : ∃ k, j = k + 1 := ⟨j - 1, by omega⟩
      rw [shiftIn_succ _ _ _ h']
      exact ih (by omega) _ (by omega)
    · exact BitVec.getLsbD_of_ge _ _ h'

/-- Two values with the same `n` bits agree below `n`. -/
theorem getLsbD_of_bitsMsb {w w' n : Nat} {v : BitVec w} {v' : BitVec w'} (h : bitsMsb n v = bitsMsb n v') {j : Nat}
    (hj : j < n) : v.getLsbD j = v'.getLsbD j := by
  induction n with
  | zero => omega
  | succ n ih =>
    rw [bitsMsb_succ, bitsMsb_succ] at h
    obtain ⟨h1, h2⟩ := List.cons.inj h
    rcases Nat.lt_succ_iff_lt_or_eq.mp hj with hj | rfl
    · exact ih h2 hj
    · exact h1

theorem word_ext_bitsMsb {v v' : Word} (h : bitsMsb 32 v = bitsMsb 32 v') : v = v' :=
  BitVec.eq_of_getLsbD_eq fun _ hj => getLsbD_of_bitsMsb h hj

/-- Reading the `n` bits of a value gives it back. -/
theorem wordOfBits_bitsMsb {w : Nat} (n : Nat) (v : BitVec w) (h : n ≤ 32) (hw : w ≤ n) :
    wordOfBits (bitsMsb n v) = v.setWidth 32 := by
  have hl : (bitsMsb n v).length = n := bitsMsb_length n v
  have h1 := bitsMsb_wordOfBits (bitsMsb n v) (by omega)
  rw [hl] at h1
  apply BitVec.eq_of_getLsbD_eq
  intro j hj
  rw [BitVec.getLsbD_setWidth]
  by_cases hjn : j < n
  · rw [getLsbD_of_bitsMsb h1 hjn]
    simp [hj]
  · rw [wordOfBits_high _ (by omega) j (by omega), BitVec.getLsbD_of_ge v j (by omega)]
    simp

theorem CodeEntry.toBits_length (e : CodeEntry) : e.toBits.length = e.len.toNat := by
  simp [CodeEntry.toBits]

end Sys2Proof.Machine
end

