-- ==== Sys2Proof/Laws/Exec.lean ====
section
/-! SUPPORT. The meaning of every command as a `runCommand`, and the primitive performed at each of its program points. -/

namespace Sys2Proof.Machine

/-- Every command is a `runCommand` with its own range check and its own need of a tree (40_command_protocol.md R183). -/
theorem exec_runCommand (i : Instr) :
    ∃ enter perform, ∀ s, exec i s = runCommand i.inRange (needsTree i) enter perform s := by
  cases i <;>
    dsimp only [exec, needsTree, execNop, execFreqClear, execFreqWrite, execFreqRead, execFreqCount, execBuild,
      execSerialize, execDeserialize, execEncode, execEncodeSym, execDecode, execDecodeSym, execPutBits, execGetBits,
      execFlush, execAlignIn, execMagicWrite, execMagicCheck, execNodeRead, execCodeLenRead, execCodeBitsRead] <;>
    exact ⟨_, _, fun _ => rfl⟩

theorem exec_freqCount_freqByte (s : State) (h : s.eng.pp = .freqByte) :
    exec .freqCount s = (performReadBits 8 countByte countEnd s).outcome s := by
  simp [exec, execFreqCount, runCommand_later, h]

theorem exec_serialize_serInt (s : State) (h : s.eng.pp = .serInt) :
    exec .serialize s = (performWrite serializeInt s).outcome s := by
  simp [exec, execSerialize, runCommand_later, h]

theorem exec_serialize_serLeaf (s : State) (h : s.eng.pp = .serLeaf) :
    exec .serialize s = (performWrite serializeLeaf s).outcome s := by
  simp [exec, execSerialize, runCommand_later, h]

theorem exec_deserialize_desMark (s : State) (h : s.eng.pp = .desMark) :
    exec .deserialize s = (performRead deserializeMark (fail .truncated) s).outcome s := by
  simp [exec, execDeserialize, runCommand_later, h]

theorem exec_deserialize_desSym (s : State) (h : s.eng.pp = .desSym) :
    exec .deserialize s = (performReadBits 9 deserializeSymbol (fun _ => fail .truncated) s).outcome s := by
  simp [exec, execDeserialize, runCommand_later, h]

theorem exec_encode_encByte (s : State) (h : s.eng.pp = .encByte) :
    exec .encode s = (performReadBits 8 encodeByte encodeEod s).outcome s := by
  simp [exec, execEncode, runCommand_later, h]

theorem exec_encode_encCode (s : State) (h : s.eng.pp = .encCode) :
    exec .encode s = (performWrite encodeNext s).outcome s := by
  simp [exec, execEncode, runCommand_later, h]

theorem exec_encode_encEnd (s : State) (h : s.eng.pp = .encEnd) :
    exec .encode s = (performWrite encodeDone s).outcome s := by
  simp [exec, execEncode, runCommand_later, h]

theorem exec_encodeSym_encSym (sym : BitVec 10) (s : State) (h : s.eng.pp = .encSym) :
    exec (.encodeSym sym) s = (performWrite (encodeSymDone sym) s).outcome s := by
  simp [exec, execEncodeSym, runCommand_later, h]

theorem exec_decode_decWalk (s : State) (h : s.eng.pp = .decWalk) :
    exec .decode s = (performRead (walkBit .decWalk decodeSymbol) (fail .truncated) s).outcome s := by
  simp [exec, execDecode, runCommand_later, h]

theorem exec_decode_decByte (s : State) (h : s.eng.pp = .decByte) :
    exec .decode s = (performWrite decodeNext s).outcome s := by
  simp [exec, execDecode, runCommand_later, h]

theorem exec_decodeSym_dsymWalk (s : State) (h : s.eng.pp = .dsymWalk) :
    exec .decodeSym s = (performRead (walkBit .dsymWalk decodeSymDone) (fail .truncated) s).outcome s := by
  simp [exec, execDecodeSym, runCommand_later, h]

theorem exec_putBits_putBit (nm1 : BitVec 5) (s : State) (h : s.eng.pp = .putBit) :
    exec (.putBits nm1) s = (performWrite (finish none) s).outcome s := by
  simp [exec, execPutBits, runCommand_later, h]

theorem exec_getBits_getBit (nm1 : BitVec 5) (s : State) (h : s.eng.pp = .getBit) :
    exec (.getBits nm1) s = (performReadBits (bitCount nm1) (fun v => finish (some v)) (fun _ => fail .truncated) s).outcome s := by
  simp [exec, execGetBits, runCommand_later, h]

theorem exec_flush_flushByte (s : State) (h : s.eng.pp = .flushByte) :
    exec .flush s = (performFlush s).outcome s := by
  simp [exec, execFlush, runCommand_later, h]

theorem exec_magicWrite_magicOut (s : State) (h : s.eng.pp = .magicOut) :
    exec .magicWrite s = (performWrite (finish none) s).outcome s := by
  simp [exec, execMagicWrite, runCommand_later, h]

theorem exec_magicCheck_magicIn (s : State) (h : s.eng.pp = .magicIn) :
    exec .magicCheck s = (performReadBits 32 magicCompare (fun _ => fail .truncated) s).outcome s := by
  simp [exec, execMagicCheck, runCommand_later, h]

/-! ### The first micro-step -/

/-- The first micro-step of a command and the one from the state in which it stands at its first primitive lead to the same
run, where that primitive does not block. -/
theorem microSteps_start {i : Instr} {n : Nat} {s s' : State} {m : Micro} (h : exec i s = m.outcome s)
    (h' : exec i s' = m.outcome s') (hm : m ≠ .blocked) : microSteps i (n + 1) s = microSteps i (n + 1) s' := by
  unfold microSteps
  rw [h, h', Micro.outcome_eq hm s s']

theorem performRead_ne_blocked {onBit : Bool → State → Flow} {onEod : State → Flow} {s : State}
    (h : ¬ s.inp.starved) : performRead onBit onEod s ≠ .blocked := by
  unfold performRead
  split
  · exact Flow.toMicro_ne_blocked _
  · exact Flow.toMicro_ne_blocked _
  · rename_i hb
    exact absurd (readBit_block.mp hb) h

theorem performReadBits_ne_blocked {n : Nat} {done : Word → State → Flow} {eod : Nat → State → Flow} {s : State}
    (h : ¬ s.inp.starved) : performReadBits n done eod s ≠ .blocked := performRead_ne_blocked h

theorem performWrite_ne_blocked {k : State → Flow} {s : State} (h : s.out.hasRoom s.params.outDepth 1) :
    performWrite k s ≠ .blocked := by
  unfold performWrite
  split
  · simp
  · rename_i b rest hq
    obtain ⟨o, ho, -⟩ := writeBit_room (k := 0) h b
    rw [ho]
    cases rest with
    | nil => exact Flow.toMicro_ne_blocked _
    | cons _ _ => simp

theorem exec_freqCount_start (s : State) (h : s.eng.pp = .start) :
    exec .freqCount s =
      (performReadBits 8 countByte countEnd (standRead .freqByte (s.setWork { s.eng.work with cnt := 0 }))).outcome s := by
  change execFreqCount s = _
  unfold execFreqCount
  rw [runCommand_start (s' := standRead .freqByte (s.setWork { s.eng.work with cnt := 0 })) h (show Instr.freqCount.inRange = true from rfl) (by simp)]
  · rfl
  · rfl

theorem exec_encode_start (s : State) (h : s.eng.pp = .start) (ht : s.tree.valid = true) :
    exec .encode s =
      (performReadBits 8 encodeByte encodeEod (standRead .encByte (s.setWork { s.eng.work with cnt := 0 }))).outcome s := by
  change execEncode s = _
  unfold execEncode
  rw [runCommand_start (s' := standRead .encByte (s.setWork { s.eng.work with cnt := 0 })) h (show Instr.encode.inRange = true from rfl) (fun _ => ht)]
  · rfl
  · rfl

theorem exec_getBits_start (nm1 : BitVec 5) (s : State) (h : s.eng.pp = .start) :
    exec (.getBits nm1) s =
      (performReadBits (bitCount nm1) (fun v => finish (some v)) (fun _ => fail .truncated) (standRead .getBit s)).outcome s := by
  change execGetBits nm1 s = _
  unfold execGetBits
  rw [runCommand_start (s' := standRead .getBit s) h (show (Instr.getBits nm1).inRange = true from rfl) (by simp)]
  · rfl
  · rfl

theorem exec_magicCheck_start (s : State) (h : s.eng.pp = .start) :
    exec .magicCheck s =
      (performReadBits 32 magicCompare (fun _ => fail .truncated) (standRead .magicIn s)).outcome s := by
  change execMagicCheck s = _
  unfold execMagicCheck
  rw [runCommand_start (s' := standRead .magicIn s) h (show Instr.magicCheck.inRange = true from rfl) (by simp)]
  · rfl
  · rfl

theorem beginWrite_some {p : ProgPoint} {bits : List Bool} {k : State → Flow} {s : State} (h : bits ≠ []) :
    beginWrite p bits k s = .atPrimitive (standWrite p bits s) := by
  cases bits with
  | nil => exact absurd rfl h
  | cons b bs => rfl

theorem exec_putBits_start (nm1 : BitVec 5) (s : State) (h : s.eng.pp = .start) :
    exec (.putBits nm1) s =
      (performWrite (finish none) (standWrite .putBit (bitsMsb (bitCount nm1) s.eng.arg) s)).outcome s := by
  change execPutBits nm1 s = _
  unfold execPutBits
  rw [runCommand_start (s' := standWrite .putBit (bitsMsb (bitCount nm1) s.eng.arg) s) h (show (Instr.putBits nm1).inRange = true from rfl) (by simp)]
  · rfl
  · exact beginWrite_some (bitsMsb_ne_nil _ (Nat.succ_pos _))

theorem exec_magicWrite_start (s : State) (h : s.eng.pp = .start) :
    exec .magicWrite s =
      (performWrite (finish none) (standWrite .magicOut (bitsMsb 32 s.params.magic) s)).outcome s := by
  change execMagicWrite s = _
  unfold execMagicWrite
  rw [runCommand_start (s' := standWrite .magicOut (bitsMsb 32 s.params.magic) s) h (show Instr.magicWrite.inRange = true from rfl) (by simp)]
  · rfl
  · exact beginWrite_some (bitsMsb_ne_nil _ (by omega))

theorem exec_encodeSym_start (sym : BitVec 10) (s : State) (h : s.eng.pp = .start) (hs : sym.toNat < 257)
    (ht : s.tree.valid = true) (hv : (codeAt s.tree sym.toNat).valid = true) (hb : (codeAt s.tree sym.toNat).toBits ≠ []) :
    exec (.encodeSym sym) s =
      (performWrite (encodeSymDone sym) (standWrite .encSym (codeAt s.tree sym.toNat).toBits s)).outcome s := by
  have hr : (Instr.encodeSym sym).inRange = true := decide_eq_true (Nat.le_of_lt_succ hs)
  change execEncodeSym sym s = _
  unfold execEncodeSym
  rw [runCommand_start (s' := standWrite .encSym (codeAt s.tree sym.toNat).toBits s) h hr (fun _ => ht)]
  · rfl
  · simp only [hv, if_true]
    exact beginWrite_some hb

theorem exec_encodeSym_noCode (sym : BitVec 10) (s : State) (h : s.eng.pp = .start) (hs : sym.toNat < 257)
    (ht : s.tree.valid = true) (hv : (codeAt s.tree sym.toNat).valid = false) :
    exec (.encodeSym sym) s = .next (raiseError .noCode s) := by
  have hr : (Instr.encodeSym sym).inRange = true := decide_eq_true (Nat.le_of_lt_succ hs)
  change execEncodeSym sym s = _
  unfold execEncodeSym
  apply runCommand_pure h hr (fun _ => ht)
  simp [hv, fail]

/-- `BUILD` is one micro-step (42_tree_build.md R220). -/
theorem exec_build_start (s : State) (h : s.eng.pp = .start) :
    exec .build s =
      .next (complete (some (BitVec.ofNat 32 (buildTree s.freq s.tree).2)) (s.setTree (buildTree s.freq s.tree).1)) := by
  change execBuild s = _
  unfold execBuild
  rw [runCommand_pure (s' := complete (some (BitVec.ofNat 32 (buildTree s.freq s.tree).2))
    (s.setTree (buildTree s.freq s.tree).1)) h (show Instr.build.inRange = true from rfl) (by simp)]
  generalize buildTree s.freq s.tree = b
  rfl

theorem exec_flush_start (s : State) (h : s.eng.pp = .start) :
    exec .flush s = (performFlush (s.setPp .flushByte)).outcome s := by
  change execFlush s = _
  unfold execFlush
  rw [runCommand_start (s' := s.setPp .flushByte) h (show Instr.flush.inRange = true from rfl) (by simp)]
  · rfl
  · rfl

theorem walkLoop_int {p : ProgPoint} {k : Symbol → State → Flow} {s : State} {l r : NodeIx}
    (h : s.tree.nodes.get s.eng.work.cur = .int l r) : walkLoop p k s = .atPrimitive (s.setPp p) := by
  simp [walkLoop, h]

theorem walkLoop_leaf {p : ProgPoint} {k : Symbol → State → Flow} {s : State} {sym : Symbol}
    (h : s.tree.nodes.get s.eng.work.cur = .leaf sym) : walkLoop p k s = k sym s := by
  simp [walkLoop, h]

theorem exec_decode_start (s : State) (h : s.eng.pp = .start) (ht : s.tree.valid = true) {l r : NodeIx}
    (hn : s.tree.nodes.get s.tree.root = .int l r) :
    exec .decode s =
      (performRead (walkBit .decWalk decodeSymbol) (fail .truncated)
        ((s.setWork { s.eng.work with cnt := 0, cur := s.tree.root }).setPp .decWalk)).outcome s := by
  change execDecode s = _
  unfold execDecode
  rw [runCommand_start (s' := (s.setWork { s.eng.work with cnt := 0, cur := s.tree.root }).setPp .decWalk) h (show Instr.decode.inRange = true from rfl) (fun _ => ht)]
  · rfl
  · exact walkLoop_int hn

theorem exec_decodeSym_start (s : State) (h : s.eng.pp = .start) (ht : s.tree.valid = true) {l r : NodeIx}
    (hn : s.tree.nodes.get s.tree.root = .int l r) :
    exec .decodeSym s =
      (performRead (walkBit .dsymWalk decodeSymDone) (fail .truncated)
        ((s.setWork { s.eng.work with cur := s.tree.root }).setPp .dsymWalk)).outcome s := by
  change execDecodeSym s = _
  unfold execDecodeSym
  rw [runCommand_start (s' := (s.setWork { s.eng.work with cur := s.tree.root }).setPp .dsymWalk) h (show Instr.decodeSym.inRange = true from rfl) (fun _ => ht)]
  · rfl
  · exact walkLoop_int hn

/-- What `SERIALIZE` stands at for a node: the marker of an internal node, or the ten bits of a leaf. -/
theorem serializeLoop_cons {s : State} {e : StkEntry} {rest : List StkEntry} (h : s.eng.work.stk = e :: rest) :
    serializeLoop s = .atPrimitive
      (match s.tree.nodes.get e.ix with
        | .int _ _ => standWrite .serInt [true] (s.setWork { s.eng.work with stk := rest, x := e.ix })
        | .leaf sym => standWrite .serLeaf (false :: bitsMsb 9 (BitVec.ofNat 9 sym.val))
            (s.setWork { s.eng.work with stk := rest, x := e.ix })) := by
  unfold serializeLoop
  simp only [h]
  cases hn : s.tree.nodes.get e.ix <;> simp [beginWrite]

theorem serializeLoop_nil {s : State} (h : s.eng.work.stk = []) :
    serializeLoop s = finish (some s.eng.work.nbits) s := by
  unfold serializeLoop
  simp [h]

/-- `SERIALIZE` in its first micro-step, in the state `s'` in which it stands at the root's first bit. -/
theorem exec_serialize_start (s s' : State) (h : s.eng.pp = .start) (ht : s.tree.valid = true)
    (he : serializeLoop (s.setWork { s.eng.work with stk := [nodeEntry s.tree.root], nbits := 0 }) = .atPrimitive s') :
    exec .serialize s =
      (match s'.eng.pp with
        | .serInt => performWrite serializeInt s'
        | .serLeaf => performWrite serializeLeaf s'
        | _ => .broken .strayProgramPoint).outcome s := by
  change execSerialize s = _
  unfold execSerialize
  exact (runCommand_start (s' := s') h (show Instr.serialize.inRange = true from rfl) (fun _ => ht) he).trans rfl

/-- The state in which `DESERIALIZE` stands at the root's marker. -/
def deserializeFirst (s : State) : State :=
  ((s.setTree { s.tree with valid := false }).setWork
    { s.eng.work with
      nn := 1, ni := 0, nl := 0, nbits := 0, seen := .replicate 257 false, stk := [], x := 0 }).setPp .desMark

theorem exec_deserialize_start (s : State) (h : s.eng.pp = .start) :
    exec .deserialize s = (performRead deserializeMark (fail .truncated) (deserializeFirst s)).outcome s := by
  change execDeserialize s = _
  unfold execDeserialize
  rw [runCommand_start (s' := deserializeFirst s) h (show Instr.deserialize.inRange = true from rfl) (by simp)]
  · rfl
  · rfl


end Sys2Proof.Machine
end

