-- ==== Sys2Proof/Laws/Keeps.lean ====
section
/-! SUPPORT. What no micro-step writes (`EngineKeeps`) is kept by every update that the commands are made of. -/

namespace Sys2Proof.Machine

theorem EngineKeeps.refl (s : State) : EngineKeeps s s := by
  constructor <;> rfl

theorem EngineKeeps.trans {s t u : State} (h : EngineKeeps s t) (g : EngineKeeps t u) : EngineKeeps s u := by
  obtain ⟨h1, h2, h3, h4, h5, h6, h7, h8, h9, h10, h11⟩ := h
  obtain ⟨g1, g2, g3, g4, g5, g6, g7, g8, g9, g10, g11⟩ := g
  exact ⟨g1.trans h1, g2.trans h2, g3.trans h3, g4.trans h4, g5.trans h5, g6.trans h6, g7.trans h7, g8.trans h8,
    g9.trans h9, g10.trans h10, g11.trans h11⟩

variable {s u : State}

theorem EngineKeeps.raiseError (h : EngineKeeps s u) (e : ErrCode) : EngineKeeps s (raiseError e u) := by
  refine h.trans ?_
  constructor <;> rfl

theorem EngineKeeps.complete (h : EngineKeeps s u) (r : Option Word) : EngineKeeps s (complete r u) := by
  refine h.trans ?_
  constructor <;> simp

theorem EngineKeeps.setWork (h : EngineKeeps s u) (w : Work) : EngineKeeps s (u.setWork w) := by
  refine h.trans ?_
  constructor <;> rfl

theorem EngineKeeps.setPp (h : EngineKeeps s u) (p : ProgPoint) : EngineKeeps s (u.setPp p) := by
  refine h.trans ?_
  constructor <;> rfl

theorem EngineKeeps.setInp (h : EngineKeeps s u) (c : InChan) : EngineKeeps s (u.setInp c) := by
  refine h.trans ?_
  constructor <;> rfl

theorem EngineKeeps.setOut (h : EngineKeeps s u) (o : OutChan) : EngineKeeps s (u.setOut o) := by
  refine h.trans ?_
  constructor <;> rfl

theorem EngineKeeps.setTree (h : EngineKeeps s u) (x : TreeMem) : EngineKeeps s (u.setTree x) := by
  refine h.trans ?_
  constructor <;> rfl

theorem EngineKeeps.setFreq (h : EngineKeeps s u) (f : Vector Word 256) : EngineKeeps s (u.setFreq f) := by
  refine h.trans ?_
  constructor <;> rfl

theorem EngineKeeps.setResult (h : EngineKeeps s u) (v : Word) : EngineKeeps s (u.setResult v) := by
  refine h.trans ?_
  constructor <;> rfl

theorem EngineKeeps.standRead (h : EngineKeeps s u) (p : ProgPoint) : EngineKeeps s (standRead p u) := by
  refine h.trans ?_
  constructor <;> rfl

theorem EngineKeeps.standWrite (h : EngineKeeps s u) (p : ProgPoint) (bs : List Bool) : EngineKeeps s (standWrite p bs u) := by
  refine h.trans ?_
  constructor <;> rfl

theorem EngineKeeps.readBitsNext (h : EngineKeeps s u) (b : Bool) : EngineKeeps s (readBitsNext b u) := by
  refine h.trans ?_
  constructor <;> rfl

theorem EngineKeeps.writeNext (h : EngineKeeps s u) (o : OutChan) (bs : List Bool) : EngineKeeps s (writeNext o bs u) := by
  refine h.trans ?_
  constructor <;> rfl

end Sys2Proof.Machine
end

