-- ==== Sys2Proof/Laws/Tree.lean ====
section
/-! SUPPORT. Trees and their codes: the code table of a tree, and the walks from its root. -/

namespace Sys2Proof.Machine

/-! ### Trees -/

theorem Shape.symbols_ne_nil (sh : Shape) : sh.symbols ≠ [] := by
  induction sh with
  | leaf x sym => simp [Shape.symbols]
  | int x l r hl hr => simp [Shape.symbols, hl]

theorem Shape.codes_map_fst (sh : Shape) : sh.codes.map Prod.fst = sh.symbols := by
  induction sh with
  | leaf x sym => rfl
  | int x l r hl hr =>
    rw [Shape.symbols, ← hl, ← hr]
    simp [Shape.codes, Function.comp_def]

/-- A symbol has a leaf exactly when it has a code. -/
theorem Shape.mem_symbols {sh : Shape} {sym : Symbol} : sym ∈ sh.symbols ↔ ∃ c ∈ sh.codes, c.1 = sym := by
  rw [← sh.codes_map_fst, List.mem_map]

/-- A full binary tree has one node fewer than twice its leaves (42_tree_build.md R223). -/
theorem Shape.indices_length (sh : Shape) : sh.indices.length + 1 = 2 * sh.symbols.length := by
  induction sh with
  | leaf x sym => rfl
  | int x l r hl hr =>
    simp [Shape.indices, Shape.symbols]
    omega

/-- 30_encoding.md R150, R151: the serialized tree has 11L - 1 bits. -/
theorem Shape.ser_length (sh : Shape) : sh.ser.length + 1 = 11 * sh.symbols.length := by
  induction sh with
  | leaf x sym => simp [Shape.ser, Shape.symbols]
  | int x l r hl hr =>
    simp [Shape.ser, Shape.symbols]
    omega

/-- A code is shorter than the number of leaves (42_tree_build.md R223). -/
theorem Shape.code_length (sh : Shape) : ∀ c ∈ sh.codes, c.2.length + 1 ≤ sh.symbols.length := by
  induction sh with
  | leaf x sym => simp [Shape.codes, Shape.symbols]
  | int x l r hl hr =>
    have h1 := List.length_pos_of_ne_nil l.symbols_ne_nil
    have h2 := List.length_pos_of_ne_nil r.symbols_ne_nil
    intro c hc
    simp only [Shape.codes, List.mem_append, List.mem_map] at hc
    simp only [Shape.symbols, List.length_append]
    rcases hc with ⟨d, hd, rfl⟩ | ⟨d, hd, rfl⟩
    · have := hl d hd
      simp only [List.length_cons]
      omega
    · have := hr d hd
      simp only [List.length_cons]
      omega

/-- The code of a leaf below an internal node is not empty. -/
theorem Shape.code_ne_nil {sh : Shape} (h : sh.isInt = true) : ∀ c ∈ sh.codes, c.2 ≠ [] := by
  cases sh with
  | leaf x sym => cases h
  | int x l r =>
    intro c hc
    simp only [Shape.codes, List.mem_append, List.mem_map] at hc
    rcases hc with ⟨d, hd, rfl⟩ | ⟨d, hd, rfl⟩ <;> simp

/-- The node at the root of a tree that the node memory holds. -/
theorem Shape.fits_root {nodes : Vector Node 513} {sh : Shape} (h : sh.fits nodes) :
    nodes.get sh.root = match sh with
      | .leaf _ sym => .leaf sym
      | .int _ l r => .int l.root r.root := by
  cases sh with
  | leaf x sym => exact h
  | int x l r => exact h.1

theorem Shape.fits_isInt {nodes : Vector Node 513} {sh : Shape} (h : sh.fits nodes) :
    (nodes.get sh.root).isInt = sh.isInt := by
  rw [Shape.fits_root h]
  cases sh <;> rfl

/-- A tree stays in the node memory when a node that is not of the tree is written. -/
theorem Shape.fits_congr {nodes nodes' : Vector Node 513} {sh : Shape}
    (h : ∀ x ∈ sh.indices, nodes'.get x = nodes.get x) (hf : sh.fits nodes) : sh.fits nodes' := by
  induction sh with
  | leaf x sym =>
    simp only [Shape.fits] at hf ⊢
    rw [h x (by simp [Shape.indices]), hf]
  | int x l r hl hr =>
    simp only [Shape.fits] at hf ⊢
    refine ⟨by rw [h x (by simp [Shape.indices]), hf.1], hl (fun y hy => h y ?_) hf.2.1, hr (fun y hy => h y ?_) hf.2.2⟩ <;>
      simp [Shape.indices, hy]

/-! ### The code table -/

theorem packBits_getLsbD (p : List Bool) (j : Nat) (h : j < 256) : (packBits p).getLsbD j = p.getD j false := by
  simp [packBits, h]

/-- The table entry of a path has the path as its bits (10_state.md R54). -/
theorem leafEntry_toBits {p : List Bool} (h : p.length ≤ 256) : (leafEntry p).toBits = p := by
  have hl : (leafEntry p).len.toNat = p.length := by
    simp [leafEntry]
    omega
  unfold CodeEntry.toBits
  rw [hl]
  apply List.ext_getElem
  · simp
  · intro j h1 h2
    simp only [List.getElem_map, List.getElem_range]
    have : (leafEntry p).bits = packBits p := rfl
    rw [this, packBits_getLsbD p j (by omega)]
    simp [List.getD, h2]

/-- In a tree memory that holds a tree with its codes, the symbols with a valid entry are the leaves' symbols, and their
entries give their codes. -/
theorem CodesOk.code_of_mem {t : TreeMem} {sh : Shape} (hc : CodesOk t sh) (hl : sh.symbols.length ≤ 257) :
    ∀ c ∈ sh.codes, (codeAt t c.1.val).valid = true ∧ (codeAt t c.1.val).toBits = c.2 := by
  intro c hm
  rw [codeAt_eq_get, hc.1 c hm]
  refine ⟨rfl, leafEntry_toBits ?_⟩
  have := sh.code_length c hm
  omega

theorem CodesOk.mem_of_valid {t : TreeMem} {sh : Shape} (hc : CodesOk t sh) {sym : Symbol}
    (hv : (codeAt t sym.val).valid = true) : ∃ c ∈ sh.codes, c.1 = sym := by
  rw [← Shape.mem_symbols]
  by_contra hn
  rw [codeAt_eq_get, hc.2 sym hn] at hv
  cases hv

/-! ### Walks -/

/-- The path of a leaf's code ends at that leaf (30_encoding.md R152). -/
theorem walkPath_code {nodes : Vector Node 513} (sh : Shape) (h : sh.fits nodes) :
    ∀ c ∈ sh.codes, walkPath nodes c.2 sh.root = some (.leaf c.1) := by
  induction sh with
  | leaf x sym =>
    intro c hc
    simp only [Shape.codes, List.mem_singleton] at hc
    subst hc
    exact congrArg some h
  | int x l r hl hr =>
    obtain ⟨h0, h1, h2⟩ := h
    intro c hc
    simp only [Shape.codes, List.mem_append, List.mem_map] at hc
    rcases hc with ⟨d, hd, rfl⟩ | ⟨d, hd, rfl⟩
    · simp only [walkPath, Shape.root, h0]
      exact hl h1 d hd
    · simp only [walkPath, Shape.root, h0]
      exact hr h2 d hd

theorem State.setPp_self {s : State} {p : ProgPoint} (h : s.eng.pp = p) : s.setPp p = s := by
  subst h
  rfl

/-- A walk from the root of a tree over the code of one of its leaves reaches that leaf: one micro-step for each bit, and
after the last one `k` goes on with the leaf's symbol. -/
theorem microSteps_walk {i : Instr} {p : ProgPoint} {k : Symbol → State → Flow}
    (hexec : ∀ s, s.eng.pp = p → exec i s = (performRead (walkBit p k) (fail .truncated) s).outcome s) (sh : Shape) :
    ∀ (c : Symbol × List Bool) (rest : List Bool) (s : State), s.eng.pp = p → s.eng.work.cur = sh.root →
      sh.fits s.tree.nodes → sh.isInt = true → c ∈ sh.codes → inBits s.inp = c.2 ++ rest →
      ∃ (ch : InChan) (x : NodeIx), inBits ch = rest ∧ ch.ended = s.inp.ended ∧
        ch.bitsIn = s.inp.bitsIn + BitVec.ofNat 32 c.2.length ∧
        ∀ t, (k c.1 ((s.setInp ch).setWork { s.eng.work with cur := x })).toMicro = .ran t →
          microSteps i c.2.length s = .next t := by
  induction sh with
  | leaf x sym => intro c rest s _ _ _ h; cases h
  | int x l r hl hr =>
    intro c rest s hp hcur hf _ hc hb
    obtain ⟨hn, hfl, hfr⟩ := hf
    have hn : s.tree.nodes.get s.eng.work.cur = .int l.root r.root := by rw [hcur]; exact hn
    simp only [Shape.codes, List.mem_append, List.mem_map] at hc
    have key : ∀ (b : Bool) (d : Symbol × List Bool) (ch : Shape), ch = (if b then r else l) → d ∈ ch.codes →
        ch.fits s.tree.nodes →
        (∀ (c : Symbol × List Bool) (rest : List Bool) (s : State), s.eng.pp = p → s.eng.work.cur = ch.root →
          ch.fits s.tree.nodes → ch.isInt = true → c ∈ ch.codes → inBits s.inp = c.2 ++ rest →
          ∃ (cc : InChan) (x : NodeIx), inBits cc = rest ∧ cc.ended = s.inp.ended ∧
            cc.bitsIn = s.inp.bitsIn + BitVec.ofNat 32 c.2.length ∧
            ∀ t, (k c.1 ((s.setInp cc).setWork { s.eng.work with cur := x })).toMicro = .ran t →
              microSteps i c.2.length s = .next t) →
        inBits s.inp = b :: d.2 ++ rest →
        ∃ (cc : InChan) (x : NodeIx), inBits cc = rest ∧ cc.ended = s.inp.ended ∧
          cc.bitsIn = s.inp.bitsIn + BitVec.ofNat 32 (b :: d.2).length ∧
          ∀ t, (k d.1 ((s.setInp cc).setWork { s.eng.work with cur := x })).toMicro = .ran t →
            microSteps i (b :: d.2).length s = .next t := by
      intro b d ch hch hd hfch ih hb
      obtain ⟨c1, hr1, hb1⟩ := readBit_of_inBits hb
      obtain ⟨-, e2, e3, -⟩ := readBit_bit hr1
      let s1 := (s.setInp c1).setWork { s.eng.work with cur := ch.root }
      have hstep : performRead (walkBit p k) (fail .truncated) s = (walkLoop p k s1).toMicro := by
        unfold performRead walkBit
        simp only [hr1, State.setInp_tree, State.setInp_eng, hn]
        rw [show (if b = true then r.root else l.root) = ch.root by rw [hch]; cases b <;> rfl]
      have hroot := Shape.fits_root hfch
      cases ch with
      | leaf y sym =>
        simp only [Shape.codes, List.mem_singleton] at hd
        subst hd
        refine ⟨c1, y, hb1, e3, e2, ?_⟩
        intro t ht
        change microSteps i (0 + 1) s = _
        rw [microSteps_succ (t := t)]
        · rfl
        · rw [hexec s hp, hstep, walkLoop_leaf (sym := sym) (by exact hroot)]
          exact congrArg (Micro.outcome s) ht
      | int y l' r' =>
        obtain ⟨cc, z, g1, g2, g3, g4⟩ := ih d rest s1 hp rfl hfch rfl hd hb1
        refine ⟨cc, z, g1, g2.trans e3, ?_, ?_⟩
        · rw [g3, List.length_cons, ofNat_succ_count, ← e2]
          rfl
        · intro t ht
          rw [List.length_cons, microSteps_succ (t := s1)]
          · exact g4 t ht
          · rw [hexec s hp, hstep, walkLoop_int (l := l'.root) (r := r'.root) (by exact hroot),
              State.setPp_self (by exact hp)]
            rfl
    rcases hc with ⟨d, hd, rfl⟩ | ⟨d, hd, rfl⟩
    · exact key false d l rfl hd hfl hl hb
    · exact key true d r rfl hd hfr hr hb

end Sys2Proof.Machine
end

