-- ==== Sys2Proof/Laws/Build.lean ====
section
/-! SUPPORT. How `BUILD` makes its tree: the priority order, the rounds of the merge, the seeds and the code table
(42_tree_build.md R221 to R228). -/

namespace Sys2Proof.Machine

/-! ### The priority order (42_tree_build.md R224) -/

theorem ranksBefore_iff (w : Vector Sum 513) (x y : NodeIx) :
    ranksBefore w x y = true ↔
      (w.get x).toNat < (w.get y).toNat ∨ ((w.get x).toNat = (w.get y).toNat ∧ x.val < y.val) := by
  simp [ranksBefore, BitVec.lt_def, BitVec.toNat_eq]

theorem ranksBefore_total {w : Vector Sum 513} {x y : NodeIx} (h : x ≠ y) :
    ranksBefore w x y = true ∨ ranksBefore w y x = true := by
  simp only [ranksBefore_iff]
  have : x.val ≠ y.val := fun e => h (Fin.ext e)
  omega

theorem ranksBefore_trans {w : Vector Sum 513} {x y z : NodeIx} (h : ranksBefore w x y = true)
    (g : ranksBefore w y z = true) : ranksBefore w x z = true := by
  simp only [ranksBefore_iff] at *
  omega

/-- The order sees the frequencies of the two nodes alone. -/
theorem ranksBefore_congr {w w' : Vector Sum 513} {x y : NodeIx} (hx : w.get x = w'.get x) (hy : w.get y = w'.get y) :
    ranksBefore w x y = ranksBefore w' x y := by
  simp [ranksBefore, hx, hy]

theorem minRank_mem (w : Vector Sum 513) (as : List NodeIx) : ∀ a, minRank w a as ∈ a :: as := by
  induction as with
  | nil => intro a; simp [minRank]
  | cons b bs ih =>
    intro a
    have : minRank w a (b :: bs) = minRank w (if ranksBefore w b a then b else a) bs := rfl
    rw [this]
    have := ih (if ranksBefore w b a then b else a)
    by_cases h : ranksBefore w b a = true
    · rw [if_pos h] at this ⊢
      exact List.mem_cons_of_mem _ this
    · rw [if_neg h] at this ⊢
      rcases List.mem_cons.mp this with h | h <;> simp [h]

theorem minRank_le (w : Vector Sum 513) (as : List NodeIx) :
    ∀ a, ∀ y ∈ a :: as, y ≠ minRank w a as → ranksBefore w (minRank w a as) y = true := by
  induction as with
  | nil => intro a y hy hne; simp [minRank] at *; exact absurd hy hne
  | cons b bs ih =>
    intro a y hy hne
    have e : minRank w a (b :: bs) = minRank w (if ranksBefore w b a then b else a) bs := rfl
    rw [e] at hne ⊢
    have h1 := ih (if ranksBefore w b a then b else a)
    by_cases hba : ranksBefore w b a = true
    · rw [if_pos hba] at h1 hne ⊢
      rcases List.mem_cons.mp hy with rfl | hy
      · by_cases hm : minRank w b bs = b
        · rw [hm]; exact hba
        · exact ranksBefore_trans (h1 b (by simp) (Ne.symm hm)) hba
      · exact h1 y hy hne
    · rw [if_neg hba] at h1 hne ⊢
      rcases List.mem_cons.mp hy with rfl | hy
      · exact h1 y (by simp) hne
      · rcases List.mem_cons.mp hy with rfl | hy
        · by_cases hya : y = a
          · subst hya; exact h1 y (by simp) hne
          · have hay : ranksBefore w a y = true := (ranksBefore_total hya).resolve_left hba
            by_cases hm : minRank w a bs = a
            · rw [hm]; exact hay
            · exact ranksBefore_trans (h1 a (by simp) (Ne.symm hm)) hay
        · exact h1 y (by simp [hy]) hne

theorem minRank_congr {w w' : Vector Sum 513} (as : List NodeIx) :
    ∀ a, (∀ y ∈ a :: as, w.get y = w'.get y) → minRank w a as = minRank w' a as := by
  induction as with
  | nil => intro a _; rfl
  | cons b bs ih =>
    intro a h
    have e : ∀ w, minRank w a (b :: bs) = minRank w (if ranksBefore w b a then b else a) bs := fun _ => rfl
    rw [e, e, ranksBefore_congr (h b (by simp)) (h a (by simp))]
    apply ih
    intro y hy
    split at hy
    · exact h y (by simp at hy ⊢; tauto)
    · exact h y (by simp at hy ⊢; tauto)

/-! ### One round of the merge -/

/-- The forest that the node memory holds while `Merge` runs: the active nodes are the roots of disjoint trees, which together
have the nodes 0 to `next` - 1 and the symbols `syms`. -/
def Forest (nodes : Vector Node 513) (active : List NodeIx) (next : Nat) (syms : List Symbol) : Prop :=
  ∃ fs : List Shape, (fs.map Shape.root).Perm active ∧ (∀ sh ∈ fs, sh.fits nodes) ∧
    ((fs.flatMap Shape.indices).map Fin.val).Perm (List.range next) ∧ (fs.flatMap Shape.symbols).Perm syms

theorem Forest.active_lt {nodes active next syms} (h : Forest nodes active next syms) : ∀ y ∈ active, y.val < next := by
  obtain ⟨fs, h1, -, h3, -⟩ := h
  intro y hy
  obtain ⟨sh, hs, rfl⟩ := List.mem_map.mp (h1.mem_iff.mpr hy)
  rw [← List.mem_range]
  refine h3.mem_iff.mp (List.mem_map_of_mem (List.mem_flatMap.mpr ⟨sh, hs, ?_⟩))
  cases sh <;> simp [Shape.root, Shape.indices]

theorem Shape.root_mem (sh : Shape) : sh.root ∈ sh.indices := by cases sh <;> simp [Shape.root, Shape.indices]

theorem Forest.nodup {nodes active next syms} (h : Forest nodes active next syms) : active.Nodup := by
  obtain ⟨fs, h1, -, h3, -⟩ := h
  rw [← h1.nodup_iff]
  have : (fs.flatMap Shape.indices).Nodup := (h3.nodup_iff.mpr List.nodup_range).of_map _
  clear h1 h3
  induction fs with
  | nil => simp
  | cons f fs ih =>
    rw [List.flatMap_cons, List.nodup_append] at this
    rw [List.map_cons, List.nodup_cons]
    refine ⟨?_, ih this.2.1⟩
    intro hm
    obtain ⟨g, hg, e⟩ := List.mem_map.mp hm
    exact this.2.2 _ f.root_mem _ (List.mem_flatMap.mpr ⟨g, hg, g.root_mem⟩) e.symm

/-- Joining two trees of the forest (42_tree_build.md R225). -/
theorem Forest.join {nodes active next syms} (h : Forest nodes active next syms) (hn : next < 513) {a b : NodeIx}
    (ha : a ∈ active) (hb : b ∈ active.erase a) :
    Forest (nodes.setIfInBounds next (.int a b)) (((active.erase a).erase b) ++ [Fin.ofNat 513 next]) (next + 1) syms := by
  obtain ⟨fs, h1, h2, h3, h4⟩ := h
  obtain ⟨sa, hsa, rfl⟩ := List.mem_map.mp (h1.mem_iff.mpr ha)
  have p1 := List.perm_cons_erase hsa
  have q1 : ((fs.erase sa).map Shape.root).Perm (active.erase sa.root) := by
    have := (p1.map Shape.root).symm.trans h1
    rw [List.map_cons] at this
    have h := this.erase sa.root
    rwa [List.erase_cons_head] at h
  obtain ⟨sb, hsb, rfl⟩ := List.mem_map.mp (q1.mem_iff.mpr hb)
  have p2 := List.perm_cons_erase hsb
  have q2 : (((fs.erase sa).erase sb).map Shape.root).Perm ((active.erase sa.root).erase sb.root) := by
    have := (p2.map Shape.root).symm.trans q1
    rw [List.map_cons] at this
    have h := this.erase sb.root
    rwa [List.erase_cons_head] at h
  have p : fs.Perm (sa :: sb :: (fs.erase sa).erase sb) := p1.trans (p2.cons sa)
  generalize (fs.erase sa).erase sb = gs at p q2
  let x : NodeIx := Fin.ofNat 513 next
  have hx : x.val = next := Nat.mod_eq_of_lt hn
  have hset : ∀ nd, nodes.setIfInBounds next nd = nodes.set x.val nd x.isLt := by
    intro nd; simp only [hx]; exact set_eq_setIfInBounds _ _ hn _
  have hfresh : ∀ sh ∈ fs, ∀ y ∈ sh.indices, y ≠ x := by
    intro sh hs y hy e
    have : y.val ∈ List.range next := h3.mem_iff.mp (List.mem_map_of_mem (List.mem_flatMap.mpr ⟨sh, hs, hy⟩))
    rw [e, hx] at this
    simp at this
  have hfit : ∀ sh ∈ fs, sh.fits (nodes.setIfInBounds next (.int sa.root sb.root)) := by
    intro sh hs
    refine Shape.fits_congr (fun y hy => ?_) (h2 sh hs)
    rw [hset]
    exact get_set_ne _ (hfresh sh hs y hy).symm _
  refine ⟨gs ++ [.int x sa sb], ?_, ?_, ?_, ?_⟩
  · rw [List.map_append]
    exact q2.append_right _
  · intro sh hs
    rcases List.mem_append.mp hs with hs | hs
    · exact hfit sh (p.mem_iff.mpr (by simp [hs]))
    · simp only [List.mem_singleton] at hs
      subst hs
      refine ⟨?_, hfit sa (p.mem_iff.mpr (by simp)), hfit sb (p.mem_iff.mpr (by simp))⟩
      rw [hset]; exact get_set_self ..
  · rw [List.range_succ]
    have e : ((gs ++ [Shape.int x sa sb]).flatMap Shape.indices).map Fin.val =
        (gs.flatMap Shape.indices).map Fin.val ++ next :: ((sa.indices ++ sb.indices).map Fin.val) := by
      simp [Shape.indices, hx]
    rw [e]
    have p' := ((p.flatMap_right Shape.indices).map Fin.val).symm.trans h3
    simp only [List.flatMap_cons, List.map_append] at p'
    refine List.perm_middle.trans ?_
    refine List.Perm.trans ?_ (List.perm_append_comm (l₁ := [next]))
    refine List.Perm.cons _ ?_
    refine List.Perm.trans ?_ p'
    rw [List.map_append]
    exact List.perm_append_comm.trans (by rw [List.append_assoc])
  · have e : (gs ++ [Shape.int x sa sb]).flatMap Shape.symbols = gs.flatMap Shape.symbols ++ (sa.symbols ++ sb.symbols) := by
      simp [Shape.symbols]
    rw [e]
    have p' := (p.flatMap_right Shape.symbols).symm.trans h4
    simp only [List.flatMap_cons] at p'
    refine List.Perm.trans ?_ p'
    exact List.perm_append_comm.trans (by rw [List.append_assoc])

/-- The node `x` joins the two lowest-ranked nodes active before it, and its frequency is their exact sum (R225). -/
def Merged (nodes : Vector Node 513) (w : Vector Sum 513) (x : NodeIx) : Prop :=
  ∃ a b : NodeIx, nodes.get x = .int a b ∧
    (let active (y : NodeIx) : Prop := y < x ∧ ∀ z l r : NodeIx, z < x → nodes.get z = .int l r → y ≠ l ∧ y ≠ r
     active a ∧ active b ∧ a ≠ b ∧
     (∀ y, active y → y ≠ a → ranksBefore w a y = true) ∧
     (∀ y, active y → y ≠ a → y ≠ b → ranksBefore w b y = true)) ∧
    (w.get x).toNat = (w.get a).toNat + (w.get b).toNat

/-- The total of the active nodes' frequencies. -/
def total (w : Vector Sum 513) (active : List NodeIx) : Nat := (active.map fun y => (w.get y).toNat).sum

theorem total_congr {w w' : Vector Sum 513} {active : List NodeIx} (h : ∀ y ∈ active, w.get y = w'.get y) : total w active = total w' active := by
  unfold total; congr 1; apply List.map_congr_left; intro y hy; rw [h y hy]

theorem total_perm {w : Vector Sum 513} {as bs : List NodeIx} (h : as.Perm bs) : total w as = total w bs := by
  unfold total; exact (h.map _).sum_eq

/-- The state of `Merge`'s loop: the forest, the active nodes as those no internal node has as a child, and the exact sums. -/
structure MergeInv (nodes : Vector Node 513) (w : Vector Sum 513) (active : List NodeIx) (next : Nat) (syms : List Symbol) : Prop where
  forest : Forest nodes active next syms
  isActive : ∀ y : NodeIx, y ∈ active ↔ y.val < next ∧ ∀ z l r : NodeIx, z.val < next → nodes.get z = .int l r → y ≠ l ∧ y ≠ r
  below : ∀ z l r : NodeIx, z.val < next → nodes.get z = .int l r → l.val < z.val ∧ r.val < z.val
  sum : total w active < 2 ^ 41

theorem mergeLoop_one (rounds : Nat) (r : NodeIx) (next : Nat) (nodes : Vector Node 513) (w : Vector Sum 513) :
    mergeLoop rounds [r] next nodes w = (nodes, w) := by
  cases rounds with
  | zero => rfl
  | succ k => simp [mergeLoop, minRank]

/-- One round (R225): the two lowest-ranked active nodes are joined. -/
theorem mergeLoop_round (rounds : Nat) (active : List NodeIx) (next : Nat) (nodes : Vector Node 513) (w : Vector Sum 513)
    (hl : 2 ≤ active.length) (hnd : active.Nodup) :
    ∃ a b, a ∈ active ∧ b ∈ active.erase a ∧ (∀ y ∈ active, y ≠ a → ranksBefore w a y = true) ∧
      (∀ y ∈ active, y ≠ a → y ≠ b → ranksBefore w b y = true) ∧
      mergeLoop (rounds + 1) active next nodes w =
        mergeLoop rounds (((active.erase a).erase b) ++ [Fin.ofNat 513 next]) (next + 1)
          (nodes.setIfInBounds next (.int a b)) (w.setIfInBounds next (w.get a + w.get b)) := by
  match active, hl with
  | a₀ :: as, hl =>
    have ha := minRank_mem w as a₀
    have hlen := List.length_erase_of_mem ha
    cases he : (a₀ :: as).erase (minRank w a₀ as) with
    | nil => rw [he] at hlen; simp at hlen hl; omega
    | cons b₀ bs =>
      refine ⟨minRank w a₀ as, minRank w b₀ bs, ha, by rw [he]; exact minRank_mem w bs b₀, minRank_le w as a₀, ?_, ?_⟩
      · intro y hy h1 h2
        refine minRank_le w bs b₀ y ?_ h2
        rw [← he]
        exact (List.mem_erase_of_ne h1).mpr hy
      · conv_lhs => unfold mergeLoop
        simp only [he]

theorem mergeLoop_spec (syms : List Symbol) : ∀ (rounds : Nat) (active : List NodeIx) (next : Nat) (nodes : Vector Node 513) (w : Vector Sum 513),
    MergeInv nodes w active next syms → active ≠ [] → active.length ≤ rounds + 1 → next + active.length ≤ 514 →
    ∃ root : NodeIx, root.val + 2 = next + active.length ∧
      Forest (mergeLoop rounds active next nodes w).1 [root] (next + active.length - 1) syms ∧
      (∀ x : NodeIx, x.val < next → (mergeLoop rounds active next nodes w).1.get x = nodes.get x ∧ (mergeLoop rounds active next nodes w).2.get x = w.get x) ∧
      (∀ x : NodeIx, next ≤ x.val → x ≤ root → Merged (mergeLoop rounds active next nodes w).1 (mergeLoop rounds active next nodes w).2 x) := by
  have one : ∀ (rounds : Nat) (r : NodeIx) (next : Nat) (nodes : Vector Node 513) (w : Vector Sum 513),
      MergeInv nodes w [r] next syms → next + 1 ≤ 514 →
      ∃ root : NodeIx, root.val + 2 = next + 1 ∧
        Forest (mergeLoop rounds [r] next nodes w).1 [root] (next + 1 - 1) syms ∧
        (∀ x : NodeIx, x.val < next → (mergeLoop rounds [r] next nodes w).1.get x = nodes.get x ∧ (mergeLoop rounds [r] next nodes w).2.get x = w.get x) ∧
        (∀ x : NodeIx, next ≤ x.val → x ≤ root → Merged (mergeLoop rounds [r] next nodes w).1 (mergeLoop rounds [r] next nodes w).2 x) := by
    intro rounds r next nodes w h hn
    rw [mergeLoop_one]
    have hr : r.val < next := h.forest.active_lt r (by simp)
    let y : NodeIx := ⟨next - 1, by omega⟩
    have hy : y ∈ [r] := by
      refine (h.isActive y).mpr ⟨by simp [y]; omega, fun z l r hz hzn => ?_⟩
      have := h.below z l r hz hzn
      constructor <;> intro e <;> rw [← e] at this <;> simp [y] at this <;> omega
    simp only [List.mem_singleton] at hy
    have hv : r.val = next - 1 := by rw [← hy]
    refine ⟨r, by omega, by simpa using h.forest, fun x _ => ⟨rfl, rfl⟩, fun x h1 h2 => ?_⟩
    have : x.val ≤ r.val := h2
    omega
  intro rounds
  induction rounds with
  | zero =>
    intro active next nodes w h hne hl hn
    match active, hne, hl with
    | [r], _, _ => exact one 0 r next nodes w h hn
  | succ k ih =>
    intro active next nodes w h hne hl hn
    by_cases h1 : active.length = 1
    · match active, h1 with
      | [r], _ => exact one (k + 1) r next nodes w h hn
    · have hlen : 2 ≤ active.length := by
        have := List.length_pos_of_ne_nil hne
        omega
      have hnd := h.forest.nodup
      obtain ⟨a, b, ha, hb, hmin, hmin2, heq⟩ := mergeLoop_round k active next nodes w hlen hnd
      have hba : b ≠ a := fun e => by rw [e] at hb; exact (List.Nodup.not_mem_erase hnd) hb
      have hb' : b ∈ active := List.mem_of_mem_erase hb
      have hx513 : next < 513 := by omega
      let x0 : NodeIx := Fin.ofNat 513 next
      have hx0 : x0.val = next := Nat.mod_eq_of_lt hx513
      let nodes' := nodes.setIfInBounds next (.int a b)
      let w' := w.setIfInBounds next (w.get a + w.get b)
      have hset : nodes' = nodes.set x0.val (.int a b) x0.isLt := by
        simp only [nodes', hx0]; exact set_eq_setIfInBounds _ _ hx513 _
      have hsetw : w' = w.set x0.val (w.get a + w.get b) x0.isLt := by
        simp only [w', hx0]; exact set_eq_setIfInBounds _ _ hx513 _
      have hne' : ∀ y : NodeIx, y.val < next → x0 ≠ y := fun y hy e => by rw [← e, hx0] at hy; omega
      have hnold : ∀ y : NodeIx, y.val < next → nodes'.get y = nodes.get y := fun y hy => by rw [hset]; exact get_set_ne _ (hne' y hy) _
      have hwold : ∀ y : NodeIx, y.val < next → w'.get y = w.get y := fun y hy => by rw [hsetw]; exact get_set_ne _ (hne' y hy) _
      have hnnew : nodes'.get x0 = .int a b := by rw [hset]; exact get_set_self ..
      have hwnew : w'.get x0 = w.get a + w.get b := by rw [hsetw]; exact get_set_self ..
      have hal := h.forest.active_lt a ha
      have hbl := h.forest.active_lt b hb'
      have hperm : active.Perm (a :: b :: (active.erase a).erase b) :=
        (List.perm_cons_erase ha).trans ((List.perm_cons_erase hb).cons a)
      have htot : total w active = (w.get a).toNat + ((w.get b).toNat + total w ((active.erase a).erase b)) := by
        rw [total_perm hperm]; simp [total]
      have hsum : (w.get a + w.get b).toNat = (w.get a).toNat + (w.get b).toNat := by
        rw [BitVec.toNat_add, Nat.mod_eq_of_lt]
        have := h.sum
        omega
      have hrest_lt : ∀ y ∈ (active.erase a).erase b, y.val < next := fun y hy => h.forest.active_lt y (List.mem_of_mem_erase (List.mem_of_mem_erase hy))
      have hinv : MergeInv nodes' w' (((active.erase a).erase b) ++ [x0]) (next + 1) syms := by
        refine ⟨h.forest.join hx513 ha hb, fun y => ?_, fun z l r hz hzn => ?_, ?_⟩
        · rw [List.mem_append, List.mem_singleton]
          have hmem : y ∈ (active.erase a).erase b ↔ y ≠ b ∧ y ≠ a ∧ y ∈ active := by
            rw [(hnd.erase a).mem_erase_iff, hnd.mem_erase_iff]
          rw [hmem, h.isActive y]
          constructor
          · rintro (⟨hyb, hya, hy, hch⟩ | rfl)
            · refine ⟨by omega, fun z l r hz hzn => ?_⟩
              rcases Nat.lt_succ_iff_lt_or_eq.mp hz with hz | hz
              · exact hch z l r hz (by rw [← hnold z hz]; exact hzn)
              · have : z = x0 := Fin.ext (hz.trans hx0.symm)
                rw [this, hnnew] at hzn
                obtain ⟨rfl, rfl⟩ := Node.int.inj hzn
                exact ⟨hya, hyb⟩
            · refine ⟨by omega, fun z l r hz hzn => ?_⟩
              rcases Nat.lt_succ_iff_lt_or_eq.mp hz with hz | hz
              · have := h.below z l r hz (by rw [← hnold z hz]; exact hzn)
                exact ⟨hne' l (by omega), hne' r (by omega)⟩
              · have : z = x0 := Fin.ext (hz.trans hx0.symm)
                rw [this, hnnew] at hzn
                obtain ⟨rfl, rfl⟩ := Node.int.inj hzn
                exact ⟨hne' _ hal, hne' _ hbl⟩
          · rintro ⟨hy, hch⟩
            rcases Nat.lt_succ_iff_lt_or_eq.mp hy with hy | hy
            · left
              have := hch x0 a b (by omega) hnnew
              exact ⟨this.2, this.1, hy, fun z l r hz hzn => hch z l r (by omega) (by rw [hnold z hz]; exact hzn)⟩
            · right; exact Fin.ext (hy.trans hx0.symm)
        · rcases Nat.lt_succ_iff_lt_or_eq.mp hz with hz | hz
          · exact h.below z l r hz (by rw [← hnold z hz]; exact hzn)
          · have : z = x0 := Fin.ext (hz.trans hx0.symm)
            rw [this, hnnew] at hzn
            obtain ⟨rfl, rfl⟩ := Node.int.inj hzn
            omega
        · have e : total w' (((active.erase a).erase b) ++ [x0]) = total w ((active.erase a).erase b) + (w'.get x0).toNat := by
            rw [← total_congr (fun y hy => hwold y (hrest_lt y hy))]
            simp [total]
          rw [e, hwnew, hsum]
          have := h.sum
          omega
      have hlen' : (((active.erase a).erase b) ++ [x0]).length = active.length - 1 := by
        have e1 := List.length_erase_of_mem ha
        have e2 := List.length_erase_of_mem hb
        simp; omega
      obtain ⟨root, r1, r2, r3, r4⟩ := ih _ (next + 1) nodes' w' hinv (by simp) (by omega) (by omega)
      rw [hlen'] at r1 r2
      rw [heq]
      refine ⟨root, by omega, by rw [show next + active.length - 1 = next + 1 + (active.length - 1) - 1 by omega]; exact r2, fun x hx => ?_, fun x h1 h2 => ?_⟩
      · have := r3 x (by omega)
        rw [hnold x hx, hwold x hx] at this
        exact this
      · rcases Nat.eq_or_lt_of_le h1 with h1 | h1
        · have hxx : x = x0 := Fin.ext (h1.symm.trans hx0.symm)
          subst hxx
          have q := r3 x0 (by omega)
          rw [hnnew, hwnew] at q
          have hact : ∀ y : NodeIx, y ∈ active ↔ (y < x0 ∧ ∀ z l r : NodeIx, z < x0 → (mergeLoop k (((active.erase a).erase b) ++ [x0]) (next + 1) nodes' w').1.get z = .int l r → y ≠ l ∧ y ≠ r) := by
            intro y
            rw [h.isActive y]
            have hlt : ∀ z : NodeIx, z < x0 ↔ z.val < next := fun z => by rw [← hx0]; rfl
            rw [hlt]
            refine and_congr_right fun _ => ?_
            refine forall_congr' fun z => forall_congr' fun l => forall_congr' fun r => ?_
            rw [hlt]
            refine forall_congr' fun hz => ?_
            rw [(r3 z (by omega)).1, hnold z hz]
          have hW : ∀ y ∈ active, (mergeLoop k (((active.erase a).erase b) ++ [x0]) (next + 1) nodes' w').2.get y = w.get y := by
            intro y hy
            have hy := h.forest.active_lt y hy
            rw [(r3 y (by omega)).2, hwold y hy]
          refine ⟨a, b, q.1, ⟨(hact a).mp ha, (hact b).mp hb', hba.symm, fun y hy hne => ?_, fun y hy hne hne2 => ?_⟩, ?_⟩
          · have hy := (hact y).mpr hy
            rw [ranksBefore_congr (hW a ha) (hW y hy)]
            exact hmin y hy hne
          · have hy := (hact y).mpr hy
            rw [ranksBefore_congr (hW b hb') (hW y hy)]
            exact hmin2 y hy hne hne2
          · rw [q.2, hsum, hW a ha, hW b hb']
        · exact r4 x h1 h2

/-! ### The code table -/

theorem walkCodes_spec {nodes : Vector Node 513} (sh : Shape) :
    ∀ (fuel : Nat) (p : List Bool) (t : Vector CodeEntry 257), sh.symbols.length ≤ fuel → sh.fits nodes → sh.symbols.Nodup →
      (∀ c ∈ sh.codes, (walkCodes nodes fuel sh.root p t).get c.1 = leafEntry (p ++ c.2)) ∧
      ∀ y, y ∉ sh.symbols → (walkCodes nodes fuel sh.root p t).get y = t.get y := by
  induction sh with
  | leaf x sym =>
    intro fuel p t hfuel hf _
    obtain ⟨k, rfl⟩ : ∃ k, fuel = k + 1 := ⟨fuel - 1, by simp [Shape.symbols] at hfuel; omega⟩
    have hn : nodes.get (Shape.leaf x sym).root = .leaf sym := hf
    have e : walkCodes nodes (k + 1) (Shape.leaf x sym).root p t = t.set sym.val (leafEntry p) sym.isLt := by
      conv_lhs => unfold walkCodes
      rw [hn]
    rw [e]
    refine ⟨fun c hc => ?_, fun y hy => get_set_ne _ (fun h => hy (by simp [Shape.symbols, h])) _⟩
    simp only [Shape.codes, List.mem_singleton] at hc
    subst hc
    rw [get_set_self, List.append_nil]
  | int x l r hl hr =>
    intro fuel p t hfuel hf hnd
    obtain ⟨hn, hfl, hfr⟩ := hf
    have h1 := List.length_pos_of_ne_nil l.symbols_ne_nil
    have h2 := List.length_pos_of_ne_nil r.symbols_ne_nil
    simp only [Shape.symbols, List.length_append] at hfuel
    obtain ⟨k, rfl⟩ : ∃ k, fuel = k + 1 := ⟨fuel - 1, by omega⟩
    have hn : nodes.get (Shape.int x l r).root = .int l.root r.root := hn
    have e : walkCodes nodes (k + 1) (Shape.int x l r).root p t =
        walkCodes nodes k r.root (p ++ [true]) (walkCodes nodes k l.root (p ++ [false]) t) := by
      conv_lhs => unfold walkCodes
      rw [hn]
    rw [e]
    simp only [Shape.symbols, List.nodup_append] at hnd
    obtain ⟨a1, a2⟩ := hl k (p ++ [false]) t (by omega) hfl hnd.1
    obtain ⟨b1, b2⟩ := hr k (p ++ [true]) (walkCodes nodes k l.root (p ++ [false]) t) (by omega) hfr hnd.2.1
    refine ⟨fun c hc => ?_, fun y hy => ?_⟩
    · simp only [Shape.codes, List.mem_append, List.mem_map] at hc
      rcases hc with ⟨d, hd, rfl⟩ | ⟨d, hd, rfl⟩
      · have hm : d.1 ∈ l.symbols := Shape.mem_symbols.mpr ⟨d, hd, rfl⟩
        rw [b2 d.1 (fun h => hnd.2.2 _ hm _ h rfl), a1 d hd, List.append_assoc]
        rfl
      · rw [b1 d hd, List.append_assoc]
        rfl
    · simp only [Shape.symbols, List.mem_append, not_or] at hy
      rw [b2 y hy.2, a2 y hy.1]

/-- `BuildCodes` gives every leaf its root-to-leaf path, and no other symbol a code (42_tree_build.md R228). -/
theorem buildCodes_spec {nodes : Vector Node 513} {sh : Shape} (hf : sh.fits nodes) (hnd : sh.symbols.Nodup) :
    (∀ c ∈ sh.codes, (buildCodes nodes sh.root).get c.1 = leafEntry c.2) ∧
      ∀ y, y ∉ sh.symbols → (buildCodes nodes sh.root).get y = CodeEntry.absent := by
  have hl : sh.symbols.length ≤ 513 := by
    have := hnd.length_le_card
    simp at this
    omega
  obtain ⟨h1, h2⟩ := walkCodes_spec (nodes := nodes) sh 513 [] (.replicate 257 CodeEntry.absent) hl hf hnd
  exact ⟨h1, fun y hy => (h2 y hy).trans (get_replicate ..)⟩

/-- The code table is determined by the nodes of the tree. -/
theorem buildCodes_congr {nodes nodes' : Vector Node 513} {sh : Shape} (hf : sh.fits nodes) (hf' : sh.fits nodes')
    (hnd : sh.symbols.Nodup) : buildCodes nodes sh.root = buildCodes nodes' sh.root := by
  apply Vector.ext
  intro i hi
  have h1 := buildCodes_spec hf hnd
  have h2 := buildCodes_spec hf' hnd
  change (buildCodes nodes sh.root).get ⟨i, hi⟩ = (buildCodes nodes' sh.root).get ⟨i, hi⟩
  by_cases hm : (⟨i, hi⟩ : Symbol) ∈ sh.symbols
  · obtain ⟨c, hc, e⟩ := Shape.mem_symbols.mp hm
    rw [← e, h1.1 c hc, h2.1 c hc]
  · rw [h1.2 _ hm, h2.2 _ hm]

/-! ### The seeds -/

/-- What `Seed` has placed: the leaves `l` and their frequencies, in order (R221). -/
structure Seeded (d : Seeding) (l : List (Symbol × Sum)) : Prop where
  n : d.n = l.length
  nodes : ∀ (k : NodeIx) (h : k.val < l.length), d.nodes.get k = .leaf l[k.val].1
  wfreq : ∀ (k : NodeIx) (h : k.val < l.length), d.wfreq.get k = l[k.val].2

theorem Seeded.put {d : Seeding} {l : List (Symbol × Sum)} (h : Seeded d l) (hl : l.length < 513) (sym : Symbol) (f : Sum) :
    Seeded (seedPut sym f d) (l ++ [(sym, f)]) := by
  let x : NodeIx := ⟨l.length, hl⟩
  have e1 : (seedPut sym f d).nodes = d.nodes.set x.val (.leaf sym) x.isLt := by
    simp only [seedPut, h.n]; exact set_eq_setIfInBounds _ _ hl _
  have e2 : (seedPut sym f d).wfreq = d.wfreq.set x.val f x.isLt := by
    simp only [seedPut, h.n]; exact set_eq_setIfInBounds _ _ hl _
  refine ⟨by simp [seedPut, h.n], fun k hk => ?_, fun k hk => ?_⟩
  · rw [e1, get_set]
    split
    · rename_i hx; subst hx; simp [x]
    · rename_i hx
      have hlt : k.val < l.length := by
        have : x.val ≠ k.val := fun e => hx (Fin.ext e)
        simp [x] at this hk; omega
      rw [h.nodes k hlt]; simp [hlt]
  · rw [e2, get_set]
    split
    · rename_i hx; subst hx; simp [x]
    · rename_i hx
      have hlt : k.val < l.length := by
        have : x.val ≠ k.val := fun e => hx (Fin.ext e)
        simp [x] at this hk; omega
      rw [h.wfreq k hlt]; simp [hlt]

/-- The bytes present among the first `m`, with their counts. -/
def presentLeaves (freq : Vector Word 256) (m : Nat) : List (Symbol × Sum) :=
  ((List.range m).filter fun k => freqAt freq k ≠ 0).map fun k => (Fin.ofNat 257 k, (freqAt freq k).setWidth 41)

/-- The leaves of the tree that `BUILD` makes, in the order of their nodes, with their frequencies (R221, R222). -/
def seedLeaves (freq : Vector Word 256) : List (Symbol × Sum) :=
  (if presentLeaves freq 256 = [] then [(0, 0)] else presentLeaves freq 256) ++ [(sentinel, 1)]

theorem presentLeaves_length (freq : Vector Word 256) (m : Nat) : (presentLeaves freq m).length ≤ m := by
  unfold presentLeaves
  rw [List.length_map]
  exact (List.length_filter_le _ _).trans (by simp)

theorem seeded_bytes (freq : Vector Word 256) (nodes : Vector Node 513) (w : Vector Sum 513) (m : Nat) (hm : m ≤ 256) :
    Seeded ((List.range m).foldl (seedByte freq) ⟨nodes, w, 0⟩) (presentLeaves freq m) := by
  induction m with
  | zero => exact ⟨rfl, fun k h => absurd h (by simp [presentLeaves]), fun k h => absurd h (by simp [presentLeaves])⟩
  | succ m ih =>
    have h := ih (by omega)
    rw [List.range_succ, List.foldl_append, List.foldl_cons, List.foldl_nil]
    have hl := presentLeaves_length freq m
    unfold seedByte
    by_cases hz : freqAt freq m = 0
    · rw [if_pos hz]
      have : presentLeaves freq (m + 1) = presentLeaves freq m := by
        simp [presentLeaves, List.range_succ, hz]
      rw [this]; exact h
    · rw [if_neg hz]
      have : presentLeaves freq (m + 1) = presentLeaves freq m ++ [(Fin.ofNat 257 m, (freqAt freq m).setWidth 41)] := by
        have hz' : freqAt freq m ≠ 0#32 := hz
        simp [presentLeaves, List.range_succ, hz']
      rw [this]; exact h.put (by omega) _ _

/-- `Seed` (R221, R222). -/
theorem seeded (freq : Vector Word 256) (nodes : Vector Node 513) (w : Vector Sum 513) :
    Seeded (seed freq nodes w) (seedLeaves freq) := by
  have h := seeded_bytes freq nodes w 256 (by omega)
  have hl := presentLeaves_length freq 256
  unfold seed seedLeaves
  by_cases hz : presentLeaves freq 256 = []
  · have hn : ((List.range 256).foldl (seedByte freq) ⟨nodes, w, 0⟩).n = 0 := by rw [h.n, hz]; rfl
    simp only [hn, if_true, hz]
    rw [hz] at h
    exact (h.put (by simp) 0 0).put (by simp) _ _
  · have hn : ((List.range 256).foldl (seedByte freq) ⟨nodes, w, 0⟩).n ≠ 0 := by
      rw [h.n]; exact fun e => hz (List.length_eq_zero_iff.mp e)
    simp only [hn, if_false, hz]
    exact h.put (by omega) _ _

theorem seedLeaves_length (freq : Vector Word 256) : 2 ≤ (seedLeaves freq).length ∧ (seedLeaves freq).length ≤ 257 := by
  have hl := presentLeaves_length freq 256
  unfold seedLeaves
  split
  · simp
  · rename_i h
    have := List.length_pos_of_ne_nil h
    simp; omega

theorem present_lt (freq : Vector Word 256) : ∀ c ∈ presentLeaves freq 256, c.1.val < 256 := by
  intro c hc
  obtain ⟨k, hk, rfl⟩ := List.mem_map.mp hc
  have := List.mem_range.mp (List.mem_filter.mp hk).1
  change k % 257 < 256
  omega

/-- The frequency of each seed: its symbol's count, and 1 for the sentinel (R221, R222). -/
theorem seedLeaves_freq (freq : Vector Word 256) :
    ∀ c ∈ seedLeaves freq, c.2.toNat = if c.1 = sentinel then 1 else (freqAt freq c.1.val).toNat := by
  intro c hc
  unfold seedLeaves at hc
  rcases List.mem_append.mp hc with hc | hc
  · split at hc
    · rename_i he
      simp only [List.mem_singleton] at hc
      subst hc
      have h0 : freqAt freq 0 = 0 := by
        unfold presentLeaves at he
        rw [List.map_eq_nil_iff, List.filter_eq_nil_iff] at he
        simpa using he 0 (by simp)
      change 0 = if (0 : Symbol) = sentinel then 1 else (freqAt freq 0).toNat
      rw [if_neg (by decide), h0]
      rfl
    · have hs : c.1 ≠ sentinel := fun e => by
        have := present_lt freq c hc
        rw [e] at this
        exact absurd this (by decide)
      rw [if_neg hs]
      obtain ⟨k, hk, rfl⟩ := List.mem_map.mp hc
      have := List.mem_range.mp (List.mem_filter.mp hk).1
      have hk : (Fin.ofNat 257 k).val = k := Nat.mod_eq_of_lt (by omega)
      have hl := (freqAt freq k).isLt
      simp only [hk]
      simp
      omega
  · simp only [List.mem_singleton] at hc
    subst hc
    simp

theorem seedLeaves_nodup (freq : Vector Word 256) : ((seedLeaves freq).map Prod.fst).Nodup := by
  have h1 : ((presentLeaves freq 256).map Prod.fst).Nodup := by
    unfold presentLeaves
    rw [List.map_map]
    refine List.Nodup.map_on ?_ ((List.nodup_range).filter _)
    intro a ha b hb e
    have ha := List.mem_range.mp (List.mem_filter.mp ha).1
    have hb := List.mem_range.mp (List.mem_filter.mp hb).1
    have : a % 257 = b % 257 := congrArg Fin.val e
    omega
  unfold seedLeaves
  rw [List.map_append, List.nodup_append]
  refine ⟨?_, by simp, ?_⟩
  · split
    · simp
    · exact h1
  · intro a ha b hb e
    simp only [List.map_cons, List.map_nil, List.mem_singleton] at hb
    subst hb; subst e
    split at ha
    · simp at ha; exact absurd ha (by decide)
    · obtain ⟨c, hc, e⟩ := List.mem_map.mp ha
      have := present_lt freq c hc
      rw [e] at this
      exact absurd this (by decide)

theorem seedLeaves_sum (freq : Vector Word 256) : ((seedLeaves freq).map fun c => c.2.toNat).sum < 2 ^ 41 := by
  have h1 : ∀ l : List (Symbol × Sum), (∀ c ∈ l, c.2.toNat < 2 ^ 32) → (l.map fun c => c.2.toNat).sum ≤ l.length * 2 ^ 32 := by
    intro l
    induction l with
    | nil => simp
    | cons c l ih =>
      intro h
      have := ih (fun d hd => h d (List.mem_cons_of_mem _ hd))
      have := h c (by simp)
      simp only [List.map_cons, List.sum_cons, List.length_cons, Nat.add_mul]
      omega
  have h2 := h1 (seedLeaves freq) (by
    intro c hc
    unfold seedLeaves at hc
    rcases List.mem_append.mp hc with hc | hc
    · split at hc
      · simp at hc; subst hc; simp
      · obtain ⟨k, -, rfl⟩ := List.mem_map.mp hc
        have := (freqAt freq k).isLt
        simp; omega
    · simp at hc; subst hc; simp)
  have := (seedLeaves_length freq).2
  have : (seedLeaves freq).length * 2 ^ 32 ≤ 257 * 2 ^ 32 := Nat.mul_le_mul_right _ this
  omega

/-- The merge starts from the seeds. -/
theorem mergeInv_seed (freq : Vector Word 256) (nodes : Vector Node 513) (w : Vector Sum 513) :
    MergeInv (seed freq nodes w).nodes (seed freq nodes w).wfreq ((List.range (seed freq nodes w).n).map (Fin.ofNat 513))
      (seed freq nodes w).n ((seedLeaves freq).map Prod.fst) := by
  have h := seeded freq nodes w
  have hL := (seedLeaves_length freq).2
  generalize seed freq nodes w = d at h
  generalize hl : seedLeaves freq = l at h hL
  rw [h.n]
  have hval : ∀ k, k < l.length → (Fin.ofNat 513 k).val = k := fun k hk => Nat.mod_eq_of_lt (by omega)
  have hleaf : ∀ z a b : NodeIx, z.val < l.length → d.nodes.get z ≠ .int a b := by
    intro z a b hz e; rw [h.nodes z hz] at e; cases e
  have hact : ∀ y : NodeIx, y ∈ (List.range l.length).map (Fin.ofNat 513) ↔ y.val < l.length := by
    intro y
    constructor
    · intro hy
      obtain ⟨k, hk, rfl⟩ := List.mem_map.mp hy
      rw [hval k (List.mem_range.mp hk)]; exact List.mem_range.mp hk
    · intro hy
      exact List.mem_map.mpr ⟨y.val, List.mem_range.mpr hy, Fin.ext (hval _ hy)⟩
  refine ⟨?_, fun y => ?_, fun z a b hz e => absurd e (hleaf z a b hz), ?_⟩
  · refine ⟨(List.range l.length).attach.map fun k => Shape.leaf (Fin.ofNat 513 k.1) (l[k.1]'(List.mem_range.mp k.2)).1, ?_, ?_, ?_, ?_⟩
    · rw [List.map_map]
      have : (Shape.root ∘ fun k : {x // x ∈ List.range l.length} => Shape.leaf (Fin.ofNat 513 k.1) (l[k.1]'(List.mem_range.mp k.2)).1) = (Fin.ofNat 513) ∘ Subtype.val := rfl
      rw [this, ← List.map_map, List.attach_map_subtype_val]
    · intro sh hs
      obtain ⟨k, -, rfl⟩ := List.mem_map.mp hs
      have hk := List.mem_range.mp k.2
      have := h.nodes (Fin.ofNat 513 k.1) (by rw [hval _ hk]; exact hk)
      simp only [Shape.fits]
      rw [this]
      simp only [hval _ hk]
    · have : ((List.range l.length).attach.map fun k => Shape.leaf (Fin.ofNat 513 k.1) (l[k.1]'(List.mem_range.mp k.2)).1).flatMap Shape.indices = (List.range l.length).attach.map fun k => Fin.ofNat 513 k.1 := by
        rw [List.flatMap_map]
        simp only [Shape.indices]
        rw [← List.map_eq_flatMap]
      rw [this, List.map_map]
      have : (Fin.val ∘ fun k : {x // x ∈ List.range l.length} => Fin.ofNat 513 k.1) = Subtype.val := by
        funext k; exact hval _ (List.mem_range.mp k.2)
      rw [this, List.attach_map_subtype_val]
    · have : ((List.range l.length).attach.map fun k => Shape.leaf (Fin.ofNat 513 k.1) (l[k.1]'(List.mem_range.mp k.2)).1).flatMap Shape.symbols = (List.range l.length).attach.map fun k => (l[k.1]'(List.mem_range.mp k.2)).1 := by
        rw [List.flatMap_map]
        simp only [Shape.symbols]
        rw [← List.map_eq_flatMap]
      rw [this]
      apply List.Perm.of_eq
      apply List.ext_getElem
      · simp
      · intro i h1 h2; simp
  · rw [hact]
    exact ⟨fun hy => ⟨hy, fun z a b hz e => absurd e (hleaf z a b hz)⟩, fun hy => hy.1⟩
  · have : total d.wfreq ((List.range l.length).map (Fin.ofNat 513)) = (l.map fun c => c.2.toNat).sum := by
      unfold total
      rw [List.map_map]
      congr 1
      apply List.ext_getElem
      · simp
      · intro i h1 h2
        simp at h1
        simp only [List.getElem_map, List.getElem_range, Function.comp]
        rw [h.wfreq _ (by rw [hval _ h1]; exact h1)]
        simp only [hval _ h1]
    rw [this, ← hl]
    exact seedLeaves_sum freq

end Sys2Proof.Machine
end

