-- ==== Sys2Proof/Laws/Decode.lean ====
section
/-! SUPPORT. The fields of a command word, and the word assembled from fields. -/

namespace Sys2Proof

/-- A word with these four fields, each in its place (30_encoding.md R140). -/
def assemble (op : BitVec 8) (idx : BitVec 10) (n : BitVec 5) (rsv : BitVec 9) : Word :=
  op.setWidth 32 ||| (idx.setWidth 32 <<< 8) ||| (n.setWidth 32 <<< 18) ||| (rsv.setWidth 32 <<< 23)

theorem encode_eq_assemble (i : Instr) : encode i = assemble i.opcode i.idxOperand i.nOperand 0 := by
  simp [encode, assemble]

theorem opField_assemble (op : BitVec 8) (idx : BitVec 10) (n : BitVec 5) (rsv : BitVec 9) :
    opField (assemble op idx n rsv) = op := by
  apply BitVec.eq_of_getLsbD_eq
  intro k hk
  simp only [opField, assemble, BitVec.getLsbD_extractLsb']
  interval_cases k <;> simp

theorem idxField_assemble (op : BitVec 8) (idx : BitVec 10) (n : BitVec 5) (rsv : BitVec 9) :
    idxField (assemble op idx n rsv) = idx := by
  apply BitVec.eq_of_getLsbD_eq
  intro k hk
  simp only [idxField, assemble, BitVec.getLsbD_extractLsb']
  interval_cases k <;> simp

theorem nField_assemble (op : BitVec 8) (idx : BitVec 10) (n : BitVec 5) (rsv : BitVec 9) :
    nField (assemble op idx n rsv) = n := by
  apply BitVec.eq_of_getLsbD_eq
  intro k hk
  simp only [nField, assemble, BitVec.getLsbD_extractLsb']
  interval_cases k <;> simp

theorem rsvField_assemble (op : BitVec 8) (idx : BitVec 10) (n : BitVec 5) (rsv : BitVec 9) :
    rsvField (assemble op idx n rsv) = rsv := by
  apply BitVec.eq_of_getLsbD_eq
  intro k hk
  simp only [rsvField, assemble, BitVec.getLsbD_extractLsb']
  interval_cases k <;> simp

/-- A word is the word of its fields. -/
theorem assemble_fields (w : Word) : assemble (opField w) (idxField w) (nField w) (rsvField w) = w := by
  apply BitVec.eq_of_getLsbD_eq
  intro k hk
  simp only [opField, idxField, nField, rsvField, assemble]
  interval_cases k <;> simp

end Sys2Proof
end

