-- ==== Sys2Proof/Laws/Invariant.lean ====
section
/-! SUPPORT. The invariant of a run through the pure statements of the commands: what each continuation of a primitive
leads to from a state in which the engine runs. -/

namespace Sys2Proof.Machine

/-- A running engine between two primitives. -/
structure Mid (i : Instr) (s : State) : Prop where
  busy : s.status.busy = true
  params : ParamsInv s.params
  status : StatusInv s.status
  channels : ChannelInv s
  cmd : decode s.eng.cmd = .ok i

variable {i : Instr} {s : State}

theorem Mid.failed (h : Mid i s) {e : ErrCode} (he : e ≠ .none) : (raiseError e s).Inv := by
  obtain ⟨h1, h2, h3, h4, h5⟩ := h
  refine ⟨h2, ⟨?_, ?_, ?_, ?_⟩, ⟨h4.inBound, h4.outBound, h4.tail⟩, ?_⟩
  · simp [h3.busyDone h1]
  · simp
  · simp
  · simp [he]
  · intro hb; simp at hb
theorem Mid.completed (h : Mid i s) (r : Option Word) : (complete r s).Inv := by
  obtain ⟨h1, h2, h3, h4, h5⟩ := h
  have he := h3.busyErr h1
  refine ⟨by simpa using h2, ⟨?_, ?_, ?_, ?_⟩, ⟨by simpa using h4.inBound, by simpa using h4.outBound, by simpa using h4.tail⟩, ?_⟩
  · simp [he]
  · simp
  · simp
  · simpa using h3.errcode
  · intro hb; simp at hb
theorem Mid.at (h : Mid i s) (hp : s.eng.pp ∈ commandPoints i) (hi : pointInv i s) : s.Inv := by
  obtain ⟨h1, h2, h3, h4, h5⟩ := h
  refine ⟨h2, h3, h4, fun _ => ?_⟩
  rw [h5]; exact ⟨.inr hp, hi⟩
theorem Mid.setWork (h : Mid i s) (w : Work) : Mid i (s.setWork w) := by
  obtain ⟨h1, h2, h3, h4, h5⟩ := h
  exact ⟨h1, h2, h3, ⟨h4.inBound, h4.outBound, h4.tail⟩, h5⟩
theorem Mid.setPp (h : Mid i s) (p : ProgPoint) : Mid i (s.setPp p) := by
  obtain ⟨h1, h2, h3, h4, h5⟩ := h
  exact ⟨h1, h2, h3, ⟨h4.inBound, h4.outBound, h4.tail⟩, h5⟩
theorem Mid.setTree (h : Mid i s) (p : TreeMem) : Mid i (s.setTree p) := by
  obtain ⟨h1, h2, h3, h4, h5⟩ := h
  exact ⟨h1, h2, h3, ⟨h4.inBound, h4.outBound, h4.tail⟩, h5⟩
theorem Mid.setFreq (h : Mid i s) (p) : Mid i (s.setFreq p) := by
  obtain ⟨h1, h2, h3, h4, h5⟩ := h
  exact ⟨h1, h2, h3, ⟨h4.inBound, h4.outBound, h4.tail⟩, h5⟩
theorem Mid.setResult (h : Mid i s) (p) : Mid i (s.setResult p) := by
  obtain ⟨h1, h2, h3, h4, h5⟩ := h
  exact ⟨h1, h2, h3, ⟨h4.inBound, h4.outBound, h4.tail⟩, h5⟩
theorem Mid.standRead (h : Mid i s) (p) : Mid i (standRead p s) := (h.setPp p).setWork _
theorem Mid.standWrite (h : Mid i s) (p bs) : Mid i (standWrite p bs s) := (h.setPp p).setWork _
theorem Mid.readBitsNext (h : Mid i s) (b) : Mid i (readBitsNext b s) := h.setWork _
theorem Mid.setInp (h : Mid i s) {c : InChan} (hc : c.fifo.length ≤ s.inp.fifo.length) : Mid i (s.setInp c) := by
  obtain ⟨h1, h2, h3, h4, h5⟩ := h
  exact ⟨h1, h2, h3, ⟨hc.trans h4.inBound, h4.outBound, h4.tail⟩, h5⟩
theorem Mid.read (h : Mid i s) {b} {c : InChan} (hc : readBit s.inp = .bit b c) : Mid i (s.setInp c) := h.setInp (readBit_bit hc).2.2.2
theorem Mid.write (h : Mid i s) {b} {o : OutChan} (ho : writeBit s.params.outDepth b s.out = some o) (bs) : Mid i (writeNext o bs s) := by
  have hl := writeBit_length ho h.channels.outBound
  have ht := (writeBit_some ho h.channels.tail).2.2
  obtain ⟨h1, h2, h3, h4, h5⟩ := h
  exact ⟨h1, h2, h3, ⟨h4.inBound, hl, ht⟩, h5⟩

/-- The flow leads to a state with the invariant, and is not broken. -/
abbrev Safe (f : Machine.Flow) : Prop := f.Post False State.Inv

theorem safe_serializeLoop {s : State} (h : Mid .serialize s) : Safe (serializeLoop s) := by
  cases hs : s.eng.work.stk with
  | nil => rw [serializeLoop_nil hs]; exact h.completed _
  | cons e rest =>
    rw [serializeLoop_cons hs]
    cases hn : s.tree.nodes.get e.ix with
    | leaf sym => exact ((h.setWork _).standWrite _ _).at (by simp [commandPoints]) (by simp [pointInv])
    | int l r => exact ((h.setWork _).standWrite _ _).at (by simp [commandPoints]) (by simp [pointInv, hn, Node.isInt])
theorem safe_deserializeEnd {s : State} (h : Mid .deserialize s) : Safe (deserializeEnd s) := by
  unfold deserializeEnd
  dsimp only
  split
  · exact h.failed (by simp)
  · split
    · exact (h.setTree _).completed _
    · exact h.failed (by simp)
/-- At the top of the loop nn = ni + nl, and the stack has ni + 1 - nl entries (43_tree_serial.md R247). -/
theorem safe_deserializeLoop {s : State} (h : Mid .deserialize s) (h1 : s.eng.work.nn = s.eng.work.ni + s.eng.work.nl)
    (h2 : s.eng.work.stk.length + s.eng.work.nl = s.eng.work.ni + 1) (h3 : s.eng.work.ni ≤ 256) : Safe (deserializeLoop s) := by
  unfold deserializeLoop
  dsimp only
  split
  · exact safe_deserializeEnd h
  · rename_i e rest hs
    rw [hs] at h2
    simp at h2
    rw [dif_pos (by omega)]
    refine (Mid.setPp (i := .deserialize) ?_ _).at (by simp [commandPoints]) ?_
    · split
      · exact h.setWork _
      · exact (h.setWork _).setTree _
    · simp only [pointInv, State.setPp_eng, Work.counts]
      split <;> simp <;> omega
theorem safe_deserializeMark {s : State} (h : Mid .deserialize s) (hc : s.eng.work.counts) (b : Bool) : Safe (deserializeMark b s) := by
  unfold deserializeMark
  obtain ⟨c1, c2, c3⟩ := hc
  dsimp only
  split
  · split
    · exact (h.setWork _).failed (by simp)
    · refine safe_deserializeLoop ((h.setTree _).setWork _) ?_ ?_ ?_ <;> simp <;> omega
  · refine ((h.setWork _).standRead _).at (by simp [commandPoints]) ?_
    simp [pointInv, Work.counts]; omega
theorem safe_deserializeSymbol {s : State} (h : Mid .deserialize s) (hc : s.eng.work.counts) (v : Word) : Safe (deserializeSymbol v s) := by
  unfold deserializeSymbol
  obtain ⟨c1, c2, c3⟩ := hc
  dsimp only
  split
  · split
    · exact (h.setWork _).failed (by simp)
    · refine safe_deserializeLoop ((h.setTree _).setWork _) ?_ ?_ ?_ <;> simp <;> omega
  · exact (h.setWork _).failed (by simp)

theorem safe_finish (h : Mid i s) (r) : Safe (finish r s) := h.completed r
theorem safe_fail (h : Mid i s) {e} (he : e ≠ .none) : Safe (fail e s) := h.failed he

theorem safe_countByte {s : State} (h : Mid .freqCount s) (r) : Safe (countByte r s) := by
  unfold countByte
  dsimp only
  split
  · exact h.failed (by simp)
  · exact (((h.setFreq _).setWork _).standRead _).at (by simp [commandPoints]) (by simp [pointInv])
theorem safe_encodeNext {s : State} (h : Mid .encode s) : Safe (encodeNext s) :=
  ((h.setWork _).standRead _).at (by simp [commandPoints]) (by simp [pointInv])
theorem safe_beginWrite {p bits k} (h : Mid i s) (hp : p ∈ commandPoints i) (hi : ∀ t : State, t.eng.pp = p → t.eng.work.wq ≠ [] → t.tree = s.tree → t.eng.work.x = s.eng.work.x → pointInv i t) (hk : Safe (k s)) : Safe (beginWrite p bits k s) := by
  apply post_beginWrite
  · intro _; exact hk
  · intro hb; exact (h.standWrite _ _).at hp (hi _ rfl hb rfl rfl)
theorem safe_encodeByte {s : State} (h : Mid .encode s) (r) : Safe (encodeByte r s) := by
  unfold encodeByte
  dsimp only
  split
  · exact safe_beginWrite h (by simp [commandPoints]) (fun t h1 h2 _ _ => by simp [pointInv, h1, h2]) (safe_encodeNext h)
  · exact h.failed (by simp)
theorem safe_encodeEod {s : State} (h : Mid .encode s) (k) : Safe (encodeEod k s) := by
  unfold encodeEod
  split
  · exact safe_beginWrite h (by simp [commandPoints]) (fun t h1 h2 _ _ => by simp [pointInv, h1, h2]) (h.completed _)
  · exact h.failed (by simp)
theorem safe_walkLoop {p k} (h : Mid i s) (hp : p ∈ commandPoints i) (hi : ∀ t : State, t.eng.pp = p → (t.tree.nodes.get t.eng.work.cur).isInt = true → pointInv i t)
   (hk : ∀ y, Safe (k y s)) : Safe (walkLoop p k s) := by
  unfold walkLoop
  split
  · rename_i hn; exact (h.setPp _).at hp (hi _ rfl (by simp [hn, Node.isInt]))
  · exact hk _
theorem safe_decodeSymbol {s : State} (h : Mid .decode s) (y) : Safe (decodeSymbol y s) := by
  unfold decodeSymbol
  split
  · exact h.completed _
  · rw [beginWrite_some (bitsMsb_ne_nil _ (by omega))]
    exact (h.standWrite _ _).at (by simp [commandPoints]) (by simp [pointInv]; exact bitsMsb_ne_nil _ (by omega))
theorem safe_decodeNext {s : State} (h : Mid .decode s) : Safe (decodeNext s) :=
  safe_walkLoop ((h.setWork _).setWork _) (by simp [commandPoints]) (fun t h1 h2 => by simp [pointInv, h1, h2]) (fun y => safe_decodeSymbol ((h.setWork _).setWork _) y)

theorem inv_of_mid_start (h : Mid i s) (hp : s.eng.pp = .start) : s.Inv := by
  obtain ⟨h1, h2, h3, h4, h5⟩ := h
  refine ⟨h2, h3, h4, fun _ => ?_⟩
  rw [h5]; exact ⟨.inl hp, by simp [pointInv, hp]⟩

theorem safe_read {onBit onEod} (h : Mid i s) (hb : ∀ b c, Mid i (s.setInp c) → Safe (onBit b (s.setInp c))) (he : Safe (onEod s)) :
   (performRead onBit onEod s).Post False State.Inv := by
  apply post_performRead
  · intro b c hc; exact hb b c (h.read hc)
  · intro _; exact he
theorem safe_readBits {n done eod} (h : Mid i s) (hd : ∀ v b c, Mid i (readBitsNext b (s.setInp c)) → Safe (done v (readBitsNext b (s.setInp c)))) (he : ∀ k, Safe (eod k s))
   (hm : ∀ b c, s.eng.work.rk + 1 ≠ n → Mid i (readBitsNext b (s.setInp c)) → (readBitsNext b (s.setInp c)).Inv) :
   (performReadBits n done eod s).Post False State.Inv := by
  apply post_performReadBits
  · intro b c hc _; exact hd _ _ _ ((h.read hc).readBitsNext b)
  · intro b c hc hn; exact hm b c hn ((h.read hc).readBitsNext b)
  · intro _; exact he _
theorem safe_write {k} (h : Mid i s) (hw : s.eng.work.wq ≠ []) (hk : ∀ o, Mid i (writeNext o [] s) → Safe (k (writeNext o [] s)))
   (hm : ∀ o rest, rest ≠ [] → Mid i (writeNext o rest s) → (writeNext o rest s).Inv) : (performWrite k s).Post False State.Inv := by
  apply post_performWrite
  · intro h0; exact hw h0
  · intro b o _ ho; exact hk o (h.write ho _)
  · intro b rest o _ hr ho; exact hm o rest hr (h.write ho _)

end Sys2Proof.Machine
end

