-- ==== Sys2Proof/Laws/Serial.lean ====
section
/-! SUPPORT. What `SERIALIZE` and `DESERIALIZE` do with one subtree (43_tree_serial.md R240, R245). -/

namespace Sys2Proof.Machine

/-! ### SERIALIZE -/

/-- `SERIALIZE` of one whole subtree, its root on top of the stack: its bits are written, and the loop goes on with the rest
of the stack. -/
theorem serialize_subtree (sh : Shape) : ∀ (m : Nat) (s : State) (rest : List StkEntry), sh.fits s.tree.nodes →
    s.eng.work.stk = nodeEntry sh.root :: rest → s.out.tailZero → s.out.hasRoom s.params.outDepth (sh.ser.length + m) →
    ∃ s0 u, serializeLoop s = .atPrimitive s0 ∧ (s0.eng.pp = .serInt ∨ s0.eng.pp = .serLeaf) ∧ s0.out = s.out ∧ s0.params = s.params ∧
      u.eng.work.stk = rest ∧ u.eng.work.nbits = s.eng.work.nbits + BitVec.ofNat 32 sh.ser.length ∧
      outBits u.out = outBits s.out ++ sh.ser ∧ u.out.tailZero ∧ u.out.hasRoom s.params.outDepth m ∧
      u.out.bitsOut = s.out.bitsOut + BitVec.ofNat 32 sh.ser.length ∧
      u.result = s.result ∧ u.status = s.status ∧ u.inp = s.inp ∧ u.freq = s.freq ∧ u.tree = s.tree ∧ EngineKeeps s u ∧
      ∀ t, (serializeLoop u).toMicro = .ran t → microSteps .serialize sh.ser.length s0 = .next t := by
  induction sh with
  | leaf x sym =>
    intro m s rest hf hstk hz hr
    have hn : s.tree.nodes.get (nodeEntry (Shape.leaf x sym).root).ix = .leaf sym := hf
    have hl := serializeLoop_cons hstk
    rw [hn] at hl
    dsimp only at hl
    let bits := false :: bitsMsb 9 (BitVec.ofNat 9 sym.val)
    let s0 := standWrite .serLeaf bits (s.setWork { s.eng.work with stk := rest, x := x })
    obtain ⟨o, w1, w2, w3, w4, w5⟩ := microSteps_write exec_serialize_serLeaf m bits s0 rfl rfl (by simp [bits]) hr hz
    refine ⟨s0, (writeNext o [] s0).setWork { (writeNext o [] s0).eng.work with nbits := s.eng.work.nbits + 10 }, hl, .inr rfl, by simp [s0], by simp [s0], by simp [s0], ?_, ?_, ?_, ?_, ?_, by simp [s0], by simp [s0], by simp [s0], by simp [s0], by simp [s0], ?_, ?_⟩
    · simp [Shape.ser]
    · simpa [s0, Shape.ser, bits] using w1
    · simpa using w2
    · simpa [s0] using w3
    · simpa [s0, Shape.ser, bits] using w4
    · exact ((((EngineKeeps.refl s).setWork _).standWrite _ _).writeNext _ _).setWork _
    · intro t ht
      exact w5 t ht
  | int x l r hl hr =>
    intro m s rest hf hstk hz hroom
    obtain ⟨hn, hfl, hfr⟩ := hf
    have hn : s.tree.nodes.get (nodeEntry (Shape.int x l r).root).ix = .int l.root r.root := hn
    have hl0 := serializeLoop_cons hstk
    rw [hn] at hl0
    dsimp only at hl0
    let s0 := standWrite .serInt [true] (s.setWork { s.eng.work with stk := rest, x := x })
    have hlen : (Shape.int x l r).ser.length = l.ser.length + r.ser.length + 1 := by simp [Shape.ser]
    rw [hlen] at hroom ⊢
    obtain ⟨o, ho, hroom1⟩ := writeBit_room (c := s0.out) (k := l.ser.length + (r.ser.length + m)) (depth := s0.params.outDepth) (by simpa [s0, Nat.add_assoc, Nat.add_comm, Nat.add_left_comm] using hroom) true
    obtain ⟨w1, w2, w3⟩ := writeBit_some ho hz
    let s1 := (writeNext o [] s0).setWork { (writeNext o [] s0).eng.work with nbits := s.eng.work.nbits + 1, stk := nodeEntry l.root :: nodeEntry r.root :: rest }
    have e1 : exec .serialize s0 = (serializeLoop s1).toMicro.outcome s0 := by
      rw [exec_serialize_serInt _ rfl, performWrite_last (b := true) rfl ho]
      unfold serializeInt
      have : (writeNext o [] s0).tree.nodes.get (writeNext o [] s0).eng.work.x = .int l.root r.root := hn
      simp only [this]; rfl
    obtain ⟨a0, u1, a1, a2, a3, a4, a5, a6, a7, a8, a9, a10, a11, a12, a13, a14, a15, a16, a17⟩ := hl (r.ser.length + m) s1 (nodeEntry r.root :: rest) (by simpa [s1, s0] using hfl) rfl (by simpa [s1] using w3) (by simpa [s1, s0] using hroom1)
    obtain ⟨b0, u2, b1, b2, b3, b4, b5, b6, b7, b8, b9, b10, b11, b12, b13, b14, b15, b16, b17⟩ := hr m u1 rest (by rw [a15]; simpa [s1, s0] using hfr) a5 a8 (by rw [a16.params]; exact a9)
    have q1 : s1.params = s.params := by simp [s1, s0]
    have q2 : s1.out = o := by simp [s1]
    have q3 : s0.out = s.out := by simp [s0]
    have q4 : s1.result = s.result := by simp [s1, s0]
    have q5 : s1.status = s.status := by simp [s1, s0]
    have q6 : s1.inp = s.inp := by simp [s1, s0]
    have q7 : s1.freq = s.freq := by simp [s1, s0]
    have q8 : s1.tree = s.tree := by simp [s1, s0]
    have q9 : s1.eng.work.nbits = s.eng.work.nbits + 1 := by simp [s1]
    have k1 : EngineKeeps s s1 := ((((EngineKeeps.refl s).setWork _).standWrite _ _).writeNext _ _).setWork _
    refine ⟨s0, u2, hl0, .inl rfl, by simp [s0], by simp [s0], b5, ?_, ?_, b8, ?_, ?_, by rw [b11, a11, q4], by rw [b12, a12, q5], by rw [b13, a13, q6], by rw [b14, a14, q7], by rw [b15, a15, q8], (k1.trans a16).trans b16, ?_⟩
    · rw [b6, a6, q9, ofNat_succ_count, BitVec.ofNat_add]; simp only [BitVec.add_assoc]
    · rw [b7, a7, q2, w1, q3]; simp [Shape.ser]
    · rw [a16.params, q1] at b9; exact b9
    · rw [b10, a10, q2, w2, q3, ofNat_succ_count, BitVec.ofNat_add]; simp only [BitVec.add_assoc]
    · intro t ht
      rw [microSteps_succ (t := a0) (by rw [e1, a1]; rfl), microSteps_add (a17 b0 (by rw [b1]; rfl))]
      exact b17 t ht

/-! ### DESERIALIZE -/

/-- The number of nodes of a tree. -/
def Shape.nodeCount (sh : Shape) : Nat := 2 * sh.symbols.length - 1
theorem Shape.nodeCount_int (x l r) : Shape.nodeCount (.int x l r) = 1 + Shape.nodeCount l + Shape.nodeCount r := by
  have := List.length_pos_of_ne_nil l.symbols_ne_nil
  have := List.length_pos_of_ne_nil r.symbols_ne_nil
  simp [Shape.nodeCount, Shape.symbols]; omega
theorem Shape.nodeCount_pos (sh) : 0 < Shape.nodeCount sh := by
  have := List.length_pos_of_ne_nil sh.symbols_ne_nil
  simp [Shape.nodeCount]; omega

/-- The tree with its nodes numbered in pre-order from `n` (43_tree_serial.md R245). -/
def Shape.renumber : Nat → Shape → Shape
  | n, .leaf _ sym => .leaf (Fin.ofNat 513 n) sym
  | n, .int _ l r => .int (Fin.ofNat 513 n) (Shape.renumber (n+1) l) (Shape.renumber (n + 1 + Shape.nodeCount l) r)

theorem Shape.renumber_symbols (sh) : ∀ n, (Shape.renumber n sh).symbols = sh.symbols := by
  induction sh with
  | leaf => intro n; rfl
  | int x l r hl hr => intro n; simp [Shape.renumber, Shape.symbols, hl, hr]
theorem Shape.renumber_nodeCount (n sh) : Shape.nodeCount (Shape.renumber n sh) = Shape.nodeCount sh := by simp [Shape.nodeCount, Shape.renumber_symbols]
theorem Shape.renumber_codes (sh) : ∀ n, (Shape.renumber n sh).codes = sh.codes := by
  induction sh with
  | leaf => intro n; rfl
  | int x l r hl hr => intro n; simp [Shape.renumber, Shape.codes, hl, hr]
theorem Shape.renumber_ser (sh) : ∀ n, (Shape.renumber n sh).ser = sh.ser := by
  induction sh with
  | leaf => intro n; rfl
  | int x l r hl hr => intro n; simp [Shape.renumber, Shape.ser, hl, hr]
theorem Shape.renumber_root (sh n) : (Shape.renumber n sh).root = Fin.ofNat 513 n := by cases sh <;> rfl
theorem Shape.renumber_isInt (sh n) : (Shape.renumber n sh).isInt = sh.isInt := by cases sh <;> rfl
theorem ofNat_val {n : Nat} (h : n < 513) : (Fin.ofNat 513 n).val = n := Nat.mod_eq_of_lt h
theorem Shape.renumber_indices (sh) : ∀ n, n + Shape.nodeCount sh ≤ 513 → (Shape.renumber n sh).indices.map Fin.val = List.range' n (Shape.nodeCount sh) := by
  induction sh with
  | leaf x sym => intro n h; have := Shape.nodeCount_pos (.leaf x sym); simp [Shape.renumber, Shape.indices, Shape.nodeCount, Shape.symbols]; omega
  | int x l r hl hr =>
    intro n h
    rw [Shape.nodeCount_int] at h ⊢
    simp only [Shape.renumber, Shape.indices, List.map_cons, List.map_append]
    rw [hl _ (by omega), hr _ (by omega), ofNat_val (by omega)]
    rw [show 1 + Shape.nodeCount l + Shape.nodeCount r = (Shape.nodeCount l + Shape.nodeCount r) + 1 by omega, List.range'_succ, ← List.range'_append_1]
theorem Shape.mem_renumber (sh n) (h : n + Shape.nodeCount sh ≤ 513) {x : NodeIx} (hx : x ∈ (Shape.renumber n sh).indices) : n ≤ x.val ∧ x.val < n + Shape.nodeCount sh := by
  have : x.val ∈ (Shape.renumber n sh).indices.map Fin.val := List.mem_map_of_mem hx
  rw [Shape.renumber_indices sh n h, List.mem_range'_1] at this
  exact this

/-- The nodes after the link to the node `x` has been written (43_tree_serial.md R245). -/
def linked (e : StkEntry) (x : NodeIx) (nodes : Vector Node 513) : Vector Node 513 :=
  if e.noParent then nodes else nodes.set e.ix.val (linkChild e.side x (nodes.get e.ix)) e.ix.isLt

theorem get_linked (e x nodes) (y : NodeIx) (h : e.noParent = true ∨ y ≠ e.ix) : (linked e x nodes).get y = nodes.get y := by
  unfold linked
  split
  · rfl
  · rcases h with h | h
    · rename_i h'; exact absurd h h'
    · exact get_set_ne _ (Ne.symm h) _

/-- `DESERIALIZE` of one whole subtree, the entry of its root on top of the stack: its bits are read, its nodes are numbered in
pre-order, its link is written, and the loop goes on with the rest of the stack. -/
theorem deserialize_subtree (sh : Shape) : ∀ (s : State) (e : StkEntry) (stk : List StkEntry) (rest : List Bool),
    s.eng.work.stk = e :: stk → s.eng.work.nn + Shape.nodeCount sh ≤ 513 → s.eng.work.ni + sh.symbols.length ≤ 257 →
    sh.symbols.Nodup → (∀ y ∈ sh.symbols, s.eng.work.seen.get y = false) → (e.noParent = true ∨ e.ix.val < s.eng.work.nn) →
    inBits s.inp = sh.ser ++ rest →
    ∃ s0 u, deserializeLoop s = .atPrimitive s0 ∧ s0.eng.pp = .desMark ∧ s0.inp = s.inp ∧ EngineKeeps s s0 ∧
      u.eng.work.stk = stk ∧ u.eng.work.nn = s.eng.work.nn + Shape.nodeCount sh ∧ u.eng.work.ni = s.eng.work.ni + (sh.symbols.length - 1) ∧
      u.eng.work.nbits = s.eng.work.nbits + BitVec.ofNat 32 sh.ser.length ∧
      (∀ y, u.eng.work.seen.get y = (s.eng.work.seen.get y || decide (y ∈ sh.symbols))) ∧
      inBits u.inp = rest ∧
      (∀ y : NodeIx, y.val < s.eng.work.nn → u.tree.nodes.get y = (linked e (Fin.ofNat 513 s.eng.work.nn) s.tree.nodes).get y) ∧
      (Shape.renumber s.eng.work.nn sh).fits u.tree.nodes ∧
      u.result = s.result ∧ u.status = s.status ∧ u.out = s.out ∧ u.freq = s.freq ∧ EngineKeeps s u ∧
      ∀ t, (deserializeLoop u).toMicro = .ran t → microSteps .deserialize sh.ser.length s0 = .next t := by
  induction sh with
  | leaf x sym =>
    intro s e stk rest hstk hnn hni hnd hseen hpar hin
    have hlt : s.eng.work.nn < 513 := by have := Shape.nodeCount_pos (.leaf x sym); omega
    let x0 : NodeIx := ⟨s.eng.work.nn, hlt⟩
    have hx0 : Fin.ofNat 513 s.eng.work.nn = x0 := Fin.ext (ofNat_val hlt)
    let w0 : Work := { s.eng.work with stk := stk, x := x0, nn := s.eng.work.nn + 1 }
    let s0 : State := ((s.setTree { s.tree with nodes := linked e x0 s.tree.nodes }).setWork w0).setPp .desMark
    have hl : deserializeLoop s = .atPrimitive s0 := by
      unfold deserializeLoop
      simp only [hstk, hlt, dite_true]
      unfold s0 linked
      cases e.noParent <;> rfl
    -- the marker
    have hin0 : inBits s0.inp = false :: (bitsMsb 9 (BitVec.ofNat 9 sym.val) ++ rest) := hin
    obtain ⟨c1, hr1, hb1⟩ := readBit_of_inBits hin0
    let s1 : State := standRead .desSym ((s0.setInp c1).setWork { w0 with nbits := w0.nbits + 1 })
    have h1 : exec .deserialize s0 = .next s1 := by
      rw [exec_deserialize_desMark _ rfl]
      simp only [performRead, hr1]
      rfl
    have hbl : (bitsMsb 9 (BitVec.ofNat 9 sym.val)).length = 9 := by simp
    obtain ⟨c, g1, g2, g3, s2, g4, g5⟩ := microSteps_read exec_deserialize_desSym (bitsMsb 9 (BitVec.ofNat 9 sym.val)) rest s1 rfl hb1 (bitsMsb_ne_nil _ (by omega)) (by rw [hbl]; rfl)
    have hw : List.foldl shiftIn s1.eng.work.rv (bitsMsb 9 (BitVec.ofNat 9 sym.val)) = BitVec.ofNat 32 sym.val := by
      change wordOfBits _ = _
      rw [wordOfBits_bitsMsb 9 _ (by omega) (by omega)]
      apply BitVec.eq_of_toNat_eq
      have := sym.isLt
      simp; omega
    rw [hw] at g4 g5
    let u : State := (s2.setTree (modifyNode (fun _ => .leaf sym) s2.eng.work.x s2.tree)).setWork
      { s2.eng.work with nbits := s2.eng.work.nbits + 9, seen := s2.eng.work.seen.set sym.val true sym.isLt, nl := s2.eng.work.nl + 1 }
    have hv : (BitVec.ofNat 32 sym.val).toNat = sym.val := by have := sym.isLt; simp; omega
    have hsx : s2.eng.work.seen.get sym = false := by rw [g4]; exact hseen sym (by simp [Shape.symbols])
    have h2 : deserializeSymbol (BitVec.ofNat 32 sym.val) s2 = deserializeLoop u := by
      unfold deserializeSymbol
      have hh : (BitVec.ofNat 32 sym.val).toNat < 257 := by rw [hv]; exact sym.isLt
      have he : (⟨(BitVec.ofNat 32 sym.val).toNat, hh⟩ : Sys2Proof.Symbol) = sym := Fin.ext hv
      simp only [hh, dite_true, he, hsx, Bool.false_eq_true, if_false]
      simp only [hv]; rfl
    have r1 : s2.tree = { s.tree with nodes := linked e x0 s.tree.nodes } := by rw [g4]; simp [s1, s0, w0]
    have r2 : s2.eng.work.x = x0 := by rw [g4]; simp [s1, s0, w0]
    have r3 : s2.eng.work.nn = s.eng.work.nn + 1 := by rw [g4]; simp [s1, s0, w0]
    have r4 : s2.eng.work.ni = s.eng.work.ni := by rw [g4]; simp [s1, s0, w0]
    have r5 : s2.eng.work.nbits = s.eng.work.nbits + 1 := by rw [g4]; simp [s1, s0, w0]
    have r6 : s2.eng.work.seen = s.eng.work.seen := by rw [g4]; simp [s1, s0, w0]
    have r7 : s2.inp = c := by rw [g4]; simp [s1, s0, w0]
    have r8 : s2.eng.work.stk = stk := by rw [g4]; simp [s1, s0, w0]
    have r9 : EngineKeeps s s2 := by
      rw [g4]; exact ((((((((EngineKeeps.refl s).setTree _).setWork _).setPp _).setInp _).setWork _).standRead _).setInp _).setWork _
    have r10 : s2.result = s.result := by rw [g4]; simp [s1, s0, w0]
    have r11 : s2.status = s.status := by rw [g4]; simp [s1, s0, w0]
    have r12 : s2.out = s.out := by rw [g4]; simp [s1, s0, w0]
    have r13 : s2.freq = s.freq := by rw [g4]; simp [s1, s0, w0]
    clear g4
    refine ⟨s0, u, hl, rfl, rfl, (((EngineKeeps.refl s).setTree _).setWork _).setPp _, r8, ?_, ?_, ?_, ?_, by rw [← g1]; exact congrArg inBits r7, ?_, ?_, r10, r11, r12, r13, (r9.setTree _).setWork _, ?_⟩
    · exact r3
    · exact r4
    · change s2.eng.work.nbits + 9 = _
      rw [r5]; simp [Shape.ser, BitVec.add_assoc]
    · intro y
      change (s2.eng.work.seen.set sym.val true sym.isLt).get y = _
      rw [get_set, r6]
      by_cases hy : sym = y <;> simp [hy, Shape.symbols, eq_comm]
    · intro y hy
      change (s2.tree.nodes.set s2.eng.work.x.val (.leaf sym) s2.eng.work.x.isLt).get y = _
      rw [r1]; simp only [r2]
      rw [hx0]
      exact get_set_ne _ (by intro h; rw [← h] at hy; exact absurd hy (by simp [x0])) _
    · change (s2.tree.nodes.set s2.eng.work.x.val (.leaf sym) s2.eng.work.x.isLt).get (Fin.ofNat 513 s.eng.work.nn) = .leaf sym
      rw [hx0]; simp only [r2]; exact get_set_self ..
    · intro t ht
      rw [show (Shape.leaf x sym).ser.length = 9 + 1 by simp [Shape.ser], microSteps_succ h1]
      have := g5 t (by rw [h2]; exact ht)
      rw [hbl] at this; exact this
  | int x l r hl hr =>
    intro s e stk rest hstk hnn hni hnd hseen hpar hin
    have hll := List.length_pos_of_ne_nil l.symbols_ne_nil
    have hlr := List.length_pos_of_ne_nil r.symbols_ne_nil
    have hsl : (Shape.int x l r).symbols.length = l.symbols.length + r.symbols.length := by simp [Shape.symbols]
    rw [Shape.nodeCount_int] at hnn ⊢
    rw [hsl] at hni ⊢
    have hlt : s.eng.work.nn < 513 := by have := Shape.nodeCount_pos l; omega
    let x0 : NodeIx := ⟨s.eng.work.nn, hlt⟩
    have hx0 : Fin.ofNat 513 s.eng.work.nn = x0 := Fin.ext (ofNat_val hlt)
    let w0 : Work := { s.eng.work with stk := stk, x := x0, nn := s.eng.work.nn + 1 }
    let s0 : State := ((s.setTree { s.tree with nodes := linked e x0 s.tree.nodes }).setWork w0).setPp .desMark
    have hloop : deserializeLoop s = .atPrimitive s0 := by
      unfold deserializeLoop
      simp only [hstk, hlt, dite_true]
      unfold s0 linked
      cases e.noParent <;> rfl
    have hin0 : inBits s0.inp = true :: (l.ser ++ (r.ser ++ rest)) := by
      change inBits s.inp = _
      rw [hin]; simp [Shape.ser]
    obtain ⟨c1, hr1, hb1⟩ := readBit_of_inBits hin0
    let s1 : State := ((s0.setInp c1).setTree (modifyNode makeInternal x0 s0.tree)).setWork { w0 with nbits := s.eng.work.nbits + 1, ni := s.eng.work.ni + 1, stk := ⟨x0, .left, false⟩ :: ⟨x0, .right, false⟩ :: stk }
    have h1 : exec .deserialize s0 = (deserializeLoop s1).toMicro.outcome s0 := by
      rw [exec_deserialize_desMark _ rfl]
      simp only [performRead, hr1]
      unfold deserializeMark
      have : ¬ s.eng.work.ni = 256 := by omega
      simp only [if_true]
      rw [if_neg (by exact this)]; rfl
    simp only [Shape.symbols, List.nodup_append] at hnd
    have hdisj : ∀ y ∈ l.symbols, y ∉ r.symbols := fun y h1 h2 => (hnd.2.2 y h1 y h2) rfl
    obtain ⟨a0, u1, a1, a2, a3, a4, a5, a6, a7, a8, a9, a10, a11, a12, a13, a14, a15, a16, a17, a18⟩ := hl s1 ⟨x0, .left, false⟩ (⟨x0, .right, false⟩ :: stk) (r.ser ++ rest) rfl (by change s.eng.work.nn + 1 + _ ≤ _; omega) (by change s.eng.work.ni + 1 + _ ≤ _; omega) hnd.1 (fun y hy => hseen y (by simp [Shape.symbols, hy])) (.inr (Nat.lt_succ_self _)) hb1
    have v1 : s1.eng.work.nn = s.eng.work.nn + 1 := rfl
    have v2 : s1.eng.work.ni = s.eng.work.ni + 1 := rfl
    have v3 : s1.eng.work.seen = s.eng.work.seen := rfl
    have v4 : s1.eng.work.nbits = s.eng.work.nbits + 1 := rfl
    rw [v1] at a6 a11 a12
    rw [v2] at a7
    rw [v3] at a9
    obtain ⟨b0, u2, b1, b2, b3, b4, b5, b6, b7, b8, b9, b10, b11, b12, b13, b14, b15, b16, b17, b18⟩ := hr u1 ⟨x0, .right, false⟩ stk rest a5 (by omega) (by omega) hnd.2.1 (fun y hy => by
      rw [a9 y, hseen y (by simp [Shape.symbols, hy])]; simp; intro h; exact hdisj y h hy) (.inr (by change s.eng.work.nn < _; omega)) a10
    rw [a6] at b6 b11 b12
    have k1 : EngineKeeps s s1 := (((((((EngineKeeps.refl s).setTree _).setWork _).setPp _).setInp _).setTree _).setWork _)
    have hnl := Shape.nodeCount_pos l
    have hnr := Shape.nodeCount_pos r
    have hx1 : (Fin.ofNat 513 (s.eng.work.nn + 1)).val = s.eng.work.nn + 1 := ofNat_val (by omega)
    -- node x0 after both
    have hs1n : s1.tree.nodes.get x0 = makeInternal ((linked e x0 s.tree.nodes).get x0) := get_set_self ..
    have hq1 := a11 x0 (by simp [x0])
    have hq2 := b11 x0 (by simp [x0]; omega)
    have hlk : ∀ (nd : Vector Node 513) side y, (linked ⟨x0, side, false⟩ y nd).get x0 = linkChild side y (nd.get x0) := by
      intro nd side y
      exact get_set_self nd x0 _
    rw [hlk, hs1n] at hq1
    rw [hlk, hq1] at hq2
    have hne : ∀ y : NodeIx, y.val < s.eng.work.nn → y ≠ x0 := by
      intro y hy h; rw [h] at hy; exact absurd hy (by simp [x0])
    refine ⟨s0, u2, hloop, rfl, rfl, (((EngineKeeps.refl s).setTree _).setWork _).setPp _, b5, by omega, by omega, ?_, ?_, b10, ?_, ?_, by rw [b13, a13]; simp [s1, s0], by rw [b14, a14]; simp [s1,s0], by rw [b15, a15]; simp [s1,s0], by rw [b16, a16]; simp [s1,s0], (k1.trans a17).trans b17, ?_⟩
    · rw [b8, a8, v4]
      rw [show (Shape.int x l r).ser.length = (l.ser.length + r.ser.length) + 1 by simp [Shape.ser], ofNat_succ_count, BitVec.ofNat_add]
      simp only [BitVec.add_assoc]
    · intro y
      rw [b9, a9]; simp [Shape.symbols, Bool.or_assoc]
    · intro y hy
      rw [b11 y (by omega), get_linked _ _ _ _ (.inr (hne y hy)), a11 y (by omega), get_linked _ _ _ _ (.inr (hne y hy)), hx0]
      exact get_set_ne _ (hne y hy).symm _
    · refine ⟨?_, ?_, ?_⟩
      · rw [hx0, hq2, Shape.renumber_root, Shape.renumber_root]
        rw [show s.eng.work.nn + 1 + Shape.nodeCount l = s.eng.work.nn + 1 + Shape.nodeCount l from rfl]
        cases (linked e x0 s.tree.nodes).get x0 <;> rfl
      · refine Shape.fits_congr ?_ a12
        intro y hy
        obtain ⟨m1, m2⟩ := Shape.mem_renumber l _ (by omega) hy
        rw [b11 y (by omega)]
        refine get_linked _ _ _ _ (.inr ?_)
        intro h; rw [h] at m1; simp [x0] at m1
      · exact b12
    · intro t ht
      rw [show (Shape.int x l r).ser.length = (l.ser.length + r.ser.length) + 1 by simp [Shape.ser], microSteps_succ (t := a0) (by rw [h1, a1]; rfl), microSteps_add (a18 b0 (by rw [b1]; rfl))]
      exact b18 t ht

end Sys2Proof.Machine
end

