-- ==== Sys2Proof/Laws/Growing.lean ====
section
/-! SUPPORT. The tree that `DESERIALIZE` is building (43_tree_serial.md R245): what each of its continuations keeps. -/

namespace Sys2Proof.Machine

theorem linkAll_get_ne : ∀ (stk : List StkEntry) (fill : List Shape) (nodes : Vector Node 513) (x : NodeIx),
    (∀ e ∈ stk, e.noParent = true ∨ e.ix ≠ x) → (linkAll stk fill nodes).get x = nodes.get x
  | [], fill, nodes, x, _ => by cases fill <;> rfl
  | e :: stk, [], nodes, x, _ => rfl
  | e :: stk, f :: fill, nodes, x, h => by
    unfold linkAll
    rw [linkAll_get_ne stk fill _ x (fun e he => h e (List.mem_cons_of_mem _ he))]
    split
    · rfl
    · rename_i hn
      exact get_set_ne _ ((h e (by simp)).resolve_left hn) _

/-- The links written below a bound depend on the nodes below it alone. -/
theorem linkAll_congr (n : Nat) : ∀ (stk : List StkEntry) (fill : List Shape) (nodes nodes' : Vector Node 513),
    (∀ x : NodeIx, x.val < n → nodes.get x = nodes'.get x) → (∀ e ∈ stk, e.noParent = false → e.ix.val < n) →
    ∀ x : NodeIx, x.val < n → (linkAll stk fill nodes).get x = (linkAll stk fill nodes').get x
  | [], fill, nodes, nodes', h, _, x, hx => by cases fill <;> exact h x hx
  | e :: stk, [], nodes, nodes', h, _, x, hx => h x hx
  | e :: stk, f :: fill, nodes, nodes', h, hs, x, hx => by
    unfold linkAll
    refine linkAll_congr n stk fill _ _ ?_ (fun e he => hs e (List.mem_cons_of_mem _ he)) x hx
    intro y hy
    split
    · exact h y hy
    · rename_i hn
      have := h e.ix (hs e (by simp) (by simpa using hn))
      rw [get_set, get_set, this, h y hy]

/-- The first tree put into the pending slots is numbered first. -/
theorem fill_root {f : Shape} {fill : List Shape} {n : Nat}
    (h : ((f :: fill).flatMap Shape.indices).map Fin.val = List.range' n ((f :: fill).flatMap Shape.indices).length) : f.root.val = n := by
  have hr : ∃ l, f.indices = f.root :: l := by cases f <;> exact ⟨_, rfl⟩
  obtain ⟨l, hr⟩ := hr
  rw [List.flatMap_cons, hr] at h
  simp only [List.cons_append, List.map_cons, List.length_cons, List.range'_succ] at h
  exact (List.cons.inj h).1

/-- The node being read becomes a leaf. -/
theorem Fillable.leaf {nodes : Vector Node 513} {x : NodeIx} {stk : List StkEntry} {syms : List Symbol}
    (h : Fillable nodes x.val (⟨0, .left, true⟩ :: stk) syms) (hs : ∀ e ∈ stk, e.noParent = false ∧ e.ix.val < x.val) (sym : Symbol) :
    Fillable (nodes.set x.val (.leaf sym) x.isLt) (x.val + 1) stk (syms ++ [sym]) := by
  intro fill nodes' hlen hidx hfit hag
  have hx : nodes'.get x = .leaf sym := by
    rw [hag x (by omega), linkAll_get_ne _ _ _ _ (fun e he => .inr (fun h => by have := (hs e he).2; rw [h] at this; omega)), get_set_self]
  obtain ⟨sh, h1, h2, h3, h4⟩ := h (.leaf x sym :: fill) nodes' (by simp [hlen]) (by
    simp only [List.flatMap_cons, Shape.indices, List.cons_append, List.nil_append, List.map_cons, List.length_cons, List.range'_succ]
    rw [hidx]) (by
    intro f hf
    rcases List.mem_cons.mp hf with rfl | hf
    · exact hx
    · exact hfit f hf) (by
    intro y hy
    have hne : x ≠ y := fun e => by rw [e] at hy; omega
    rw [hag y (by omega)]
    change _ = (linkAll stk fill nodes).get y
    exact linkAll_congr x.val stk fill _ _ (fun z hz => get_set_ne _ (fun e => by rw [e] at hz; omega) _) (fun e he _ => (hs e he).2) y hy)
  refine ⟨sh, h1, h2, ?_, ?_⟩
  · simp only [List.flatMap_cons, Shape.indices, List.cons_append, List.nil_append, List.length_cons] at h3
    rw [show x.val + 1 + (fill.flatMap Shape.indices).length = x.val + ((fill.flatMap Shape.indices).length + 1) by omega]
    exact h3
  · simpa [Shape.symbols] using h4

/-- The node being read becomes internal, with its two slots pending. -/
theorem Fillable.int {nodes : Vector Node 513} {x : NodeIx} {stk : List StkEntry} {syms : List Symbol}
    (h : Fillable nodes x.val (⟨0, .left, true⟩ :: stk) syms) (hs : ∀ e ∈ stk, e.noParent = false ∧ e.ix.val < x.val) :
    Fillable (nodes.set x.val (makeInternal (nodes.get x)) x.isLt) (x.val + 1) (⟨x, .left, false⟩ :: ⟨x, .right, false⟩ :: stk) syms := by
  intro fill nodes' hlen hidx hfit hag
  match fill, hlen with
  | f :: g :: fill, hlen =>
    have hx : nodes'.get x = .int f.root g.root := by
      rw [hag x (by omega)]
      simp only [linkAll]
      rw [linkAll_get_ne _ _ _ _ (fun e he => .inr (fun h => by have := (hs e he).2; rw [h] at this; omega))]
      simp only [Bool.false_eq_true, if_false, get_set_self]
      cases nodes.get x <;> rfl
    obtain ⟨sh, h1, h2, h3, h4⟩ := h (.int x f g :: fill) nodes' (by simpa using hlen) (by
      simp only [List.flatMap_cons, Shape.indices, List.cons_append, List.map_cons, List.length_cons, List.range'_succ]
      simp only [List.flatMap_cons, ← List.append_assoc] at hidx
      rw [hidx]) (by
      intro k hk
      rcases List.mem_cons.mp hk with rfl | hk
      · exact ⟨hx, hfit f (by simp), hfit g (by simp)⟩
      · exact hfit k (by simp [hk])) (by
      intro y hy
      rw [hag y (by omega)]
      simp only [linkAll, Bool.false_eq_true, if_false, if_true]
      refine linkAll_congr x.val stk fill _ _ (fun z hz => ?_) (fun e he _ => (hs e he).2) y hy
      have hne : x ≠ z := fun e => by rw [e] at hz; omega
      rw [get_set_ne _ hne, get_set_ne _ hne, get_set_ne _ hne])
    refine ⟨sh, h1, h2, ?_, ?_⟩
    · simp only [List.flatMap_cons, Shape.indices, List.cons_append, List.length_cons, List.length_append] at h3 ⊢
      rw [show x.val + 1 + (f.indices.length + (g.indices.length + (fill.flatMap Shape.indices).length)) = x.val + (f.indices.length + g.indices.length + (fill.flatMap Shape.indices).length + 1) by omega]
      exact h3
    · simpa [Shape.symbols] using h4

/-- A slot is popped: the next node is numbered and its parent's link is written. -/
theorem Fillable.pop {nodes : Vector Node 513} {x : NodeIx} {e : StkEntry} {stk : List StkEntry} {syms : List Symbol}
    (h : Fillable nodes x.val (e :: stk) syms) :
    Fillable (linked e x nodes) x.val (⟨0, .left, true⟩ :: stk) syms := by
  intro fill nodes' hlen hidx hfit hag
  match fill, hlen with
  | f :: fill, hlen =>
    refine h (f :: fill) nodes' (by simpa using hlen) hidx hfit ?_
    intro y hy
    rw [hag y hy]
    have hr : f.root = x := Fin.ext (fill_root hidx)
    simp only [linkAll, linked, hr, if_true]

/-- With no slot pending, the nodes are one tree. -/
theorem Fillable.done {nodes : Vector Node 513} {nn : Nat} {syms : List Symbol} (h : Fillable nodes nn [] syms) :
    ∃ sh : Shape, sh.fits nodes ∧ sh.root = 0 ∧ (sh.indices.map Fin.val).Perm (List.range nn) ∧ sh.symbols.Perm syms := by
  obtain ⟨sh, h1, h2, h3, h4⟩ := h [] nodes rfl rfl (by simp) (fun x _ => rfl)
  exact ⟨sh, h1, h2, by simpa using h3, by simpa using h4⟩

theorem treeInv_notBusy {t : State} (hb : t.status.busy = false) (hv : t.tree.valid = true → HoldsTree t.tree) : TreeInv t :=
  ⟨hv, fun h => by rw [hb] at h; cases h⟩

theorem tree_deserializeEnd {s : State} (hv : s.tree.valid = false) (hnn : s.eng.work.nn ≤ 513) {syms : List Symbol} (hnd : syms.Nodup)
    (hseen : ∀ y, s.eng.work.seen.get y = true ↔ y ∈ syms) (hf : Fillable s.tree.nodes s.eng.work.nn [] syms) : (deserializeEnd s).Post True TreeInv := by
  unfold deserializeEnd
  dsimp only
  cases hn : s.tree.nodes.get 0 with
  | leaf y => exact treeInv_notBusy rfl (fun h => by simp at h; rw [hv] at h; cases h)
  | int l r =>
    dsimp only
    split
    · rename_i hs
      refine treeInv_notBusy (by simp) (fun _ => ?_)
      obtain ⟨sh, h1, h2, h3, h4⟩ := hf.done
      have hsnd : sh.symbols.Nodup := h4.nodup_iff.mpr hnd
      have hint : sh.isInt = true := by rw [← Shape.fits_isInt h1, h2, hn]; rfl
      have hlen := h3.length_eq
      simp at hlen
      have hi := sh.indices_length
      have hcard : sh.symbols.length ≤ 257 := by have := hsnd.length_le_card; simpa using this
      have h2le : 2 ≤ sh.symbols.length := by
        cases sh with
        | leaf => cases hint
        | int x l r =>
          have := List.length_pos_of_ne_nil l.symbols_ne_nil
          have := List.length_pos_of_ne_nil r.symbols_ne_nil
          simp [Shape.symbols]; omega
      refine ⟨sh, ⟨by simpa using h1, by simpa using h2, ?_, hint, hsnd, h4.mem_iff.mpr ((hseen _).mp hs), ⟨h2le, hcard⟩, ?_⟩, ?_⟩
      · simp
        rw [Nat.mod_eq_of_lt (by omega)]; exact h3
      · simp; omega
      · have := buildCodes_spec h1 hsnd
        rw [h2] at this
        simpa [CodesOk] using this
    · exact treeInv_notBusy rfl (fun h => by simp at h; rw [hv] at h; cases h)

theorem tree_deserializeLoop {s : State} (hv : s.tree.valid = false) (hnn : s.eng.work.nn ≤ 513)
    (hp : ∀ e ∈ s.eng.work.stk, e.noParent = false ∧ e.ix.val < s.eng.work.nn) {syms : List Symbol} (hnd : syms.Nodup)
    (hseen : ∀ y, s.eng.work.seen.get y = true ↔ y ∈ syms) (hf : Fillable s.tree.nodes s.eng.work.nn s.eng.work.stk syms) : (deserializeLoop s).Post True TreeInv := by
  unfold deserializeLoop
  dsimp only
  split
  · rename_i hs
    rw [hs] at hf
    exact tree_deserializeEnd hv hnn hnd hseen hf
  · rename_i e rest hs
    split
    · rename_i hlt
      rw [hs] at hf hp
      have he := hp e (by simp)
      rw [if_neg (by simp [he.1])]
      have hpop := Fillable.pop (x := ⟨s.eng.work.nn, hlt⟩) hf
      refine ⟨fun h => ?_, fun _ _ _ => ⟨?_, ?_, ?_, syms, hnd, ?_, ?_⟩⟩
      · simp [modifyNode, hv] at h
      · simp [modifyNode, hv]
      · simp
      · intro k hk; simp at hk ⊢; exact hp k (by simp [hk])
      · simpa using hseen
      · simp only [linked, he.1] at hpop
        simpa [modifyNode] using hpop
    · trivial

theorem tree_mark {s : State} (g : Growing s) (hc : s.eng.work.counts) (b : Bool) : (deserializeMark b s).Post True TreeInv := by
  obtain ⟨g1, g2, g3, syms, g4, g5, g6⟩ := g
  obtain ⟨c1, c2, c3⟩ := hc
  unfold deserializeMark
  dsimp only
  split
  · split
    · exact treeInv_notBusy rfl (fun h => by simp at h; rw [g1] at h; cases h)
    · refine tree_deserializeLoop (syms := syms) (by simp [modifyNode, g1]) (by simp; omega) ?_ g4 (by simpa using g5) ?_
      · intro e he
        simp at he ⊢
        rcases he with rfl | rfl | he
        · simp; omega
        · simp; omega
        · have := g3 e he; exact ⟨this.1, by omega⟩
      · have := g6.int g3
        rw [g2] at this
        simpa [modifyNode] using this
  · refine ⟨fun h => ?_, fun _ _ _ => ⟨by simpa using g1, by simpa using g2, by simpa using g3, syms, g4, by simpa using g5, by simpa using g6⟩⟩
    simp [g1] at h

theorem tree_symbol {s : State} (g : Growing s) (hc : s.eng.work.counts) (v : Word) : (deserializeSymbol v s).Post True TreeInv := by
  obtain ⟨g1, g2, g3, syms, g4, g5, g6⟩ := g
  obtain ⟨c1, c2, c3⟩ := hc
  unfold deserializeSymbol
  dsimp only
  split
  · rename_i hv
    split
    · exact treeInv_notBusy rfl (fun h => by simp at h; rw [g1] at h; cases h)
    · rename_i hns
      have hnm : (⟨v.toNat, hv⟩ : Symbol) ∉ syms := fun h => hns ((g5 _).mpr h)
      refine tree_deserializeLoop (syms := syms ++ [⟨v.toNat, hv⟩]) (by simp [modifyNode, g1]) (by simp; omega) ?_ ?_ ?_ ?_
      · intro e he
        simp at he ⊢
        have := g3 e he; exact ⟨this.1, by omega⟩
      · rw [List.nodup_append]; refine ⟨g4, by simp, ?_⟩
        intro a ha b hb e; simp at hb; subst hb; subst e; exact hnm ha
      · intro y
        simp only [State.setWork_eng]
        rw [get_set _ y ⟨v.toNat, hv⟩]
        split
        · rename_i e; simp [← e]
        · rename_i e
          rw [g5]; simp; intro h; exact absurd h.symm e
      · have := g6.leaf g3 ⟨v.toNat, hv⟩
        rw [g2] at this
        simpa [modifyNode] using this
  · exact treeInv_notBusy rfl (fun h => by simp at h; rw [g1] at h; cases h)

theorem growing_first (s : State) : Growing (deserializeFirst s) := by
  refine ⟨rfl, rfl, by simp [deserializeFirst], [], by simp, by simp [deserializeFirst], ?_⟩
  intro fill nodes' hlen hidx hfit hag
  have : (deserializeFirst s).eng.work.stk = [] := rfl
  rw [this] at hlen hag
  match fill, hlen with
  | [f], _ =>
    refine ⟨f, hfit f (by simp), Fin.ext (fill_root hidx), ?_, by simp⟩
    have h0 : (deserializeFirst s).eng.work.x.val = 0 := rfl
    rw [h0] at hidx ⊢
    simp only [List.flatMap_cons, List.flatMap_nil, List.append_nil] at hidx ⊢
    rw [hidx, List.range_eq_range']; simp

theorem growing_congr {s t : State} (h : Growing s) (e1 : t.tree = s.tree) (e2 : t.eng.work.x = s.eng.work.x) (e3 : t.eng.work.nn = s.eng.work.nn)
   (e4 : t.eng.work.stk = s.eng.work.stk) (e5 : t.eng.work.seen = s.eng.work.seen) : Growing t := by
  obtain ⟨g1, g2, g3, syms, g4, g5, g6⟩ := h
  exact ⟨by rw [e1, g1], by rw [e2, e3, g2], by rw [e4, e2]; exact g3, syms, g4, by rw [e5]; exact g5, by rw [e1, e2, e4]; exact g6⟩

theorem tree_desMark {s : State} (g : Growing s) (hc : s.eng.work.counts) : (performRead deserializeMark (fail .truncated) s).Post True TreeInv := by
  apply post_performRead
  · intro b c _
    exact tree_mark (s := s.setInp c) (growing_congr g rfl rfl rfl rfl rfl) hc b
  · intro _
    exact treeInv_notBusy rfl (fun h => by simp at h; rw [g.invalid] at h; cases h)
theorem tree_desSym {s : State} (g : Growing s) (hc : s.eng.work.counts) : (performReadBits 9 deserializeSymbol (fun _ => fail .truncated) s).Post True TreeInv := by
  apply post_performReadBits
  · intro b c _ _
    exact tree_symbol (s := readBitsNext b (s.setInp c)) (growing_congr g rfl rfl rfl rfl rfl) hc _
  · intro b c _ _
    refine ⟨fun h => ?_, fun _ _ _ => growing_congr g rfl rfl rfl rfl rfl⟩
    simp [g.invalid] at h
  · intro _
    exact treeInv_notBusy rfl (fun h => by simp at h; rw [g.invalid] at h; cases h)

end Sys2Proof.Machine
end

