-- ==== Sys2Proof/Laws/PerInstr.lean ====
section
/-! SUPPORT. Laws about the syntax of every command, one lemma per constructor: the assembled word carries the command's
opcode in bits [7:0] and zeros in bits [31:23] (30_encoding.md R140, R160). -/

namespace Sys2Proof.Laws.OpcodeField

/-- The assembled word has the command's opcode in `OP` and 0 in `RSV`. -/
def Statement (i : Instr) : Prop := opField (encode i) = i.opcode ∧ rsvField (encode i) = 0

/-- It holds of any command: the assembled word is the word of its fields. -/
theorem of_assemble (i : Instr) : Statement i := by
  unfold Statement
  rw [encode_eq_assemble]
  exact ⟨opField_assemble _ _ _ _, rsvField_assemble _ _ _ _⟩

theorem nop : Statement (.nop) := of_assemble _
theorem freqClear : Statement (.freqClear) := of_assemble _
theorem freqWrite (sym : BitVec 10) : Statement (.freqWrite sym) := of_assemble _
theorem freqRead (sym : BitVec 10) : Statement (.freqRead sym) := of_assemble _
theorem freqCount : Statement (.freqCount) := of_assemble _
theorem build : Statement (.build) := of_assemble _
theorem serialize : Statement (.serialize) := of_assemble _
theorem deserialize : Statement (.deserialize) := of_assemble _
theorem encode : Statement (.encode) := of_assemble _
theorem encodeSym (sym : BitVec 10) : Statement (.encodeSym sym) := of_assemble _
theorem decode : Statement (.decode) := of_assemble _
theorem decodeSym : Statement (.decodeSym) := of_assemble _
theorem putBits (nm1 : BitVec 5) : Statement (.putBits nm1) := of_assemble _
theorem getBits (nm1 : BitVec 5) : Statement (.getBits nm1) := of_assemble _
theorem flush : Statement (.flush) := of_assemble _
theorem alignIn : Statement (.alignIn) := of_assemble _
theorem magicWrite : Statement (.magicWrite) := of_assemble _
theorem magicCheck : Statement (.magicCheck) := of_assemble _
theorem nodeRead (node : BitVec 10) : Statement (.nodeRead node) := of_assemble _
theorem codeLenRead (sym : BitVec 10) : Statement (.codeLenRead sym) := of_assemble _
theorem codeBitsRead (sym : BitVec 10) (w : BitVec 5) : Statement (.codeBitsRead sym w) := of_assemble _

end Sys2Proof.Laws.OpcodeField
end

