-- ==== Sys2Proof/Tests/Slice0.lean ====
section
/-! SUPPORT. The model's own tests, with values from spec/95_test_vectors.md and from the encodings of 30_encoding.md, and
the witnesses of the obligations' hypotheses. -/

namespace Sys2Proof.Tests

open Sys2Proof Sys2Proof.Machine

set_option maxRecDepth 20000

/-! ### WellFormed refuses an ill-formed term of each check (30_encoding.md R145) -/

theorem test_wf_freqWrite : ¬ (Instr.freqWrite 256#10).WellFormed := by decide
theorem test_wf_freqRead : ¬ (Instr.freqRead 257#10).WellFormed := by decide
theorem test_wf_encodeSym : ¬ (Instr.encodeSym 257#10).WellFormed := by decide
theorem test_wf_nodeRead : ¬ (Instr.nodeRead 513#10).WellFormed := by decide
theorem test_wf_codeLenRead : ¬ (Instr.codeLenRead 257#10).WellFormed := by decide
theorem test_wf_codeBitsRead_sym : ¬ (Instr.codeBitsRead 257#10 0#5).WellFormed := by decide
theorem test_wf_codeBitsRead_word : ¬ (Instr.codeBitsRead 0#10 8#5).WellFormed := by decide
theorem test_wf_bounds :
    (Instr.freqWrite 255#10).WellFormed ∧ (Instr.freqRead 256#10).WellFormed ∧ (Instr.encodeSym 256#10).WellFormed ∧
    (Instr.nodeRead 512#10).WellFormed ∧ (Instr.codeLenRead 256#10).WellFormed ∧
    (Instr.codeBitsRead 256#10 7#5).WellFormed := by decide

/-! ### Words written out field by field, `RSV ++ N ++ IDX ++ OP` (30_encoding.md R141, R143) -/

theorem test_decode_nop :
    decode (0b000000000#9 ++ 0b00000#5 ++ 0b0000000000#10 ++ 0b00000000#8) = .ok .nop := by decide
theorem test_decode_freqClear :
    decode (0b000000000#9 ++ 0b00000#5 ++ 0b0000000000#10 ++ 0b00000001#8) = .ok .freqClear := by decide
theorem test_decode_freqWrite :
    decode (0b000000000#9 ++ 0b00000#5 ++ 0b0001000001#10 ++ 0b00000010#8) = .ok (.freqWrite 0x41#10) := by decide
theorem test_decode_freqRead :
    decode (0b000000000#9 ++ 0b00000#5 ++ 0b0100000000#10 ++ 0b00000011#8) = .ok (.freqRead 256#10) := by decide
theorem test_decode_freqCount :
    decode (0b000000000#9 ++ 0b00000#5 ++ 0b0000000000#10 ++ 0b00000100#8) = .ok .freqCount := by decide
theorem test_decode_build :
    decode (0b000000000#9 ++ 0b00000#5 ++ 0b0000000000#10 ++ 0b00000101#8) = .ok .build := by decide
theorem test_decode_serialize :
    decode (0b000000000#9 ++ 0b00000#5 ++ 0b0000000000#10 ++ 0b00000110#8) = .ok .serialize := by decide
theorem test_decode_deserialize :
    decode (0b000000000#9 ++ 0b00000#5 ++ 0b0000000000#10 ++ 0b00000111#8) = .ok .deserialize := by decide
theorem test_decode_encode :
    decode (0b000000000#9 ++ 0b00000#5 ++ 0b0000000000#10 ++ 0b00001000#8) = .ok .encode := by decide
theorem test_decode_encodeSym :
    decode (0b000000000#9 ++ 0b00000#5 ++ 0b0001000010#10 ++ 0b00001001#8) = .ok (.encodeSym 0x42#10) := by decide
theorem test_decode_decode :
    decode (0b000000000#9 ++ 0b00000#5 ++ 0b0000000000#10 ++ 0b00001010#8) = .ok .decode := by decide
theorem test_decode_decodeSym :
    decode (0b000000000#9 ++ 0b00000#5 ++ 0b0000000000#10 ++ 0b00001011#8) = .ok .decodeSym := by decide
theorem test_decode_putBits :
    decode (0b000000000#9 ++ 0b11111#5 ++ 0b0000000000#10 ++ 0b00001100#8) = .ok (.putBits 31#5) := by decide
theorem test_decode_getBits :
    decode (0b000000000#9 ++ 0b00011#5 ++ 0b0000000000#10 ++ 0b00001101#8) = .ok (.getBits 3#5) := by decide
theorem test_decode_flush :
    decode (0b000000000#9 ++ 0b00000#5 ++ 0b0000000000#10 ++ 0b00001110#8) = .ok .flush := by decide
theorem test_decode_alignIn :
    decode (0b000000000#9 ++ 0b00000#5 ++ 0b0000000000#10 ++ 0b00001111#8) = .ok .alignIn := by decide
theorem test_decode_magicWrite :
    decode (0b000000000#9 ++ 0b00000#5 ++ 0b0000000000#10 ++ 0b00010000#8) = .ok .magicWrite := by decide
theorem test_decode_magicCheck :
    decode (0b000000000#9 ++ 0b00000#5 ++ 0b0000000000#10 ++ 0b00010001#8) = .ok .magicCheck := by decide
theorem test_decode_nodeRead :
    decode (0b000000000#9 ++ 0b00000#5 ++ 0b1000000000#10 ++ 0b00010010#8) = .ok (.nodeRead 512#10) := by decide
theorem test_decode_codeLenRead :
    decode (0b000000000#9 ++ 0b00000#5 ++ 0b0001000001#10 ++ 0b00010011#8) = .ok (.codeLenRead 0x41#10) := by decide
theorem test_decode_codeBitsRead :
    decode (0b000000000#9 ++ 0b00111#5 ++ 0b0001000010#10 ++ 0b00010100#8) = .ok (.codeBitsRead 0x42#10 7#5) := by decide


/-! ### Illegal words (95_test_vectors.md V-W2 to V-W10) -/

theorem test_illegal_opcode : decode 0x00000015#32 = .error .reservedOpcode ∧ decode 0x000000FF#32 = .error .reservedOpcode := by decide
theorem test_illegal_rsv : decode 0x00800000#32 = .error .reservedBits ∧ decode 0x80000005#32 = .error .reservedBits := by decide
theorem test_illegal_idx : decode 0x00000100#32 = .error .nonzeroIdx ∧ decode 0x0000010C#32 = .error .nonzeroIdx := by decide
theorem test_illegal_n :
    decode 0x00040002#32 = .error .nonzeroN ∧ decode 0x0004FF02#32 = .error .nonzeroN ∧ decode 0x00050002#32 = .error .nonzeroN := by
  decide

/-! ### Small states -/

/-- An instance with small FIFOs. -/
abbrev smallParams : Params := ⟨0x1000, 4, 4, 0x00000736#32⟩

/-- That instance after reset. -/
abbrev fresh : State := State.resetWith smallParams

/-- The node memory of V-B1. -/
abbrev aabNodes : Vector Node 513 :=
  ((((Vector.replicate 513 (Node.leaf 0)).set 0 (.leaf 0x41)).set 1 (.leaf 0x42)).set 2 (.leaf 256)).set 3 (.int 1 2) |>.set 4 (.int 0 3)

/-- The tree of V-B1. -/
abbrev aabTree : TreeMem := ⟨aabNodes, .replicate 513 0, buildCodes aabNodes 4, 4, 5, true⟩

/-- The instance holding the tree of V-B1, idle. -/
abbrev aab : State := fresh.setTree aabTree

/-- `s` with the command `i` just accepted. -/
abbrev accepted (i : Instr) (s : State) : State := acceptCommand (encode i) s

/-- `s` with its engine at a program point. -/
abbrev standing (p : ProgPoint) (w : Work) (s : State) : State := s.setEng { s.eng with pp := p, work := w }

/-- `s` with an input channel that holds these bytes. -/
abbrev input (bytes : List Byte) (ended : Bool) (s : State) : State := s.setInp ⟨bytes, ended, 0, 0, 0⟩

/-- What holds of the next state, if the outcome is one. -/
def onNext (o : Host.Outcome State Fault Refusal) (p : State → Bool) : Bool :=
  match o with
  | .next t => p t
  | .fault _ => false
  | .refused _ => false

/-! ### One step of each command (95_test_vectors.md; the vector's name in each docstring) -/

/-- V-W1. -/
theorem test_nop : onNext (step (fresh.withFetchWord 32 0x00000000)) (fun t => statusWord t == 0x00000002#32 && t.result == 0) = true := by
  decide
/-- V-W17. -/
theorem test_freqClear :
    onNext (step (fresh.withFetchWord 32 0x00000001)) (fun t => statusWord t == 0x00010002#32) = true := by decide
/-- V-F7. -/
theorem test_freqClear_clears :
    onNext (step ((fresh.setFreq (fresh.freq.set 0x41 2)).withFetchWord 32 0x00000001)) (fun t => freqAt t.freq 0x41 == 0) = true := by
  decide
/-- V-F6. -/
theorem test_freqWrite :
    onNext (step ((fresh.setArg 2).withFetchWord 32 0x00004102))
      (fun t => freqAt t.freq 0x41 == 2 && freqAt t.freq 0x42 == 0 && t.result == 0 && t.status.done) = true := by decide
/-- V-W11. -/
theorem test_freqWrite_range : onNext (step (fresh.withFetchWord 32 0x00010002)) (fun t => statusWord t == 0x00020204#32) = true := by
  decide
/-- V-F4. -/
theorem test_freqRead : onNext (step (fresh.withFetchWord 32 0x00010003)) (fun t => t.result == 1 && t.status.done) = true := by decide
/-- V-F5. -/
theorem test_freqRead_range :
    onNext (step (fresh.withFetchWord 32 0x00010103)) (fun t => t.status.errcode == .badArg && t.status.err && t.result == 0) = true := by
  decide
/-- V-F8. -/
theorem test_freqCount_empty :
    onNext (step ((input [] true fresh).withFetchWord 32 0x00000004))
      (fun t => t.status.done && t.result == 0 && t.inp.bitsIn == 0) = true := by decide
/-- V-F9, its last micro-step: the overflowing byte is consumed and not counted. -/
theorem test_freqCount_overflow :
    onNext (exec .freqCount (standing .freqByte { Work.reset with rk := 7, rv := 0x20, cnt := 1 }
        ((fresh.setInp ⟨[], true, 0x41, 1, 15⟩).setFreq (fresh.freq.set 0x41 0xFFFFFFFF#32))))
      (fun t => t.status.errcode == .freqOverflow && freqAt t.freq 0x41 == 0xFFFFFFFF#32 && t.inp.bitsIn == 16 && t.result == 0) = true := by
  decide
/-- V-B1. -/
theorem test_build :
    onNext (step ((fresh.setFreq ((fresh.freq.set 0x41 2).set 0x42 1)).withFetchWord 32 0x00000005))
      (fun t => t.tree.nodes.get 0 == .leaf 0x41 && t.tree.nodes.get 1 == .leaf 0x42 && t.tree.nodes.get 2 == .leaf 256 &&
        t.tree.nodes.get 3 == .int 1 2 && t.tree.nodes.get 4 == .int 0 3 && treeInfoWord t.tree == 0x00050004#32 &&
        t.result == 3 && statusWord t == 0x0005000A#32 && (codeAt t.tree 0x41).toBits == [false] &&
        (codeAt t.tree 0x42).toBits == [true, false] && (codeAt t.tree 256).toBits == [true, true]) = true := by decide +kernel
/-- V-W13. -/
theorem test_serialize_noTree : onNext (step (fresh.withFetchWord 32 0x00000006)) (fun t => statusWord t == 0x00060304#32) = true := by
  decide
/-- V-S1, its first bit. -/
theorem test_serialize_first :
    onNext (step (aab.withFetchWord 32 0x00000006)) (fun t => t.out.bwByte == 0x80#8 && t.out.bwCnt == 1 && t.status.busy) = true := by
  decide
/-- V-S16. -/
theorem test_deserialize_truncated :
    onNext (step ((input [] true fresh).withFetchWord 32 0x00000007))
      (fun t => t.status.errcode == .truncated && t.inp.bitsIn == 0 && t.tree.valid == false) = true := by decide
/-- V-S12, its last bit: symbol 257. -/
theorem test_deserialize_badSymbol :
    onNext (exec .deserialize (standing .desSym { Work.reset with rk := 8, rv := 0x80 } (fresh.setInp ⟨[], true, 0x20, 6, 10⟩)))
      (fun t => t.status.errcode == .badSymbol && t.inp.brCnt == 5 && t.inp.bitsIn == 11) = true := by decide
/-- V-E9. -/
theorem test_encode_noTree :
    onNext (step ((input [] true fresh).withFetchWord 32 0x00000008)) (fun t => t.status.errcode == .noTree && t.status.err) = true := by
  decide
/-- V-E3, the micro-step that ends the byte 0x43. -/
theorem test_encode_noCode :
    onNext (exec .encode (standing .encByte { Work.reset with rk := 7, rv := 0x21 } (aab.setInp ⟨[0x42], true, 0x43, 1, 15⟩)))
      (fun t => t.status.errcode == .noCode && t.inp.fifo == [0x42#8] && t.inp.bitsIn == 16) = true := by decide
/-- V-E15: `ENCODE_SYM 0x41` writes "0". -/
theorem test_encodeSym :
    onNext (step (aab.withFetchWord 32 0x00004109))
      (fun t => t.out.bwByte == 0 && t.out.bwCnt == 1 && t.result == 1 && t.status.done) = true := by decide
/-- V-E12. -/
theorem test_encodeSym_noCode :
    onNext (step (aab.withFetchWord 32 0x00004309)) (fun t => t.status.errcode == .noCode && t.out == aab.out) = true := by decide
/-- V-D3, its second bit: the sentinel at once. -/
theorem test_decode_sentinel :
    onNext (exec .decode (standing .decWalk { Work.reset with cur := 3 } (aab.setInp ⟨[], true, 0xC0, 7, 1⟩)))
      (fun t => t.status.done && t.result == 0 && t.inp.brCnt == 6 && t.out == aab.out) = true := by decide
/-- V-D2, its end. -/
theorem test_decode_truncated :
    onNext (exec .decode (standing .decWalk { Work.reset with cur := 4 } ((accepted .decode aab).setInp ⟨[], true, 0, 0, 8⟩)))
      (fun t => statusWord t == 0x000A041C#32 && t.inp.bitsIn == 8) = true := by decide
/-- V-D8. -/
theorem test_decodeSym :
    onNext (step ((aab.setInp ⟨[], true, 0x80, 1, 7⟩).withFetchWord 32 0x0000000B))
      (fun t => t.result == 0x41 && t.inp.brCnt == 0 && t.status.done) = true := by decide
/-- V-M5. -/
theorem test_putBits :
    onNext (step ((fresh.setArg 0xFFFFFFFE#32).withFetchWord 32 0x0000000C))
      (fun t => t.out.bwByte == 0 && t.out.bwCnt == 1 && t.status.done) = true := by decide
/-- V-M1, its first bit. -/
theorem test_putBits_first :
    onNext (step ((fresh.setArg 0x5#32).withFetchWord 32 0x0008000C))
      (fun t => t.out.bwByte == 0x80 && t.out.bwCnt == 1 && t.status.busy) = true := by decide
/-- V-M6, its last bit. -/
theorem test_getBits :
    onNext (exec (.getBits 3#5) (standing .getBit { Work.reset with rk := 3, rv := 0x5 } (fresh.setInp ⟨[], false, 0xA5, 5, 3⟩)))
      (fun t => t.result == 0xA && t.inp.brCnt == 4 && t.status.done) = true := by decide
/-- V-M10. -/
theorem test_getBits_truncated :
    onNext (step ((input [] true fresh).withFetchWord 32 0x0000000D)) (fun t => t.status.errcode == .truncated && t.status.err) = true := by
  decide
/-- V-M11. -/
theorem test_flush :
    onNext (step ((fresh.setOut ⟨[], 0x2C, 6, 6⟩).withFetchWord 32 0x0000000E))
      (fun t => t.out.fifo == [0x2C#8] && t.result == 2 && t.out.bwCnt == 0 && t.out.bitsOut == 6) = true := by decide
/-- V-M12. -/
theorem test_flush_aligned :
    onNext (step (fresh.withFetchWord 32 0x0000000E)) (fun t => t.result == 0 && t.out == fresh.out && t.status.done) = true := by decide
/-- V-M13. -/
theorem test_alignIn :
    onNext (step ((fresh.setInp ⟨[], true, 0x2C, 2, 6⟩).withFetchWord 32 0x0000000F))
      (fun t => t.result == 2 && t.inp.brCnt == 0 && t.inp.bitsIn == 6) = true := by decide
/-- V-M15, its last bit. -/
theorem test_magicWrite :
    onNext (exec .magicWrite (standing .magicOut { Work.reset with wq := [false] } (fresh.setOut ⟨[0x00, 0x00, 0x07], 0x36, 7, 31⟩)))
      (fun t => t.out.fifo == [0x00#8, 0x00#8, 0x07#8, 0x36#8] && t.out.bitsOut == 32 && t.status.done) = true := by decide
/-- V-M16, its last bit. -/
theorem test_magicCheck :
    onNext (exec .magicCheck (standing .magicIn { Work.reset with rk := 31, rv := 0x39B } (fresh.setInp ⟨[], false, 0x36, 1, 31⟩)))
      (fun t => t.result == 0x736 && t.status.done) = true := by decide
/-- V-M3, its last bit. -/
theorem test_magicCheck_bad :
    onNext (exec .magicCheck (standing .magicIn { Work.reset with rk := 31, rv := 0x23A924A7#32 }
        ((accepted .magicCheck fresh).setInp ⟨[], false, 0x4E, 1, 31⟩)))
      (fun t => t.result == 0x4752494E#32 && statusWord t == 0x00110C04#32 && t.inp.bitsIn == 32) = true := by decide
/-- V-I4. -/
theorem test_nodeRead : onNext (step (aab.withFetchWord 32 0x00000412)) (fun t => t.result == 0xC0000C00#32) = true := by decide
/-- V-I2 (the leaf of the sentinel). -/
theorem test_nodeRead_leaf : onNext (step (aab.withFetchWord 32 0x00000212)) (fun t => t.result == 0x80000100#32) = true := by decide
/-- V-I8. -/
theorem test_codeLenRead : onNext (step (aab.withFetchWord 32 0x00010013)) (fun t => t.result == 0x80000002#32) = true := by decide
/-- V-I8 (no leaf). -/
theorem test_codeLenRead_absent : onNext (step (aab.withFetchWord 32 0x00004313)) (fun t => t.result == 0 && t.status.done) = true := by
  decide
/-- V-I13. -/
theorem test_codeBitsRead : onNext (step (aab.withFetchWord 32 0x00004214)) (fun t => t.result == 0x80000000#32) = true := by decide
/-- V-I16. -/
theorem test_codeBitsRead_range :
    onNext (step (aab.withFetchWord 32 0x00204214)) (fun t => t.status.errcode == .badArg && t.status.err) = true := by decide

/-! ### The register block -/

/-- V-W18. -/
theorem test_identification :
    (readReg .id fresh).1 = 0x48554631#32 ∧ (readReg .inLevel (State.resetWith ⟨0, 16, 16, 0⟩)).1 = 0x00100000#32 ∧
    (readReg .reserved fresh).1 = 0 := by decide
/-- V-W14, V-W15: a dropped command, then the acknowledgement. -/
theorem test_drop_and_acknowledge :
    let s := fresh.setStatus ⟨false, false, true, false, false, .noTree, 6⟩
    statusWord (writeReg .cmd 0 s) = 0x00060344#32 ∧ statusWord (writeReg .status 0x66 (writeReg .cmd 0 s)) = 0x00060000#32 := by decide
/-- V-X10: ABORT, then IN_CLEAR sees BUSY = 0. -/
theorem test_abort_and_clear :
    let s := writeReg .ctrl 0x06 ((accepted .decode aab).setInp ⟨[], false, 0, 0, 8⟩)
    s.status.errcode = .aborted ∧ s.inp.bitsIn = 0 ∧ statusWord s = 0x000A0D0C#32 := by decide
/-- V-X6, V-D1 (POP of the first byte). -/
theorem test_push_and_pop :
    statusWord (writeReg .inData 0x41 (input [] true fresh)) = 0x00000030#32 ∧
    (readReg .outData (fresh.setOut ⟨[0x41, 0x42], 0, 0, 16⟩)).1 = 0x141#32 := by decide

/-! ### Witnesses: a concrete state and operands for every statement's hypotheses, clause by clause -/

/-- The tree of V-B1, with its node indices. -/
abbrev aabShape : Shape := .int 4 (.leaf 0 0x41) (.int 3 (.leaf 1 0x42) (.leaf 2 256))

theorem aab_fits : aabShape.fits aabTree.nodes := by
  simp only [Shape.fits, Shape.root]
  decide

theorem aab_treeOk : TreeOk aabTree aabShape where
  fits := aab_fits
  root := rfl
  nodes := by decide
  internal := rfl
  unique := by decide
  hasSentinel := by decide
  leaves := by decide
  count := by decide

theorem aab_codesOk : CodesOk aabTree aabShape := buildCodes_spec (sh := aabShape) aab_fits (by decide)

theorem aab_holdsTree : HoldsTree aabTree := ⟨aabShape, aab_treeOk, aab_codesOk⟩

theorem aab_code_41 : aabTree.codes.get 0x41 = leafEntry [false] := aab_codesOk.1 (0x41, [false]) (by decide)

theorem aab_code_256 : aabTree.codes.get 256 = leafEntry [true, true] := aab_codesOk.1 (256, [true, true]) (by decide)

theorem fresh_tailZero : fresh.out.tailZero := fun j _ => by change (0#8).getLsbD j = false; simp

theorem seven_tailZero (fifo : List Byte) : (⟨fifo, 0xFE, 7, 0⟩ : OutChan).tailZero := by
  intro j h
  obtain rfl : j = 0 := by change j < 8 - 7 at h; omega
  change (0xFE#8).getLsbD 0 = false
  decide

/-- The engine at a point, with the work variables of reset but for these bits to write. -/
abbrev writing (bits : List Bool) : Work := { Work.reset with wq := bits }

/-- The engine at a point, with the work variables of reset but for a `ReadBits` under way. -/
abbrev reading (rk : Nat) (rv : Word) : Work := { Work.reset with rk := rk, rv := rv }

theorem witness_EncodeInvertsDecode : decode 0x00004102#32 = .ok (.freqWrite 0x41#10) := by decide

theorem witness_DecodeFollowsOpcodeMap_legal :
    decode 0x00050014#32 = .ok (.codeBitsRead 256#10 1#5) ∧ opcodeMap[20]? = some ⟨0x00000014#32, 0xFF8000FF#32⟩ := by decide

theorem witness_DecodeFollowsOpcodeMap_illegal :
    decode 0x00000015#32 = .error .reservedOpcode ∧ (⟨0x00000000#32, 0xFFFFFFFF#32⟩ : OpcodeRow) ∈ opcodeMap := by decide

theorem witness_IllegalWordsRaiseIllegalCmd_step :
    let s := acceptCommand 0x80000005#32 fresh
    s.status.busy = true ∧ s.eng.pp = .start ∧ s.eng.cmd = 0x80000005#32 ∧ decode 0x80000005#32 = .error .reservedBits := by decide

theorem witness_IllegalWordsRaiseIllegalCmd_fields :
    0x15 ≤ (opField 0x00000015#32).toNat ∧ rsvField 0x00800000#32 ≠ 0 ∧
    (idxField 0x00000111#32 ≠ 0 ∧ (opField 0x00000111#32).toNat = 0x11) ∧
    (nField 0x00040013#32 ≠ 0 ∧ (opField 0x00040013#32).toNat = 0x13) := by decide

theorem witness_StepRunsLatchedCommand_alone :
    (accepted .nop fresh).status.busy = true ∧ decode (accepted .nop fresh).eng.cmd = .ok .nop ∧ (accepted .nop fresh).sched = [] := by
  decide

theorem witness_StepRunsLatchedCommand_engine :
    let s := (accepted .flush fresh).setSched [.engine, .engine]
    s.status.busy = true ∧ decode s.eng.cmd = .ok .flush ∧ s.sched = .engine :: [.engine] := by decide

theorem witness_StepRunsLatchedCommand_host :
    (fresh.setSched [.host ⟨0x1000, 4, .read⟩]).sched = .host ⟨0x1000, 4, .read⟩ :: [] := by decide

theorem witness_StepRunsLatchedCommand_fetch : decode (BitVec.ofNat 32 0x00004102) = .ok (.freqWrite 0x41#10) := by decide

theorem witness_IdleEngineTouchesNothing :
    fresh.status.busy = false ∧ fresh.sched = [] ∧ (fresh.setSched [.engine]).sched = .engine :: [] := by decide

theorem witness_OutOfRangeRaisesBadArg :
    (accepted (.codeBitsRead 0#10 8#5) fresh).eng.pp = .start ∧ ¬ (Instr.codeBitsRead 0#10 8#5).WellFormed := by decide

theorem witness_TreeCommandsRaiseNoTree :
    let s := accepted (.nodeRead 512#10) fresh
    needsTree (.nodeRead 512#10) = true ∧ s.eng.pp = .start ∧ (Instr.nodeRead 512#10).WellFormed ∧ s.tree.valid = false := by decide

theorem fresh_starved : fresh.inp.starved := ⟨by decide, by decide⟩

theorem ended_exhausted : (⟨[], true, 0, 0, 0⟩ : InChan).exhausted := ⟨rfl, rfl⟩

theorem witness_BlockedMicroStepChangesNothing_read :
    let s := standing .magicIn (reading 31 0) (accepted .magicCheck fresh)
    s.inp.starved ∧ s.eng.pp ∈ commandPoints .magicCheck ∧
    s.eng.pp ∈ [ProgPoint.freqByte, .desMark, .desSym, .encByte, .decWalk, .dsymWalk, .getBit, .magicIn] :=
  ⟨fresh_starved, by decide, by decide⟩

theorem witness_BlockedMicroStepChangesNothing_start :
    (accepted .deserialize fresh).inp.starved ∧ (accepted .deserialize fresh).eng.pp = .start ∧
    Instr.deserialize ∈ [Instr.freqCount, .deserialize, .magicCheck] := ⟨fresh_starved, by decide, by decide⟩

theorem witness_BlockedMicroStepChangesNothing_getBits :
    (accepted (.getBits 31#5) fresh).inp.starved ∧ (accepted (.getBits 31#5) fresh).eng.pp = .start := ⟨fresh_starved, by decide⟩

theorem witness_BlockedMicroStepChangesNothing_encode :
    (accepted .encode aab).inp.starved ∧ (accepted .encode aab).eng.pp = .start ∧ (accepted .encode aab).tree.valid = true :=
  ⟨fresh_starved, by decide, by decide⟩

theorem witness_BlockedMicroStepChangesNothing_decode :
    let s := accepted .decode aab
    s.inp.starved ∧ s.eng.pp = .start ∧ s.tree.valid = true ∧ (s.tree.nodes.get s.tree.root).isInt = true ∧
    Instr.decode ∈ [Instr.decode, .decodeSym] := ⟨fresh_starved, by decide, by decide, by decide, by decide⟩

theorem witness_BlockedMicroStepChangesNothing_write :
    let s := (standing .putBit (writing [true]) (accepted (.putBits 0#5) fresh)).setOut ⟨[1, 2, 3, 4], 0, 7, 39⟩
    s.out.bwCnt = 7 ∧ s.out.fifo.length = s.params.outDepth ∧ s.eng.work.wq ≠ [] ∧ s.eng.pp ∈ commandPoints (.putBits 0#5) ∧
    s.eng.pp ∈ [ProgPoint.serInt, .serLeaf, .encCode, .encEnd, .encSym, .decByte, .putBit, .magicOut] := by decide

theorem witness_BlockedMicroStepChangesNothing_firstWrite :
    let s (i : Instr) := (accepted i aab).setOut ⟨[1, 2, 3, 4], 0, 7, 39⟩
    (s (.putBits 31#5)).out.bwCnt = 7 ∧ (s (.putBits 31#5)).out.fifo.length = (s (.putBits 31#5)).params.outDepth ∧
    (s (.putBits 31#5)).eng.pp = .start ∧ (s .magicWrite).eng.pp = .start ∧
    (s .serialize).eng.pp = .start ∧ (s .serialize).tree.valid = true := by decide

theorem witness_BlockedMicroStepChangesNothing_flush :
    let s := (accepted .flush fresh).setOut ⟨[1, 2, 3, 4], 0, 1, 33⟩
    s.out.bwCnt ≠ 0 ∧ s.out.fifo.length = s.params.outDepth ∧ (s.eng.pp = .start ∨ s.eng.pp = .flushByte) := by decide

theorem witness_ResetGivesTheResetValues : (0x00000001#32).getLsbD 0 = true := by decide

theorem witness_ControlActionsInOrder : (0xFFFFFFFE#32).getLsbD 0 = false := by decide

theorem witness_CommandWriteAcceptedOrDropped :
    (accepted .build fresh).status.busy = true ∧ (raiseError .noTree fresh).status.err = true ∧
    fresh.status.busy = false ∧ fresh.status.err = false ∧ decode 0x00800000#32 = .error .reservedBits := by decide

theorem witness_InDataPushesOrDrops :
    (input [1] true fresh).inp.ended = true ∧ (input [1, 2, 3, 4] false fresh).inp.fifo.length = fresh.params.inDepth ∧
    (input [1, 2, 3] false fresh).inp.ended = false ∧ (input [1, 2, 3] false fresh).inp.fifo.length ≠ fresh.params.inDepth := by decide

theorem witness_OutDataPopsTheOldestByte :
    fresh.out.fifo = [] ∧ (fresh.setOut ⟨[0xFF], 0, 0, 8⟩).out.fifo = 0xFF :: [] ∧
    writeBit 4 true ⟨[0x01], 0xFE, 7, 15⟩ = some ⟨[0x01, 0xFF], 0, 0, 16⟩ ∧
    flushByte 4 ⟨[0x01], 0x80, 1, 9⟩ = some (7, ⟨[0x01, 0x80], 0, 0, 9⟩) := by decide

theorem witness_FiveRegistersReadFreelyWhileBusy :
    (accepted .build fresh).status.busy = true ∧ Reg.bitpos ∈ [Reg.result, .treeInfo, .bitsIn, .bitsOut, .bitpos] ∧
    aab.status.busy = false ∧ aab.tree.valid = true ∧ fresh.tree.valid = false := by decide

theorem witness_ReadsHaveNoSideEffect : Reg.inLevel ≠ .outData := by decide

theorem witness_HostAccessesLeaveTheEngineAlone :
    (∀ v, Reg.ctrl = .ctrl → AccessKind.write 0x0000001E#32 = .write v → v.getLsbD 0 = false) ∧ Reg.ctrl ≠ .cmd ∧
    Reg.reserved ∈ [Reg.id, .result, .treeInfo, .inLevel, .outLevel, .bitsIn, .bitsOut, .bitpos, .reserved] := by
  refine ⟨?_, by decide, by decide⟩
  rintro v - h
  cases h
  decide

theorem witness_HostAccessIsAlignedWordOrRefused :
    (0xFFF < fresh.params.base ∧ fresh.params.base + 0x40 ≤ 0x1040) ∧
    (fresh.params.base ≤ 0x103E ∧ 0x103E < fresh.params.base + 0x40 ∧ (0x103E - fresh.params.base) % 4 ≠ 0) ∧
    (fresh.params.base ≤ 0x103C ∧ 0x103C < fresh.params.base + 0x40 ∧ (0x103C - fresh.params.base) % 4 = 0) ∧
    (fresh.params.base ≤ 0x1000 ∧ (0x1000 - fresh.params.base) % 4 = 0) := by decide

theorem witness_ReadBitTakesTheNextBit :
    (⟨[], true, 0x80, 7, 0⟩ : InChan).brCnt.val = 6 + 1 ∧ (⟨[], true, 0x80, 1, 0⟩ : InChan).brCnt.val = 0 + 1 ∧
    ((⟨[0x80], true, 0, 0, 0⟩ : InChan).brCnt.val = 0 ∧ (⟨[0x80], true, 0, 0, 0⟩ : InChan).fifo = 0x80 :: []) ∧
    ((⟨[], true, 0, 0, 0⟩ : InChan).fifo = [] ∧ (⟨[], true, 0, 0, 0⟩ : InChan).ended = true) ∧
    ((⟨[], false, 0, 0, 0⟩ : InChan).fifo = [] ∧ (⟨[], false, 0, 0, 0⟩ : InChan).ended = false) := by decide

theorem witness_WriteBitAndFlushAppend_push :
    (⟨[], 0xFE, 7, 0⟩ : OutChan).tailZero ∧
    writeBit 4 true ⟨[], 0xFE, 7, 0⟩ = some ⟨[0xFF], 0, 0, 1⟩ ∧ flushByte 4 ⟨[], 0xFE, 7, 0⟩ = some (1, ⟨[0xFE], 0, 0, 0⟩) :=
  ⟨seven_tailZero _, by decide, by decide⟩

theorem witness_WriteBitAndFlushAppend_aligned :
    fresh.out.tailZero ∧ writeBit 4 true fresh.out = some ⟨[], 0x80, 1, 1⟩ ∧ flushByte 4 fresh.out = some (0, fresh.out) :=
  ⟨fresh_tailZero, by decide, by decide⟩

theorem witness_NopCompletes : (accepted .nop fresh).eng.pp = .start := by decide

theorem witness_FrequencyTableCommandsComplete :
    (accepted (.freqWrite 255#10) fresh).eng.pp = .start ∧ (255#10).toNat < 256 := by decide

theorem witness_FreqCountCountsAByte :
    let s := standing .freqByte (reading 7 0x20) ((accepted .freqCount fresh).setInp ⟨[], true, 0x41, 1, 7⟩)
    s.eng.pp = .freqByte ∧ s.eng.work.rk = 7 ∧ readBit s.inp = .bit true ⟨[], true, 0x41, 0, 8⟩ ∧
    ((shiftIn s.eng.work.rv true).setWidth 8).toNat = (0x41 : Fin 256).val ∧ s.freq.get 0x41 ≠ 0xFFFFFFFF#32 := by decide

theorem witness_FreqCountCountsAByte_overflow :
    let s := standing .freqByte (reading 7 0x7F)
      (((accepted .freqCount fresh).setInp ⟨[], true, 0xFF, 1, 7⟩).setFreq (fresh.freq.set 0xFF 0xFFFFFFFF#32))
    s.eng.pp = .freqByte ∧ s.eng.work.rk = 7 ∧ readBit s.inp = .bit true ⟨[], true, 0xFF, 0, 8⟩ ∧
    ((shiftIn s.eng.work.rv true).setWidth 8).toNat = (0xFF : Fin 256).val ∧ s.freq.get 0xFF = 0xFFFFFFFF#32 := by decide

theorem witness_FreqCountTotalsTheStream :
    let s := input [0x41, 0x42] true ((accepted .freqCount fresh).setFreq (fresh.freq.set 0x41 0xFFFFFFFE#32))
    s.eng.pp = .start ∧ inBits s.inp = [0x41#8, 0x42#8].flatMap (bitsMsb 8) ∧ s.inp.ended = true ∧
    (∀ k : Fin 256, (s.freq.get k).toNat + [0x41#8, 0x42#8].count (BitVec.ofNat 8 k.val) < 2 ^ 32) := by
  refine ⟨by decide, by decide, by decide, by decide +kernel⟩

theorem witness_FreqCountEndsAtEndOfData :
    (input [] true (accepted .freqCount fresh)).inp.exhausted ∧ (input [] true (accepted .freqCount fresh)).eng.pp = .start ∧
    (standing .freqByte (reading 0 0) (input [] true (accepted .freqCount fresh))).eng.work.rk = 0 ∧
    (standing .freqByte (reading 7 0) (input [] true (accepted .freqCount fresh))).eng.work.rk ≠ 0 :=
  ⟨ended_exhausted, by decide, by decide, by decide⟩

/-- The state about to build the tree of V-B1. -/
abbrev aabTable : State := accepted .build (fresh.setFreq ((fresh.freq.set 0x41 2).set 0x42 1))

theorem witness_BuildCompletesWithItsLeaves :
    aabTable.eng.pp = .start ∧ (leafSymbols aabTable.freq)[0]? = some 0x41 ∧ (leafSymbols aabTable.freq)[2]? = some 256 := by
  decide +kernel

theorem witness_BuildLeavesAValidTree : aabTable.eng.pp = .start ∧ ∃ t, exec .build aabTable = .next t :=
  ⟨by decide, _, exec_build_start aabTable (by decide)⟩

theorem witness_BuildMergesTheTwoLowest :
    ∃ t, aabTable.eng.pp = .start ∧ exec .build aabTable = .next t ∧ (4 : NodeIx) ≤ t.tree.root ∧ t.tree.nodes.get 4 = .int 0 3 ∧
      (2 : NodeIx) ≤ t.tree.root ∧ t.tree.nodes.get 2 = .leaf sentinel ∧ t.tree.nodes.get 0 = .leaf 0x41 :=
  ⟨_, by decide, exec_build_start aabTable (by decide), by decide +kernel⟩

theorem witness_BuildDependsOnlyOnTheTable :
    let s' := aabTable.setTree aabTree
    aabTable.eng.pp = .start ∧ s'.eng.pp = .start ∧ aabTable.freq = s'.freq ∧
    (∃ t, exec .build aabTable = .next t) ∧ ∃ t', exec .build s' = .next t' :=
  ⟨by decide, by decide, rfl, ⟨_, exec_build_start aabTable (by decide)⟩, _, exec_build_start (aabTable.setTree aabTree) (by decide)⟩

theorem witness_BuildOfEmptyTableGivesFillerTree :
    (accepted .build aab).eng.pp = .start ∧ (accepted .build aab).freq = .replicate 256 0 := ⟨by decide, rfl⟩

theorem witness_SerializeWritesPreOrder :
    let s := accepted .serialize aab
    s.eng.pp = .start ∧ s.tree.valid = true ∧ aabShape.fits s.tree.nodes ∧ aabShape.root = s.tree.root ∧ s.out.tailZero ∧
    s.out.hasRoom s.params.outDepth aabShape.ser.length :=
  ⟨by decide, by decide, aab_fits, by decide, fresh_tailZero, show _ ≤ _ by decide⟩

theorem witness_DeserializeReadsPreOrder :
    let s := input [0x88, 0x31, 0x09, 0x00, 0xFF] false (accepted .deserialize fresh)
    s.eng.pp = .start ∧ aabShape.isInt = true ∧ aabShape.symbols.Nodup ∧ sentinel ∈ aabShape.symbols ∧
    inBits s.inp = aabShape.ser ++ [true, true, true, true, true, true, true, true] := by decide

theorem witness_DeserializeChecksEachLeaf_bad :
    let s := standing .desSym (reading 8 0x80) ((accepted .deserialize fresh).setInp ⟨[], true, 0x20, 6, 10⟩)
    s.eng.pp = .desSym ∧ s.eng.work.rk = 8 ∧ readBit s.inp = .bit true ⟨[], true, 0x20, 5, 11⟩ ∧
    (shiftIn s.eng.work.rv true).toNat = 257 ∧ 256 < 257 := by decide

theorem witness_DeserializeChecksEachLeaf_duplicate :
    let s := standing .desSym { reading 8 0x80 with seen := Work.reset.seen.set 256 true }
      ((accepted .deserialize fresh).setInp ⟨[], true, 0x00, 6, 10⟩)
    s.eng.pp = .desSym ∧ s.eng.work.rk = 8 ∧ readBit s.inp = .bit false ⟨[], true, 0x00, 5, 11⟩ ∧
    (shiftIn s.eng.work.rv false).toNat = 256 ∧ (256 : Symbol).val = 256 ∧ s.eng.work.seen.get 256 = true := by decide

theorem witness_DeserializeChecksEachLeaf_leafRoot :
    let s := standing .desSym { reading 8 0x80 with nn := 1 } ((accepted .deserialize fresh).setInp ⟨[], true, 0x00, 7, 9⟩)
    s.eng.pp = .desSym ∧ s.eng.work.rk = 8 ∧ readBit s.inp = .bit false ⟨[], true, 0x00, 6, 10⟩ ∧
    (shiftIn s.eng.work.rv false).toNat = 256 ∧ (256 : Symbol).val = 256 ∧ s.eng.work.seen.get 256 = false ∧
    s.eng.work.stk = [] ∧ s.eng.work.x = 0 := by decide

theorem witness_DeserializeChecksEachLeaf_noSentinel :
    let s := standing .desSym { reading 8 0x21 with x := 2, nn := 3, seen := Work.reset.seen.set 0x41 true }
      (((accepted .deserialize fresh).setInp ⟨[], true, 0x00, 4, 20⟩).setTree
        { TreeMem.reset with nodes := (TreeMem.reset.nodes.set 0 (.int 1 2)).set 1 (.leaf 0x41) })
    s.eng.pp = .desSym ∧ s.eng.work.rk = 8 ∧ readBit s.inp = .bit false ⟨[], true, 0x00, 3, 21⟩ ∧
    (shiftIn s.eng.work.rv false).toNat = 0x42 ∧ (0x42 : Symbol).val = 0x42 ∧ s.eng.work.seen.get 0x42 = false ∧
    s.eng.work.stk = [] ∧ s.eng.work.x ≠ 0 ∧ (s.tree.nodes.get 0).isInt = true ∧ (0x42 : Symbol) ≠ sentinel ∧
    s.eng.work.seen.get sentinel = false := by decide

theorem witness_DeserializeChecksEachLeaf_complete :
    let s := standing .desSym { reading 8 0x80 with x := 2, nn := 3, seen := Work.reset.seen.set 0x41 true }
      (((accepted .deserialize fresh).setInp ⟨[], true, 0x00, 4, 20⟩).setTree
        { TreeMem.reset with nodes := (TreeMem.reset.nodes.set 0 (.int 1 2)).set 1 (.leaf 0x41) })
    s.eng.pp = .desSym ∧ s.eng.work.rk = 8 ∧ readBit s.inp = .bit false ⟨[], true, 0x00, 3, 21⟩ ∧
    (shiftIn s.eng.work.rv false).toNat = 256 ∧ (256 : Symbol).val = 256 ∧ s.eng.work.seen.get 256 = false ∧
    s.eng.work.stk = [] ∧ s.eng.work.x ≠ 0 ∧ (s.tree.nodes.get 0).isInt = true ∧ (256 : Symbol) = sentinel := by decide

theorem witness_DeserializeRefusesTooLargeAndTruncated_large :
    let s := standing .desMark { Work.reset with ni := 256, nn := 257, x := 256 }
      ((accepted .deserialize fresh).setInp ⟨[0xFF], false, 0xFF, 0, 256⟩)
    s.eng.pp = .desMark ∧ readBit s.inp = .bit true ⟨[], false, 0xFF, 7, 257⟩ ∧ s.eng.work.ni = 256 := by decide

theorem witness_DeserializeRefusesTooLargeAndTruncated_eod :
    let s := input [] true (accepted .deserialize fresh)
    s.inp.exhausted ∧ s.eng.pp = .start ∧ (standing .desSym (reading 8 0) s).inp.exhausted ∧
    (standing .desSym (reading 8 0) s).eng.pp ∈ [ProgPoint.desMark, .desSym] :=
  ⟨ended_exhausted, by decide, ended_exhausted, by decide⟩

theorem aab_codeAt_41 : codeAt aabTree (0x41#8).toNat = leafEntry [false] := by
  rw [← aab_code_41]
  exact codeAt_eq_get aabTree 0x41

theorem aab_codeAt_256 : codeAt aabTree 256 = leafEntry [true, true] := by
  rw [← aab_code_256]
  exact codeAt_eq_get aabTree 256

theorem witness_BlockedMicroStepChangesNothing_firstCodeBit :
    let s := (accepted (.encodeSym 256#10) aab).setOut ⟨[1, 2, 3, 4], 0, 7, 39⟩
    s.out.bwCnt = 7 ∧ s.out.fifo.length = s.params.outDepth ∧ s.eng.pp = .start ∧ s.tree.valid = true ∧
    (codeAt s.tree (256#10).toNat).valid = true ∧ (codeAt s.tree (256#10).toNat).toBits ≠ [] := by
  refine ⟨by decide, by decide, by decide, by decide, ?_⟩
  change (codeAt aabTree 256).valid = true ∧ (codeAt aabTree 256).toBits ≠ []
  rw [aab_codeAt_256, leafEntry_toBits (by decide)]
  exact ⟨rfl, by decide⟩

theorem witness_EncodeSymWritesTheCode_none :
    let s := accepted (.encodeSym 0x43#10) aab
    (0x43#10).toNat < 257 ∧ s.eng.pp = .start ∧ s.tree.valid = true ∧ (s.tree.codes.get 0x43).valid = false :=
  ⟨by decide, by decide, by decide, by
    change (aabTree.codes.get 0x43).valid = false
    rw [aab_codesOk.2 0x43 (by decide)]
    rfl⟩

theorem witness_EncodeSymWritesTheCode_some :
    let s := accepted (.encodeSym 256#10) aab
    (256#10).toNat < 257 ∧ s.eng.pp = .start ∧ s.tree.valid = true ∧ (s.tree.codes.get 256).valid = true ∧
    (s.tree.codes.get 256).toBits ≠ [] ∧ s.out.tailZero ∧ s.out.hasRoom s.params.outDepth (s.tree.codes.get 256).toBits.length := by
  refine ⟨by decide, by decide, by decide, ?_⟩
  change (aabTree.codes.get 256).valid = true ∧ (aabTree.codes.get 256).toBits ≠ [] ∧ fresh.out.tailZero ∧
    fresh.out.hasRoom 4 (aabTree.codes.get 256).toBits.length
  rw [aab_code_256, leafEntry_toBits (by decide)]
  exact ⟨rfl, by decide, fresh_tailZero, show _ ≤ _ by decide⟩

theorem aab_bodyBits : bodyBits aabTree [0x41] = [false, true, true] := by
  change (codeAt aabTree (0x41#8).toNat).toBits ++ (codeAt aabTree 256).toBits = _
  rw [aab_codeAt_41, aab_codeAt_256, leafEntry_toBits (by decide), leafEntry_toBits (by decide)]
  rfl

theorem witness_EncodeWritesTheBody :
    let s := input [0x41] true (accepted .encode aab)
    s.eng.pp = .start ∧ s.tree.valid = true ∧ inBits s.inp = [0x41#8].flatMap (bitsMsb 8) ∧ s.inp.ended = true ∧
    (∀ b ∈ [0x41#8], (codeAt s.tree b.toNat).valid = true ∧ (codeAt s.tree b.toNat).toBits ≠ []) ∧
    (codeAt s.tree 256).toBits ≠ [] ∧ s.out.tailZero ∧ s.out.hasRoom s.params.outDepth (bodyBits s.tree [0x41]).length := by
  refine ⟨by decide, by decide, by decide, by decide, ?_, ?_, fresh_tailZero, ?_⟩
  · intro b hb
    rw [List.mem_singleton.mp hb]
    change (codeAt aabTree (0x41#8).toNat).valid = true ∧ (codeAt aabTree (0x41#8).toNat).toBits ≠ []
    rw [aab_codeAt_41, leafEntry_toBits (by decide)]
    exact ⟨rfl, by decide⟩
  · change (codeAt aabTree 256).toBits ≠ []
    rw [aab_codeAt_256, leafEntry_toBits (by decide)]
    decide
  · change fresh.out.hasRoom 4 (bodyBits aabTree [0x41]).length
    rw [aab_bodyBits]
    exact show _ ≤ _ by decide

theorem witness_EncodeErrorsAndCompletion_noCode :
    let s := standing .encByte (reading 7 0x21) ((accepted .encode aab).setInp ⟨[0x42], true, 0x43, 1, 15⟩)
    s.eng.pp = .encByte ∧ s.eng.work.rk = 7 ∧ readBit s.inp = .bit true ⟨[0x42], true, 0x43, 0, 16⟩ ∧
    (codeAt s.tree ((shiftIn s.eng.work.rv true).setWidth 8).toNat).valid = false := by
  refine ⟨by decide, by decide, by decide, ?_⟩
  change (codeAt aabTree 0x43).valid = false
  have h : codeAt aabTree 0x43 = aabTree.codes.get 0x43 := codeAt_eq_get aabTree 0x43
  rw [h, aab_codesOk.2 0x43 (by decide)]
  rfl

theorem witness_EncodeErrorsAndCompletion_truncated :
    let s := standing .encByte (reading 1 0) (input [] true (accepted .encode aab))
    s.inp.exhausted ∧ s.eng.pp = .encByte ∧ s.eng.work.rk ≠ 0 := ⟨ended_exhausted, by decide, by decide⟩

theorem witness_EncodeErrorsAndCompletion_end :
    let s := standing .encEnd (writing [true]) (accepted .encode aab)
    s.eng.pp = .encEnd ∧ s.eng.work.wq = [true] ∧ writeBit s.params.outDepth true s.out = some ⟨[], 0x80, 1, 1⟩ := by decide

theorem witness_DecodeSymReadsOneCode :
    let s := input [0xC0] true (accepted .decodeSym aab)
    s.eng.pp = .start ∧ s.tree.valid = true ∧ aabShape.fits s.tree.nodes ∧ aabShape.root = s.tree.root ∧ aabShape.isInt = true ∧
    ((256, [true, true]) : Symbol × List Bool) ∈ aabShape.codes ∧
    inBits s.inp = [true, true] ++ [false, false, false, false, false, false] :=
  ⟨by decide, by decide, aab_fits, by decide, by decide, by decide, by decide⟩

theorem witness_DecodeInvertsTheBody :
    let s := input [0x60] true (accepted .decode aab)
    s.eng.pp = .start ∧ s.tree.valid = true ∧ HoldsTree s.tree ∧ (∀ b ∈ [0x41#8], (codeAt s.tree b.toNat).valid = true) ∧
    inBits s.inp = bodyBits s.tree [0x41] ++ [false, false, false, false, false] ∧ s.out.tailZero ∧
    s.out.hasRoom s.params.outDepth (8 * [0x41#8].length) := by
  refine ⟨by decide, by decide, aab_holdsTree, ?_, ?_, fresh_tailZero, show _ ≤ _ by decide⟩
  · intro b hb
    rw [List.mem_singleton.mp hb]
    change (codeAt aabTree (0x41#8).toNat).valid = true
    rw [aab_codeAt_41]
    rfl
  · change inBits ⟨[0x60], true, 0, 0, 0⟩ = bodyBits aabTree [0x41] ++ _
    rw [aab_bodyBits]
    decide

theorem witness_DecodeWalkEnds_sentinel :
    let s := standing .decWalk { Work.reset with cur := 3 } ((accepted .decode aab).setInp ⟨[], true, 0xC0, 7, 1⟩)
    s.tree.nodes.get s.eng.work.cur = .int 1 2 ∧ readBit s.inp = .bit true ⟨[], true, 0xC0, 6, 2⟩ ∧ s.eng.pp = .decWalk ∧
    s.tree.nodes.get (if true then 2 else 1) = .leaf sentinel := by decide

theorem witness_DecodeWalkEnds_symbol :
    let s := standing .dsymWalk { Work.reset with cur := 4 } ((accepted .decodeSym aab).setInp ⟨[], true, 0x00, 1, 7⟩)
    s.tree.nodes.get s.eng.work.cur = .int 0 3 ∧ readBit s.inp = .bit false ⟨[], true, 0x00, 0, 8⟩ ∧ s.eng.pp = .dsymWalk ∧
    s.tree.nodes.get (if false then 3 else 0) = .leaf 0x41 := by decide

theorem witness_DecodeWalkEnds_truncated :
    let s := standing .decWalk { Work.reset with cur := 4 } (input [] true (accepted .decode aab))
    let s' := standing .dsymWalk { Work.reset with cur := 4 } (input [] true (accepted .decodeSym aab))
    (s.tree.nodes.get s.eng.work.cur = .int 0 3 ∧ s.inp.exhausted ∧ s.eng.pp = .decWalk) ∧
    (s'.tree.nodes.get s'.eng.work.cur = .int 0 3 ∧ s'.inp.exhausted ∧ s'.eng.pp = .dsymWalk) :=
  ⟨⟨by decide, ended_exhausted, by decide⟩, by decide, ended_exhausted, by decide⟩

theorem witness_CodesArePrefixFree :
    HoldsTree aabTree ∧ (codeAt aabTree 256).valid = true ∧ (codeAt aabTree 256).toBits <+: (codeAt aabTree 256).toBits :=
  ⟨aab_holdsTree, by rw [aab_codeAt_256]; rfl, List.prefix_refl _⟩

/-- V-B1: the codes of two different symbols, neither a prefix of the other. -/
theorem test_codes_differ :
    ¬ (codeAt aabTree (0x41#8).toNat).toBits <+: (codeAt aabTree 256).toBits ∧
    walkPath aabTree.nodes (codeAt aabTree 256).toBits aabTree.root = some (.leaf 256) := by
  rw [aab_codeAt_41, aab_codeAt_256, leafEntry_toBits (by decide), leafEntry_toBits (by decide)]
  decide

theorem witness_PutBitsAndMagicWriteTheirField :
    let s := accepted (.putBits 31#5) fresh
    let s' := accepted .magicWrite fresh
    (s.eng.pp = .start ∧ s.out.tailZero ∧ s.out.hasRoom s.params.outDepth ((31#5).toNat + 1)) ∧
    (s'.eng.pp = .start ∧ s'.out.tailZero ∧ s'.out.hasRoom s'.params.outDepth 32) :=
  ⟨⟨by decide, fresh_tailZero, show _ ≤ _ by decide⟩, by decide, fresh_tailZero, show _ ≤ _ by decide⟩

theorem witness_WritersCompleteAtTheirLastBit :
    let s (p : ProgPoint) (i : Instr) := (standing p (writing [true]) (accepted i aab)).setOut ⟨[1, 2, 3], 0xFE, 7, 31⟩
    (s .putBit (.putBits 0#5)).eng.work.wq = [true] ∧ writeBit 4 true ⟨[1, 2, 3], 0xFE, 7, 31⟩ = some ⟨[1, 2, 3, 0xFF], 0, 0, 32⟩ ∧
    (s .putBit (.putBits 0#5)).eng.pp = .putBit ∧ (s .magicOut .magicWrite).eng.pp = .magicOut ∧
    (s .encSym (.encodeSym 256#10)).eng.pp = .encSym ∧ (s .serLeaf .serialize).eng.pp = .serLeaf ∧
    (s .serLeaf .serialize).eng.work.stk = [] := by decide

theorem witness_GetBitsReadsItsField :
    let s := input [0x12, 0x34, 0x56, 0x78] false (accepted (.getBits 31#5) fresh)
    s.eng.pp = .start ∧ inBits s.inp = bitsMsb 32 0x12345678#32 ++ [] ∧ (bitsMsb 32 0x12345678#32).length = (31#5).toNat + 1 := by decide

theorem witness_GetBitsReadsItsField_one :
    let s := input [0x80] false (accepted (.getBits 0#5) fresh)
    s.eng.pp = .start ∧ inBits s.inp = [true] ++ [false, false, false, false, false, false, false] ∧
    [true].length = (0#5).toNat + 1 := by decide

theorem witness_MagicCheckComparesThirtyTwoBits :
    let s := input [0x00, 0x00, 0x07, 0x36] false (accepted .magicCheck fresh)
    let s' := input [0x47, 0x52, 0x49, 0x4E] false (accepted .magicCheck fresh)
    (s.eng.pp = .start ∧ inBits s.inp = bitsMsb 32 s.params.magic ++ [] ∧ (bitsMsb 32 s.params.magic).length = 32) ∧
    (s'.eng.pp = .start ∧ inBits s'.inp = bitsMsb 32 0x4752494E#32 ++ [] ∧ (bitsMsb 32 0x4752494E#32).length = 32) := by decide

theorem witness_FieldReadersEnd_getBits :
    let s := standing .getBit (reading 31 0) ((accepted (.getBits 31#5) fresh).setInp ⟨[], true, 0x01, 1, 31⟩)
    s.eng.pp = .getBit ∧ s.eng.work.rk = (31#5).toNat ∧ readBit s.inp = .bit true ⟨[], true, 0x01, 0, 32⟩ := by decide

theorem witness_FieldReadersEnd_magicCheck :
    let s := standing .magicIn (reading 31 0x39B) ((accepted .magicCheck fresh).setInp ⟨[], false, 0x36, 1, 31⟩)
    s.eng.pp = .magicIn ∧ s.eng.work.rk = 31 ∧ readBit s.inp = .bit false ⟨[], false, 0x36, 0, 32⟩ ∧
    shiftIn s.eng.work.rv false = s.params.magic := by decide

theorem witness_FieldReadersEnd_truncated :
    let s := standing .getBit (reading 0 0) (input [] true (accepted (.getBits 0#5) fresh))
    let s' := standing .magicIn (reading 31 0) (input [] true (accepted .magicCheck fresh))
    let s'' := input [] true (accepted .magicCheck fresh)
    (s.inp.exhausted ∧ s.eng.pp = .getBit) ∧ (s'.inp.exhausted ∧ s'.eng.pp = .magicIn) ∧
    (s''.inp.exhausted ∧ s''.eng.pp = .start) :=
  ⟨⟨ended_exhausted, by decide⟩, ⟨ended_exhausted, by decide⟩, ended_exhausted, by decide⟩

theorem witness_FlushAndAlignComplete_push :
    let s := (accepted .flush fresh).setOut ⟨[1, 2, 3], 0xFE, 7, 0⟩
    s.eng.pp = .start ∧ s.out.tailZero ∧ s.out.fifo.length ≠ s.params.outDepth := ⟨by decide, seven_tailZero _, by decide⟩

theorem witness_FlushAndAlignComplete_aligned :
    let s := (accepted .flush fresh).setOut ⟨[1, 2, 3, 4], 0, 0, 32⟩
    s.eng.pp = .start ∧ s.out.tailZero ∧ s.out.bwCnt.val = 0 ∧ (accepted .alignIn fresh).eng.pp = .start :=
  ⟨by decide, fun j _ => by change (0#8).getLsbD j = false; simp, by decide, by decide⟩

theorem witness_InspectionCommandsPackTheirResult :
    let s := accepted (.nodeRead 512#10) aab
    s.eng.pp = .start ∧ s.tree.valid = true ∧ (512#10).toNat ≤ 512 ∧ s.tree.count ≤ 512#10 ∧ (256#10).toNat < 257 ∧ (7#5).toNat ≤ 7 ∧
    (s.tree.count ≤ 5#10 ∧ (4#10) < s.tree.count ∧ (4 : NodeIx).val = (4#10).toNat ∧ s.tree.nodes.get 4 = .int 0 3) ∧
    ((2#10) < s.tree.count ∧ (2 : NodeIx).val = (2#10).toNat ∧ s.tree.nodes.get 2 = .leaf 256) := by decide

theorem accepted_nop_completes :
    exec .nop (accepted .nop fresh) =
      .next { accepted .nop fresh with status := (accepted .nop fresh).status.completed } := rfl

theorem witness_EngineNeverWritesHostState : ∃ t, exec .nop (accepted .nop fresh) = .next t := ⟨_, accepted_nop_completes⟩

theorem witness_CommandsTouchOnlyTheirParts :
    (∃ t, exec .nop (accepted .nop fresh) = .next t) ∧ (∀ n, Instr.nop ≠ .getBits n) ∧ (∀ n, Instr.nop ≠ .putBits n) ∧
    (∀ y, Instr.nop ≠ .encodeSym y) ∧ (∀ y, Instr.nop ≠ .freqWrite y) ∧
    Instr.nop ∉ [Instr.freqCount, .deserialize, .encode, .decode, .decodeSym, .alignIn, .magicCheck] ∧
    Instr.nop ∉ [Instr.serialize, .encode, .decode, .flush, .magicWrite] ∧ Instr.nop ∉ [Instr.freqClear, .freqCount] ∧
    Instr.nop ∉ [Instr.build, .deserialize] :=
  ⟨⟨_, accepted_nop_completes⟩, by simp, by simp, by simp, by simp, by decide, by decide, by decide, by decide⟩

theorem witness_InvariantHoldsAtReset : ParamsInv smallParams := ⟨by decide, by decide, by decide⟩

/-- A state that runs a command it has just accepted meets the invariant of a run. -/
theorem accepted_inv (i : Instr) (h : decode (encode i) = .ok i) (s : State) (hp : s.params = smallParams) (hi : s.inp = InChan.reset)
    (ho : s.out = OutChan.reset) (hs : s.status = Status.reset) : (accepted i s).Inv where
  params := by simpa [accepted, acceptCommand, hp] using witness_InvariantHoldsAtReset
  status := by constructor <;> simp [accepted, acceptCommand, hs, Status.reset]
  channels := by
    refine ⟨?_, ?_, ?_⟩
    · simp [accepted, acceptCommand, hi, InChan.reset]
    · simp [accepted, acceptCommand, ho, OutChan.reset]
    · intro j _
      simp [accepted, acceptCommand, ho, OutChan.reset]
  engine := by
    intro _
    simp [accepted, acceptCommand, h, pointInv]

theorem witness_EveryStepKeepsTheInvariant :
    (accepted .nop fresh).Inv ∧ ∃ t, step (accepted .nop fresh) = .next t :=
  ⟨accepted_inv .nop (by decide) fresh rfl rfl rfl rfl, _, accepted_nop_completes⟩

/-- With a tree that is valid. -/
theorem witness_EveryStepKeepsAValidTree :
    (accepted .nop aab).Inv ∧ TreeInv (accepted .nop aab) ∧ (accepted .nop aab).tree.valid = true ∧
    ∃ t, step (accepted .nop aab) = .next t := by
  refine ⟨accepted_inv .nop (by decide) aab rfl rfl rfl rfl, ⟨fun _ => aab_holdsTree, fun _ h => ?_⟩, rfl, _, rfl⟩
  exact absurd (show decode (encode .nop) = .ok .deserialize from h) (by decide)

/-- With `DESERIALIZE` at its first marker, and a bit there to read. -/
abbrev atFirstMarker : State := input [0x88] false (deserializeFirst (accepted .deserialize fresh))

theorem atFirstMarker_inv : atFirstMarker.Inv where
  params := witness_InvariantHoldsAtReset
  status := ⟨by decide, by decide, by decide, by decide⟩
  channels := ⟨by decide, by decide, fresh_tailZero⟩
  engine := by
    intro _
    rw [show decode atFirstMarker.eng.cmd = .ok .deserialize by decide]
    exact ⟨.inr (by decide), by decide, by decide, by decide⟩

theorem witness_EveryStepKeepsAValidTree_growing :
    atFirstMarker.Inv ∧ TreeInv atFirstMarker ∧ atFirstMarker.status.busy = true ∧
    decode atFirstMarker.eng.cmd = .ok .deserialize ∧ atFirstMarker.eng.pp ≠ .start ∧
    onNext (step atFirstMarker) (fun t => t.eng.pp == .desMark && t.eng.work.ni == 1) = true :=
  ⟨atFirstMarker_inv,
    ⟨fun h => absurd h (by decide), fun _ _ _ => growing_congr (growing_first (accepted .deserialize fresh)) rfl rfl rfl rfl rfl⟩,
    by decide, by decide, by decide, by decide⟩

/-- A state of a run whose next move is a host access that the block does not support. -/
theorem witness_NoStepOfARunFaults :
    (fresh.setSched [.host ⟨0x1002, 2, .read⟩]).Inv ∧
    step (fresh.setSched [.host ⟨0x1002, 2, .read⟩]) = .refused .busError :=
  ⟨⟨witness_InvariantHoldsAtReset, ⟨by decide, by decide, by decide, by decide⟩, ⟨by decide, by decide, fresh_tailZero⟩,
    fun h => absurd h (by decide)⟩, rfl⟩

/-- A state of a run whose next move is an access just past the window. -/
theorem witness_NoStepOfARunFaults_outside :
    (fresh.setSched [.host ⟨0x1040, 4, .read⟩]).Inv ∧
    step (fresh.setSched [.host ⟨0x1040, 4, .read⟩]) = .refused .outsideWindow :=
  ⟨⟨witness_InvariantHoldsAtReset, ⟨by decide, by decide, by decide, by decide⟩, ⟨by decide, by decide, fresh_tailZero⟩,
    fun h => absurd h (by decide)⟩, rfl⟩

end Sys2Proof.Tests
end

/-! ## What the micro-steps of a command keep

A property of the state that survives every update a command is made of survives the command's micro-steps. The frames of
the commands are special cases: the updates of a part that the command does not touch are not asked for. -/

section
namespace Sys2Proof.Machine

/-- The commands that read the input channel (30_encoding.md R143, the column "channels"). -/
def readsInput : Instr → Bool
  | .freqCount | .deserialize | .encode | .decode | .decodeSym | .getBits _ | .alignIn | .magicCheck => true
  | _ => false

/-- The commands that write the output channel (R143). -/
def writesOutput : Instr → Bool
  | .serialize | .encode | .encodeSym _ | .decode | .putBits _ | .flush | .magicWrite => true
  | _ => false

/-- The commands that write the frequency table (10_state.md R50). -/
def writesFreq : Instr → Bool
  | .freqClear | .freqWrite _ | .freqCount => true
  | _ => false

/-- The commands that write the tree (10_state.md R53). -/
def writesTree : Instr → Bool
  | .build | .deserialize => true
  | _ => false

/-- Every update that the command `i` is made of keeps `P`. -/
structure Stable (i : Instr) (P : State → Prop) : Prop where
  raised : ∀ {s} e, P s → P (raiseError e s)
  completed : ∀ {s} r, P s → P (complete r s)
  setWork : ∀ {s} w, P s → P (s.setWork w)
  setPp : ∀ {s} p, P s → P (s.setPp p)
  setResult : ∀ {s} v, P s → P (s.setResult v)
  setInp : readsInput i = true → ∀ {s} c, P s → P (s.setInp c)
  setOut : writesOutput i = true → ∀ {s} o, P s → P (s.setOut o)
  setFreq : writesFreq i = true → ∀ {s} f, P s → P (s.setFreq f)
  setTree : writesTree i = true → ∀ {s} t, P s → P (s.setTree t)

/-- The flow leads from states with `P` to states with `P`. -/
abbrev FlowKeeps (P : State → Prop) (k : State → Flow) : Prop := ∀ s, P s → (k s).Post True P

/-- The micro-step leads from states with `P` to states with `P`. -/
abbrev MicroKeeps (P : State → Prop) (m : State → Micro) : Prop := ∀ s, P s → (m s).Post True P

theorem Flow.then_of_post {B : Prop} {P : State → Prop} {perform : State → Micro} {f : Flow} (hf : f.Post B P)
    (hp : ∀ s, P s → (perform s).Post B P) : f.Then B P perform := by
  cases f with
  | atPrimitive s => exact hp s hf
  | ended s => exact hf
  | broken f => exact hf

theorem noPrimitive_keeps (P : State → Prop) : MicroKeeps P noPrimitive := fun _ _ => trivial

namespace Stable
variable {i : Instr} {P : State → Prop} (h : Stable i P)
include h

/-! ### The shared operations -/

theorem finish (r : Option Word) : FlowKeeps P (finish r) := fun _ hs => h.completed r hs

theorem fail (e : ErrCode) : FlowKeeps P (fail e) := fun _ hs => h.raised e hs

theorem beginReadBits (p : ProgPoint) : FlowKeeps P (beginReadBits p) := fun _ hs => h.setWork _ (h.setPp p hs)

theorem beginWrite (p : ProgPoint) (bits : List Bool) {k : State → Flow} (hk : FlowKeeps P k) :
    FlowKeeps P (beginWrite p bits k) := fun s hs =>
  post_beginWrite (fun _ => hk s hs) (fun _ => h.setWork _ (h.setPp p hs))

theorem performRead (hi : readsInput i = true) {onBit : Bool → State → Flow} {onEod : State → Flow}
    (hb : ∀ b, FlowKeeps P (onBit b)) (he : FlowKeeps P onEod) : MicroKeeps P (performRead onBit onEod) := fun s hs =>
  post_performRead (fun b c _ => hb b _ (h.setInp hi c hs)) (fun _ => he s hs)

theorem performReadBits (hi : readsInput i = true) {n : Nat} {done : Word → State → Flow} {eod : Nat → State → Flow}
    (hd : ∀ v, FlowKeeps P (done v)) (he : ∀ k, FlowKeeps P (eod k)) : MicroKeeps P (performReadBits n done eod) :=
  fun s hs =>
    post_performReadBits (fun _ c _ _ => hd _ _ (h.setWork _ (h.setInp hi c hs)))
      (fun _ c _ _ => h.setWork _ (h.setInp hi c hs)) (fun _ => he _ s hs)

theorem performWrite (ho : writesOutput i = true) {k : State → Flow} (hk : FlowKeeps P k) :
    MicroKeeps P (performWrite k) := fun _ hs =>
  post_performWrite (fun _ => trivial) (fun _ o _ _ => hk _ (h.setWork _ (h.setOut ho o hs)))
    (fun _ _ o _ _ _ => h.setWork _ (h.setOut ho o hs))

theorem runCommand {inRange needsTree : Bool} {enter : State → Flow} {perform : State → Micro} (he : FlowKeeps P enter)
    (hp : MicroKeeps P perform) {s : State} (hs : P s) :
    OutcomePost True P (runCommand inRange needsTree enter perform s) :=
  post_runCommand hs (fun _ => h.raised _ hs) (fun _ => h.raised _ hs) (fun _ _ _ => Flow.then_of_post (he s hs) hp)
    (fun _ => hp s hs)

/-! ### The frequency table and bit I/O -/

theorem countByte (hi : writesFreq i = true) (v : Word) : FlowKeeps P (countByte v) := fun s hs => by
  unfold Machine.countByte
  dsimp only
  split
  · exact h.fail _ s hs
  · exact h.beginReadBits _ _ (h.setWork _ (h.setFreq hi _ hs))

theorem countEnd (k : Nat) : FlowKeeps P (countEnd k) := fun s hs => by
  unfold Machine.countEnd
  split
  · exact h.finish _ s hs
  · exact h.fail _ s hs

theorem performFlush (ho : writesOutput i = true) : MicroKeeps P performFlush := fun s hs => by
  unfold Machine.performFlush
  split
  · trivial
  · exact h.completed _ (h.setOut ho _ hs)

theorem magicCompare (v : Word) : FlowKeeps P (magicCompare v) := fun s hs => by
  unfold Machine.magicCompare
  split
  · exact h.finish _ s hs
  · exact h.fail _ _ (h.setResult v hs)

/-! ### The transducers -/

theorem walkLoop (p : ProgPoint) {k : Symbol → State → Flow} (hk : ∀ y, FlowKeeps P (k y)) :
    FlowKeeps P (walkLoop p k) := fun s hs => by
  unfold Machine.walkLoop
  split
  · exact h.setPp p hs
  · exact hk _ s hs

theorem walkOne (p : ProgPoint) {k : Symbol → State → Flow} (hk : ∀ y, FlowKeeps P (k y)) : FlowKeeps P (walkOne p k) :=
  fun _ hs => h.walkLoop p hk _ (h.setWork _ hs)

theorem walkBit (p : ProgPoint) {k : Symbol → State → Flow} (hk : ∀ y, FlowKeeps P (k y)) (b : Bool) :
    FlowKeeps P (walkBit p k b) := fun s hs => by
  unfold Machine.walkBit
  split
  · exact h.walkLoop p hk _ (h.setWork _ hs)
  · trivial

theorem decodeSymbol (y : Symbol) : FlowKeeps P (decodeSymbol y) := fun s hs => by
  unfold Machine.decodeSymbol
  split
  · exact h.finish _ s hs
  · exact h.beginWrite _ _ (k := .atPrimitive) (fun _ ht => ht) s hs

theorem decodeNext : FlowKeeps P decodeNext := fun _ hs => h.walkOne _ h.decodeSymbol _ (h.setWork _ hs)

theorem encodeNext : FlowKeeps P encodeNext := fun _ hs => h.beginReadBits _ _ (h.setWork _ hs)

theorem encodeByte (v : Word) : FlowKeeps P (encodeByte v) := fun s hs => by
  unfold Machine.encodeByte
  dsimp only
  split
  · exact h.beginWrite _ _ h.encodeNext s hs
  · exact h.fail _ s hs

theorem encodeDone : FlowKeeps P encodeDone := fun s hs => h.finish _ s hs

theorem encodeEod (k : Nat) : FlowKeeps P (encodeEod k) := fun s hs => by
  unfold Machine.encodeEod
  split
  · exact h.beginWrite _ _ h.encodeDone s hs
  · exact h.fail _ s hs

theorem encodeSymDone (sym : BitVec 10) : FlowKeeps P (encodeSymDone sym) := fun s hs => h.finish _ s hs

/-! ### The serializer and the deserializer -/

theorem serializeLoop : FlowKeeps P serializeLoop := fun s hs => by
  cases hq : s.eng.work.stk with
  | nil => rw [serializeLoop_nil hq]; exact h.finish _ s hs
  | cons e rest =>
    rw [serializeLoop_cons hq]
    have hp : ∀ w p bits, P (standWrite p bits (s.setWork w)) := fun w p _ => h.setWork _ (h.setPp p (h.setWork w hs))
    cases s.tree.nodes.get e.ix <;> exact hp _ _ _

theorem serializeInt : FlowKeeps P serializeInt := fun s hs => by
  unfold Machine.serializeInt
  dsimp only
  split
  · exact h.serializeLoop _ (h.setWork _ hs)
  · trivial

theorem serializeLeaf : FlowKeeps P serializeLeaf := fun _ hs => h.serializeLoop _ (h.setWork _ hs)

theorem deserializeEnd (ht : writesTree i = true) : FlowKeeps P deserializeEnd := fun s hs => by
  unfold Machine.deserializeEnd
  dsimp only
  split
  · exact h.fail _ s hs
  · split
    · exact h.finish _ _ (h.setTree ht _ hs)
    · exact h.fail _ s hs

theorem deserializeLoop (ht : writesTree i = true) : FlowKeeps P deserializeLoop := fun s hs => by
  unfold Machine.deserializeLoop
  dsimp only
  split
  · exact h.deserializeEnd ht s hs
  · split
    · apply h.setPp
      split
      · exact h.setWork _ hs
      · exact h.setTree ht _ (h.setWork _ hs)
    · trivial

theorem deserializeMark (ht : writesTree i = true) (b : Bool) : FlowKeeps P (deserializeMark b) := fun s hs => by
  unfold Machine.deserializeMark
  dsimp only
  split
  · split
    · exact h.fail _ _ (h.setWork _ hs)
    · exact h.deserializeLoop ht _ (h.setWork _ (h.setTree ht _ hs))
  · exact h.beginReadBits _ _ (h.setWork _ hs)

theorem deserializeSymbol (ht : writesTree i = true) (v : Word) : FlowKeeps P (deserializeSymbol v) := fun s hs => by
  unfold Machine.deserializeSymbol
  dsimp only
  split
  · split
    · exact h.fail _ _ (h.setWork _ hs)
    · exact h.deserializeLoop ht _ (h.setWork _ (h.setTree ht _ hs))
  · exact h.fail _ _ (h.setWork _ hs)

end Stable

/-! ### Every command -/

/-- The micro-steps of a command keep what its updates keep. -/
theorem Stable.exec {i : Instr} {P : State → Prop} (h : Stable i P) {s : State} (hs : P s) :
    OutcomePost True P (exec i s) := by
  cases i with
  | nop =>
    dsimp only [Machine.exec, execNop]
    exact h.runCommand (h.finish _) (noPrimitive_keeps P) hs
  | freqClear =>
    dsimp only [Machine.exec, execFreqClear]
    exact h.runCommand (fun u hu => h.finish _ _ (h.setFreq rfl _ hu)) (noPrimitive_keeps P) hs
  | freqWrite sym =>
    dsimp only [Machine.exec, execFreqWrite]
    exact h.runCommand (fun u hu => h.finish _ _ (h.setFreq rfl _ hu)) (noPrimitive_keeps P) hs
  | freqRead sym =>
    dsimp only [Machine.exec, execFreqRead]
    exact h.runCommand (fun u hu => h.finish _ u hu) (noPrimitive_keeps P) hs
  | freqCount =>
    dsimp only [Machine.exec, execFreqCount]
    refine h.runCommand (fun u hu => h.beginReadBits _ _ (h.setWork _ hu)) (fun u hu => ?_) hs
    split
    · exact h.performReadBits rfl (h.countByte rfl) h.countEnd u hu
    · trivial
  | build =>
    dsimp only [Machine.exec, execBuild]
    exact h.runCommand (fun u hu => h.finish _ _ (h.setTree rfl _ hu)) (noPrimitive_keeps P) hs
  | serialize =>
    dsimp only [Machine.exec, execSerialize]
    refine h.runCommand (fun u hu => h.serializeLoop _ (h.setWork _ hu)) (fun u hu => ?_) hs
    split
    · exact h.performWrite rfl h.serializeInt u hu
    · exact h.performWrite rfl h.serializeLeaf u hu
    · trivial
  | deserialize =>
    dsimp only [Machine.exec, execDeserialize]
    refine h.runCommand (fun u hu => h.deserializeLoop rfl _ (h.setWork _ (h.setTree rfl _ hu))) (fun u hu => ?_) hs
    split
    · exact h.performRead rfl (h.deserializeMark rfl) (h.fail _) u hu
    · exact h.performReadBits rfl (h.deserializeSymbol rfl) (fun _ => h.fail _) u hu
    · trivial
  | encode =>
    dsimp only [Machine.exec, execEncode]
    refine h.runCommand (fun u hu => h.beginReadBits _ _ (h.setWork _ hu)) (fun u hu => ?_) hs
    split
    · exact h.performReadBits rfl h.encodeByte h.encodeEod u hu
    · exact h.performWrite rfl h.encodeNext u hu
    · exact h.performWrite rfl h.encodeDone u hu
    · trivial
  | encodeSym sym =>
    dsimp only [Machine.exec, execEncodeSym]
    refine h.runCommand (fun u hu => ?_) (fun u hu => ?_) hs
    · split
      · exact h.beginWrite _ _ (h.encodeSymDone sym) u hu
      · exact h.fail _ u hu
    · split
      · exact h.performWrite rfl (h.encodeSymDone sym) u hu
      · trivial
  | decode =>
    dsimp only [Machine.exec, execDecode]
    refine h.runCommand (fun u hu => h.walkOne _ h.decodeSymbol _ (h.setWork _ hu)) (fun u hu => ?_) hs
    split
    · exact h.performRead rfl (h.walkBit _ h.decodeSymbol) (h.fail _) u hu
    · exact h.performWrite rfl h.decodeNext u hu
    · trivial
  | decodeSym =>
    dsimp only [Machine.exec, execDecodeSym]
    have hd : ∀ y, FlowKeeps P (decodeSymDone y) := fun y => h.finish _
    refine h.runCommand (h.walkOne _ hd) (fun u hu => ?_) hs
    split
    · exact h.performRead rfl (h.walkBit _ hd) (h.fail _) u hu
    · trivial
  | putBits nm1 =>
    dsimp only [Machine.exec, execPutBits]
    refine h.runCommand (fun u hu => h.beginWrite _ _ (h.finish _) u hu) (fun u hu => ?_) hs
    split
    · exact h.performWrite rfl (h.finish _) u hu
    · trivial
  | getBits nm1 =>
    dsimp only [Machine.exec, execGetBits]
    refine h.runCommand (h.beginReadBits _) (fun u hu => ?_) hs
    split
    · exact h.performReadBits rfl (fun _ => h.finish _) (fun _ => h.fail _) u hu
    · trivial
  | flush =>
    dsimp only [Machine.exec, execFlush]
    refine h.runCommand (fun u hu => ?_) (fun u hu => ?_) hs
    · exact h.setPp _ hu
    · split
      · exact h.performFlush rfl u hu
      · trivial
  | alignIn =>
    dsimp only [Machine.exec, execAlignIn]
    exact h.runCommand (fun u hu => h.finish _ _ (h.setInp rfl _ hu)) (noPrimitive_keeps P) hs
  | magicWrite =>
    dsimp only [Machine.exec, execMagicWrite]
    refine h.runCommand (fun u hu => h.beginWrite _ _ (h.finish _) u hu) (fun u hu => ?_) hs
    split
    · exact h.performWrite rfl (h.finish _) u hu
    · trivial
  | magicCheck =>
    dsimp only [Machine.exec, execMagicCheck]
    refine h.runCommand (h.beginReadBits _) (fun u hu => ?_) hs
    split
    · exact h.performReadBits rfl h.magicCompare (fun _ => h.fail _) u hu
    · trivial
  | nodeRead node =>
    dsimp only [Machine.exec, execNodeRead]
    exact h.runCommand (fun u hu => h.finish _ u hu) (noPrimitive_keeps P) hs
  | codeLenRead sym =>
    dsimp only [Machine.exec, execCodeLenRead]
    exact h.runCommand (fun u hu => h.finish _ u hu) (noPrimitive_keeps P) hs
  | codeBitsRead sym w =>
    dsimp only [Machine.exec, execCodeBitsRead]
    exact h.runCommand (fun u hu => h.finish _ u hu) (noPrimitive_keeps P) hs

theorem OutcomePost.next {B : Prop} {P : State → Prop} {o : Host.Outcome State Fault Refusal} {t : State}
    (h : OutcomePost B P o) (ho : o = .next t) : P t := by
  subst ho
  exact h

/-- What belongs to the host is kept by every update. -/
theorem stable_engineKeeps (i : Instr) (s : State) : Stable i (EngineKeeps s) where
  raised e h := h.raiseError e
  completed r h := h.complete r
  setWork w h := h.setWork w
  setPp p h := h.setPp p
  setResult v h := h.setResult v
  setInp _ _ c h := h.setInp c
  setOut _ _ o h := h.setOut o
  setFreq _ _ f h := h.setFreq f
  setTree _ _ t h := h.setTree t

/-- The tree is kept by every update but its own. -/
theorem stable_tree {i : Instr} (hi : writesTree i = false) (t : TreeMem) : Stable i (fun s => s.tree = t) where
  raised _ h := h
  completed r h := (complete_tree _ r).trans h
  setWork _ h := h
  setPp _ h := h
  setResult _ h := h
  setInp _ _ _ h := h
  setOut _ _ _ h := h
  setFreq _ _ _ h := h
  setTree ht := by rw [hi] at ht; cases ht

theorem exec_engineKeeps {i : Instr} {s t : State} (h : exec i s = .next t) : EngineKeeps s t :=
  ((stable_engineKeeps i s).exec (EngineKeeps.refl s)).next h

theorem exec_tree {i : Instr} {s t : State} (hi : writesTree i = false) (h : exec i s = .next t) : t.tree = s.tree :=
  ((stable_tree hi s.tree).exec rfl).next h

/-- Settles O55: every update that a command is made of keeps what belongs to the host. -/
theorem engineNeverWritesHostState : Obligations.EngineNeverWritesHostState :=
  fun _ _ _ h => exec_engineKeeps h

end Sys2Proof.Machine
end

/-! ## The invariant of a run through every step -/

section
namespace Sys2Proof.Machine

/-! ### Steps and their cases -/

/-- What the engine's turn can do (40_command_protocol.md R180, R183). -/
theorem engineStep_cases {s t : State} (h : engineStep s = .next t) :
    t = s ∨ (s.status.busy = true ∧ t = raiseError .illegalCmd s) ∨
      ∃ i, s.status.busy = true ∧ decode s.eng.cmd = .ok i ∧ exec i s = .next t := by
  unfold engineStep at h
  split at h
  · rename_i hb
    split at h
    · exact .inr (.inl ⟨hb, (Host.Outcome.next.inj h).symm⟩)
    · rename_i i hi
      exact .inr (.inr ⟨i, hb, hi, h⟩)
  · exact .inl (Host.Outcome.next.inj h).symm

/-- A host access with a next state is to a register (20_memory.md R92). -/
theorem hostStep_next {a : Access} {s t : State} (h : hostStep a s = .next t) : ∃ r, t = accessReg r a.kind s := by
  unfold hostStep at h
  split at h
  · cases h
  · split at h
    · cases h
    · split at h
      · cases h
      · rename_i r _
        exact ⟨r, (Host.Outcome.next.inj h).symm⟩

/-- A step takes a move off the schedule, if there is one, and is the engine's turn or an access to a register
(20_memory.md R90, R91). -/
theorem step_cases {s t : State} (h : step s = .next t) :
    ∃ u, u = s.setSched s.sched.tail ∧ (engineStep u = .next t ∨ ∃ r k, t = accessReg r k u) := by
  refine ⟨_, rfl, ?_⟩
  unfold step scheduledStep at h
  split at h
  · rename_i hs
    rw [hs]
    left
    rw [← h, List.tail_nil, ← hs]
    rfl
  · rename_i m rest hs
    rw [hs]
    cases m with
    | engine => exact .inl h
    | host a =>
      obtain ⟨r, hr⟩ := hostStep_next h
      exact .inr ⟨r, a.kind, hr⟩

/-! ### The invariant through updates that are no command's -/

theorem pointInv_congr {i : Instr} {s t : State} (ht : t.tree = s.tree) (he : t.eng = s.eng) :
    pointInv i t = pointInv i s := by
  unfold pointInv
  rw [ht, he]

/-- The invariant goes over to a state with the same parameters, tree and engine, if its flags and channels are legal and
no command has been started. -/
theorem State.Inv.transfer {s t : State} (h : s.Inv) (hp : t.params = s.params) (hst : StatusInv t.status)
    (hc : ChannelInv t) (ht : t.tree = s.tree) (he : t.eng = s.eng)
    (hb : t.status.busy = true → s.status.busy = true) : t.Inv where
  params := hp ▸ h.params
  status := hst
  channels := hc
  engine hbusy := by
    have := h.engine (hb hbusy)
    rw [he]
    simpa only [pointInv_congr ht he] using this

variable {s : State}

theorem State.Inv.setStatus (h : s.Inv) {v : Status} (hv : StatusInv v) (hb : v.busy = true → s.status.busy = true) :
    (s.setStatus v).Inv :=
  h.transfer rfl hv ⟨h.channels.inBound, h.channels.outBound, h.channels.tail⟩ rfl rfl hb

theorem State.Inv.setInp (h : s.Inv) {c : InChan} (hc : c.fifo.length ≤ s.params.inDepth) : (s.setInp c).Inv :=
  h.transfer rfl h.status ⟨hc, h.channels.outBound, h.channels.tail⟩ rfl rfl id

theorem State.Inv.setOut (h : s.Inv) {c : OutChan} (hc : c.fifo.length ≤ s.params.outDepth) (ht : c.tailZero) :
    (s.setOut c).Inv :=
  h.transfer rfl h.status ⟨h.channels.inBound, hc, ht⟩ rfl rfl id

/-- The invariant does not see what the host alone writes, nor the model's own fields. -/
theorem State.Inv.setOwn (h : s.Inv) (e : IrqEn) (a : Word) (q : List Move) (r : List Word) (d : Nat) :
    State.Inv { s with irqEn := e, arg := a, sched := q, reads := r, draws := d } :=
  h.transfer rfl h.status ⟨h.channels.inBound, h.channels.outBound, h.channels.tail⟩ rfl rfl id

/-! ### The invariant at reset (10_state.md R60) -/

theorem statusInv_reset : StatusInv Status.reset := ⟨by decide, by decide, by decide, by decide⟩

theorem tailZero_reset : OutChan.reset.tailZero := fun _ _ => BitVec.getLsbD_zero

theorem inv_resetWith {p : Params} (hp : ParamsInv p) : (State.resetWith p).Inv where
  params := hp
  status := statusInv_reset
  channels := ⟨Nat.zero_le _, Nat.zero_le _, tailZero_reset⟩
  engine hb := by cases hb

theorem treeInv_resetWith (p : Params) : TreeInv (State.resetWith p) := treeInv_notBusy rfl (fun h => by cases h)

theorem paramsInv_default : ParamsInv Params.default := ⟨by decide, by decide, Nat.mul_mod_right 64 _⟩

/-- Settles O57: after reset the channels are empty, no command runs and there is no tree. -/
theorem invariantHoldsAtReset : Obligations.InvariantHoldsAtReset :=
  ⟨⟨inv_resetWith paramsInv_default, treeInv_resetWith _⟩, fun p hp => ⟨inv_resetWith hp, treeInv_resetWith p⟩⟩

/-! ### The invariant through the host's accesses -/

theorem StatusInv.failed {st : Status} (h : StatusInv st) (hb : st.busy = true) {e : ErrCode} (he : e ≠ .none) :
    StatusInv { st with err := true, errcode := e, busy := false } := by
  have hd := h.busyDone hb
  constructor <;> simp [hd, he]

theorem State.Inv.raised (h : s.Inv) (hb : s.status.busy = true) {e : ErrCode} (he : e ≠ .none) : (raiseError e s).Inv :=
  h.setStatus (h.status.failed hb he) (by simp)

/-- The write-1-to-clear bits clear `ERR` and `ERRCODE` together (10_state.md R35). -/
theorem StatusInv.writeOneToClear {st : Status} (h : StatusInv st) (v : Word) : StatusInv (st.writeOneToClear v) where
  notBoth := by
    rintro ⟨hd, he⟩
    simp only [Status.writeOneToClear, Bool.and_eq_true] at hd he
    exact h.notBoth ⟨hd.1, he.1⟩
  busyDone hb := by simp [Status.writeOneToClear, h.busyDone hb]
  busyErr hb := by simp [Status.writeOneToClear, h.busyErr hb]
  errcode := by
    cases hv : v.getLsbD 2 <;> simp only [Status.writeOneToClear, hv]
    · simpa using h.errcode
    · simp

theorem State.Inv.onBit (h : s.Inv) {f : State → State} (hf : ∀ u : State, u.Inv → (f u).Inv) (b : Bool) :
    (onBit b f s).Inv := by
  cases b
  · exact h
  · exact hf s h

theorem State.Inv.abortCommand (h : s.Inv) : (abortCommand s).Inv := by
  unfold Machine.abortCommand
  split
  · rename_i hb
    exact h.raised hb (by simp)
  · exact h

theorem State.Inv.clearIn (h : s.Inv) : (clearIn s).Inv := by
  unfold Machine.clearIn
  split
  · exact h
  · exact h.setInp (Nat.zero_le _)

theorem State.Inv.clearOut (h : s.Inv) : (clearOut s).Inv := by
  unfold Machine.clearOut
  split
  · exact h
  · exact h.setOut (Nat.zero_le _) tailZero_reset

theorem State.Inv.endIn (h : s.Inv) : (endIn s).Inv := h.setInp h.channels.inBound

theorem State.Inv.softReset (h : s.Inv) : (softReset s).Inv :=
  (inv_resetWith h.params).setOwn ⟨false, false⟩ 0 s.sched s.reads s.draws

theorem State.Inv.writeCtrl (h : s.Inv) (v : Word) : (writeCtrl v s).Inv := by
  unfold Machine.writeCtrl
  split
  · exact h.softReset
  · have h1 := h.onBit (fun _ => State.Inv.abortCommand) (v.getLsbD 1)
    have h2 := h1.onBit (fun _ => State.Inv.clearIn) (v.getLsbD 2)
    have h3 := h2.onBit (fun _ => State.Inv.clearOut) (v.getLsbD 3)
    exact h3.onBit (fun _ => State.Inv.endIn) (v.getLsbD 4)

/-- A command is accepted only where neither BUSY nor ERR is set, and starts before its checks (R182). -/
theorem State.Inv.acceptCommand (h : s.Inv) (he : s.status.err = false) (w : Word) : (acceptCommand w s).Inv where
  params := h.params
  status := ⟨by simp, by simp, by simp [he], h.status.errcode⟩
  channels := ⟨h.channels.inBound, h.channels.outBound, h.channels.tail⟩
  engine _ := by
    split
    · rfl
    · exact ⟨.inl rfl, trivial⟩

theorem State.Inv.issueCommand (h : s.Inv) (w : Word) : (issueCommand w s).Inv := by
  unfold Machine.issueCommand
  split
  · exact h.setStatus ⟨h.status.notBoth, h.status.busyDone, h.status.busyErr, h.status.errcode⟩ id
  · rename_i hn
    simp only [Bool.or_eq_true, not_or, Bool.not_eq_true] at hn
    exact h.acceptCommand hn.2 w

theorem State.Inv.pushIn (h : s.Inv) (v : Word) : (pushIn v s).Inv := by
  unfold Machine.pushIn
  split
  · exact h.setStatus ⟨h.status.notBoth, h.status.busyDone, h.status.busyErr, h.status.errcode⟩ id
  · rename_i hn
    simp only [Bool.or_eq_true, decide_eq_true_eq, not_or] at hn
    refine h.setInp ?_
    have := h.channels.inBound
    rw [List.length_append, List.length_singleton]
    omega

theorem State.Inv.writeReg (h : s.Inv) (r : Reg) (v : Word) : (writeReg r v s).Inv := by
  cases r with
  | ctrl => exact h.writeCtrl v
  | status => exact h.setStatus (h.status.writeOneToClear v) id
  | irqEn => exact h.setOwn (irqEnOfWord v) s.arg s.sched s.reads s.draws
  | cmd => exact h.issueCommand v
  | arg => exact h.setOwn s.irqEn v s.sched s.reads s.draws
  | inData => exact h.pushIn v
  | id | result | treeInfo | inLevel | outData | outLevel | bitsIn | bitsOut | bitpos | reserved => exact h

theorem State.Inv.readWhenIdle (h : s.Inv) (v : Word) : (readWhenIdle v s).2.Inv := by
  unfold Machine.readWhenIdle
  split
  · exact h.setOwn s.irqEn s.arg s.sched s.reads (s.draws + 1)
  · exact h

theorem State.Inv.popOut (h : s.Inv) : (popOut s).2.Inv := by
  unfold Machine.popOut
  split
  · exact h
  · rename_i b rest hf
    refine h.setOut ?_ h.channels.tail
    have := h.channels.outBound
    rw [hf, List.length_cons] at this
    exact Nat.le_of_succ_le this

theorem State.Inv.readReg (h : s.Inv) (r : Reg) : (readReg r s).2.Inv := by
  cases r with
  | result | treeInfo | bitsIn | bitsOut | bitpos => exact h.readWhenIdle _
  | outData => exact h.popOut
  | id | ctrl | status | irqEn | cmd | arg | inData | inLevel | outLevel | reserved => exact h

theorem State.Inv.accessReg (h : s.Inv) (r : Reg) (k : AccessKind) : (accessReg r k s).Inv := by
  cases k with
  | read =>
    have hr := h.readReg r
    exact hr.setOwn _ _ _ ((Machine.readReg r s).1 :: (Machine.readReg r s).2.reads) _
  | write v => exact h.writeReg r v

/-! ### The invariant through the primitives of the commands

A bit read or written leaves the engine at its program point, or goes on with the command; `hi` says that what the point
needs of the work variables is still there (10_state.md R58). -/

theorem State.Inv.mid {i : Instr} (h : s.Inv) (hb : s.status.busy = true) (hd : decode s.eng.cmd = .ok i) : Mid i s :=
  ⟨hb, h.params, h.status, h.channels, hd⟩

/-- A write at a program point, one bit of several: the engine stays there, or `k` goes on. -/
theorem post_writeAt {i : Instr} {p : ProgPoint} {k : State → Flow} (h : Mid i s) (hp : s.eng.pp = p)
    (hmem : p ∈ commandPoints i) (hw : s.eng.work.wq ≠ [])
    (hk : ∀ o, Mid i (writeNext o [] s) → Safe (k (writeNext o [] s)))
    (hi : ∀ u : State, u.eng.pp = p → u.eng.work.wq ≠ [] → u.tree = s.tree → u.eng.work.x = s.eng.work.x →
      pointInv i u) :
    (performWrite k s).Post False State.Inv :=
  safe_write h hw hk (fun _ _ hr hm => hm.at (hp ▸ hmem) (hi _ hp hr rfl rfl))

/-- A read of a field of `n` bits at a program point: the engine stays there, or the field's end goes on. -/
theorem post_readAt {i : Instr} {p : ProgPoint} {n : Nat} {done : Word → State → Flow} {eod : Nat → State → Flow}
    (h : Mid i s) (hp : s.eng.pp = p) (hmem : p ∈ commandPoints i) (hn : s.eng.work.rk < n)
    (hd : ∀ v b c, Mid i (readBitsNext b (s.setInp c)) → Safe (done v (readBitsNext b (s.setInp c))))
    (he : ∀ k, Safe (eod k s))
    (hi : ∀ u : State, u.eng.pp = p → u.eng.work.rk < n → u.eng.work.counts = s.eng.work.counts → pointInv i u) :
    (performReadBits n done eod s).Post False State.Inv :=
  safe_readBits h hd he (fun _ _ hne hm => hm.at (hp ▸ hmem) (hi _ hp (by simp; omega) rfl))

/-! ### The micro-step at each program point -/

theorem post_freqByte (h : Mid .freqCount s) (hp : s.eng.pp = .freqByte) (hn : s.eng.work.rk < 8) :
    (performReadBits 8 countByte countEnd s).Post False State.Inv := by
  refine post_readAt h hp (by simp [commandPoints]) hn (fun v _ _ hm => safe_countByte hm v) (fun k => ?_)
    (fun u hp hn _ => by simpa [pointInv, hp] using hn)
  unfold countEnd
  split
  · exact safe_finish h _
  · exact safe_fail h (by simp)

theorem post_serInt (h : Mid .serialize s) (hp : s.eng.pp = .serInt) (hw : s.eng.work.wq ≠ [])
    (hx : (s.tree.nodes.get s.eng.work.x).isInt = true) : (performWrite serializeInt s).Post False State.Inv := by
  refine post_writeAt h hp (by simp [commandPoints]) hw (fun o hm => ?_)
    (fun u hp hw ht hx' => by simpa [pointInv, hp, ht, hx'] using ⟨hw, hx⟩)
  unfold serializeInt
  dsimp only
  split
  · exact safe_serializeLoop (hm.setWork _)
  · rename_i y hn
    simp only [writeNext_tree, writeNext_eng] at hn
    rw [hn] at hx
    cases hx

theorem post_serLeaf (h : Mid .serialize s) (hp : s.eng.pp = .serLeaf) (hw : s.eng.work.wq ≠ []) :
    (performWrite serializeLeaf s).Post False State.Inv :=
  post_writeAt h hp (by simp [commandPoints]) hw (fun _ hm => safe_serializeLoop (hm.setWork _))
    (fun u hp hw _ _ => by simpa [pointInv, hp] using hw)

theorem post_desMark (h : Mid .deserialize s) (hc : s.eng.work.counts) :
    (performRead deserializeMark (fail .truncated) s).Post False State.Inv :=
  safe_read h (fun b _ hm => safe_deserializeMark hm hc b) (safe_fail h (by simp))

theorem post_desSym (h : Mid .deserialize s) (hp : s.eng.pp = .desSym) (hc : s.eng.work.counts) (hn : s.eng.work.rk < 9) :
    (performReadBits 9 deserializeSymbol (fun _ => fail .truncated) s).Post False State.Inv :=
  post_readAt h hp (by simp [commandPoints]) hn (fun v _ _ hm => safe_deserializeSymbol hm hc v)
    (fun _ => safe_fail h (by simp)) (fun u hp hn he => by simpa [pointInv, hp, he] using ⟨hc, hn⟩)

theorem post_encByte (h : Mid .encode s) (hp : s.eng.pp = .encByte) (hn : s.eng.work.rk < 8) :
    (performReadBits 8 encodeByte encodeEod s).Post False State.Inv :=
  post_readAt h hp (by simp [commandPoints]) hn (fun v _ _ hm => safe_encodeByte hm v) (fun k => safe_encodeEod h k)
    (fun u hp hn _ => by simpa [pointInv, hp] using hn)

theorem post_encCode (h : Mid .encode s) (hp : s.eng.pp = .encCode) (hw : s.eng.work.wq ≠ []) :
    (performWrite encodeNext s).Post False State.Inv :=
  post_writeAt h hp (by simp [commandPoints]) hw (fun _ hm => safe_encodeNext hm)
    (fun u hp hw _ _ => by simpa [pointInv, hp] using hw)

theorem post_encEnd (h : Mid .encode s) (hp : s.eng.pp = .encEnd) (hw : s.eng.work.wq ≠ []) :
    (performWrite encodeDone s).Post False State.Inv :=
  post_writeAt h hp (by simp [commandPoints]) hw (fun _ hm => safe_finish hm _)
    (fun u hp hw _ _ => by simpa [pointInv, hp] using hw)

theorem post_encSym {sym : BitVec 10} (h : Mid (.encodeSym sym) s) (hp : s.eng.pp = .encSym) (hw : s.eng.work.wq ≠ []) :
    (performWrite (encodeSymDone sym) s).Post False State.Inv :=
  post_writeAt h hp (by simp [commandPoints]) hw (fun _ hm => safe_finish hm _)
    (fun u hp hw _ _ => by simpa [pointInv, hp] using hw)

/-- One bit of a walk, from an internal node. -/
theorem post_walk {i : Instr} {p : ProgPoint} {k : Symbol → State → Flow} (h : Mid i s) (hmem : p ∈ commandPoints i)
    (hcur : (s.tree.nodes.get s.eng.work.cur).isInt = true)
    (hi : ∀ u : State, u.eng.pp = p → (u.tree.nodes.get u.eng.work.cur).isInt = true → pointInv i u)
    (hk : ∀ y (u : State), Mid i u → Safe (k y u)) :
    (performRead (walkBit p k) (fail .truncated) s).Post False State.Inv := by
  refine safe_read h (fun b c hm => ?_) (safe_fail h (by simp))
  unfold walkBit
  split
  · exact safe_walkLoop (hm.setWork _) hmem hi (fun y => hk y _ (hm.setWork _))
  · rename_i y hn
    simp only [State.setInp_tree, State.setInp_eng] at hn
    rw [hn] at hcur
    cases hcur

theorem post_decWalk (h : Mid .decode s) (hcur : (s.tree.nodes.get s.eng.work.cur).isInt = true) :
    (performRead (walkBit .decWalk decodeSymbol) (fail .truncated) s).Post False State.Inv :=
  post_walk h (by simp [commandPoints]) hcur (fun u hp hc => by simpa [pointInv, hp] using hc)
    (fun y _ hm => safe_decodeSymbol hm y)

theorem post_decByte (h : Mid .decode s) (hp : s.eng.pp = .decByte) (hw : s.eng.work.wq ≠ []) :
    (performWrite decodeNext s).Post False State.Inv :=
  post_writeAt h hp (by simp [commandPoints]) hw (fun _ hm => safe_decodeNext hm)
    (fun u hp hw _ _ => by simpa [pointInv, hp] using hw)

theorem post_dsymWalk (h : Mid .decodeSym s) (hcur : (s.tree.nodes.get s.eng.work.cur).isInt = true) :
    (performRead (walkBit .dsymWalk decodeSymDone) (fail .truncated) s).Post False State.Inv :=
  post_walk h (by simp [commandPoints]) hcur (fun u hp hc => by simpa [pointInv, hp] using hc)
    (fun _ _ hm => safe_finish hm _)

theorem post_putBit {nm1 : BitVec 5} (h : Mid (.putBits nm1) s) (hp : s.eng.pp = .putBit) (hw : s.eng.work.wq ≠ []) :
    (performWrite (finish none) s).Post False State.Inv :=
  post_writeAt h hp (by simp [commandPoints]) hw (fun _ hm => safe_finish hm _)
    (fun u hp hw _ _ => by simpa [pointInv, hp] using hw)

theorem post_getBit {nm1 : BitVec 5} (h : Mid (.getBits nm1) s) (hp : s.eng.pp = .getBit)
    (hn : s.eng.work.rk < bitCount nm1) :
    (performReadBits (bitCount nm1) (fun v => finish (some v)) (fun _ => fail .truncated) s).Post False State.Inv :=
  post_readAt h hp (by simp [commandPoints]) hn (fun _ _ _ hm => safe_finish hm _) (fun _ => safe_fail h (by simp))
    (fun u hp hn _ => by simpa [pointInv, hp, Instr.nOperand] using hn)

theorem post_flushByte (h : Mid .flush s) : (performFlush s).Post False State.Inv := by
  unfold performFlush
  split
  · trivial
  · rename_i n o hf
    obtain ⟨-, -, -, ht, hl⟩ := flushByte_some hf h.channels.tail h.channels.outBound
    have hm : Mid .flush (s.setOut o) := ⟨h.busy, h.params, h.status, ⟨h.channels.inBound, hl, ht⟩, h.cmd⟩
    exact hm.completed _

theorem post_magicOut (h : Mid .magicWrite s) (hp : s.eng.pp = .magicOut) (hw : s.eng.work.wq ≠ []) :
    (performWrite (finish none) s).Post False State.Inv :=
  post_writeAt h hp (by simp [commandPoints]) hw (fun _ hm => safe_finish hm _)
    (fun u hp hw _ _ => by simpa [pointInv, hp] using hw)

theorem safe_magicCompare (h : Mid .magicCheck s) (v : Word) : Safe (magicCompare v s) := by
  unfold magicCompare
  split
  · exact safe_finish h _
  · exact safe_fail (h.setResult v) (by simp)

theorem post_magicIn (h : Mid .magicCheck s) (hp : s.eng.pp = .magicIn) (hn : s.eng.work.rk < 32) :
    (performReadBits 32 magicCompare (fun _ => fail .truncated) s).Post False State.Inv :=
  post_readAt h hp (by simp [commandPoints]) hn (fun v _ _ hm => safe_magicCompare hm v) (fun _ => safe_fail h (by simp))
    (fun u hp hn _ => by simpa [pointInv, hp] using hn)

/-! ### The micro-step of every command -/

theorem then_beginWrite {B : Prop} {P : State → Prop} {perform : State → Micro} {p : ProgPoint} {bits : List Bool}
    {k : State → Flow} (h0 : bits = [] → (k s).Then B P perform)
    (h1 : bits ≠ [] → (perform (standWrite p bits s)).Post B P) : (beginWrite p bits k s).Then B P perform := by
  cases bits with
  | nil => exact h0 rfl
  | cons b bs => exact h1 (by simp)

theorem then_walkLoop {B : Prop} {P : State → Prop} {perform : State → Micro} {p : ProgPoint} {k : Symbol → State → Flow}
    (hi : (s.tree.nodes.get s.eng.work.cur).isInt = true → (perform (s.setPp p)).Post B P)
    (hk : ∀ y, (k y s).Then B P perform) : (walkLoop p k s).Then B P perform := by
  unfold walkLoop
  split
  · rename_i hn
    exact hi (by rw [hn]; rfl)
  · exact hk _

/-- The micro-step of a running command: the first one, or one at a point of its pseudocode. -/
theorem Mid.runCommand {i : Instr} {inRange needsTree : Bool} {enter : State → Flow} {perform : State → Micro}
    (hm : Mid i s) (h : s.Inv) (hpp : s.eng.pp = .start ∨ s.eng.pp ∈ commandPoints i)
    (he : (enter s).Then False State.Inv perform)
    (hp : s.eng.pp ∈ commandPoints i → (perform s).Post False State.Inv) :
    OutcomePost False State.Inv (runCommand inRange needsTree enter perform s) :=
  post_runCommand h (fun _ => hm.failed (by simp)) (fun _ => hm.failed (by simp)) (fun _ _ _ => he)
    (fun hne => hp (hpp.resolve_left hne))

theorem Mid.then_finish {i : Instr} (h : Mid i s) (r : Option Word) (perform : State → Micro) :
    (finish r s).Then False State.Inv perform := h.completed r

/-- A command that has no primitive ends in its first micro-step. -/
theorem Mid.runPure {i : Instr} {inRange needsTree : Bool} {enter : State → Flow}
    (hm : Mid i s) (h : s.Inv) (hpp : s.eng.pp = .start ∨ s.eng.pp ∈ commandPoints i) (hc : commandPoints i = [])
    (he : (enter s).Then False State.Inv noPrimitive) :
    OutcomePost False State.Inv (Machine.runCommand inRange needsTree enter noPrimitive s) :=
  hm.runCommand h hpp he (fun hp => by simp [hc] at hp)

/-- A micro-step of the running command keeps the invariant, and does not fault. -/
theorem exec_inv {i : Instr} (h : s.Inv) (hb : s.status.busy = true) (hd : decode s.eng.cmd = .ok i) :
    OutcomePost False State.Inv (exec i s) := by
  have hm := h.mid hb hd
  obtain ⟨hpp, hi⟩ : (s.eng.pp = .start ∨ s.eng.pp ∈ commandPoints i) ∧ pointInv i s := by
    have := h.engine hb
    rwa [hd] at this
  cases i with
  | nop =>
    dsimp only [exec, execNop]
    exact hm.runPure h hpp rfl (hm.then_finish _ _)
  | freqClear =>
    dsimp only [exec, execFreqClear]
    exact hm.runPure h hpp rfl ((hm.setFreq _).then_finish _ _)
  | freqWrite sym =>
    dsimp only [exec, execFreqWrite]
    exact hm.runPure h hpp rfl ((hm.setFreq _).then_finish _ _)
  | freqRead sym =>
    dsimp only [exec, execFreqRead]
    exact hm.runPure h hpp rfl (hm.then_finish _ _)
  | freqCount =>
    dsimp only [exec, execFreqCount]
    refine hm.runCommand h hpp (post_freqByte ((hm.setWork _).standRead _) rfl (by simp)) (fun hp => ?_)
    simp only [commandPoints, List.mem_singleton] at hp
    simp only [pointInv, hp] at hi ⊢
    exact post_freqByte hm hp hi
  | build =>
    dsimp only [exec, execBuild]
    exact hm.runPure h hpp rfl ((hm.setTree _).then_finish _ _)
  | serialize =>
    dsimp only [exec, execSerialize]
    refine hm.runCommand h hpp ?_ (fun hp => ?_)
    · rw [serializeLoop_cons rfl, Flow.then_atPrimitive]
      have hw := hm.setWork { s.eng.work with stk := [], nbits := 0, x := s.tree.root }
      cases hn : s.tree.nodes.get s.tree.root with
      | int l r =>
        simp only [nodeEntry, State.setWork_tree, hn]
        exact post_serInt (hw.standWrite _ _) rfl (by simp) (by simp [hn, Node.isInt])
      | leaf y =>
        simp only [nodeEntry, State.setWork_tree, hn]
        exact post_serLeaf (hw.standWrite _ _) rfl (by simp)
    · simp only [commandPoints, List.mem_cons, List.not_mem_nil, or_false] at hp
      rcases hp with hp | hp <;> simp only [pointInv, hp] at hi ⊢
      · exact post_serInt hm hp hi.1 hi.2
      · exact post_serLeaf hm hp hi
  | deserialize =>
    dsimp only [exec, execDeserialize]
    refine hm.runCommand h hpp ?_ (fun hp => ?_)
    · exact post_desMark (s := deserializeFirst s) (((hm.setTree _).setWork _).setPp _) ⟨rfl, rfl, Nat.zero_le _⟩
    · simp only [commandPoints, List.mem_cons, List.not_mem_nil, or_false] at hp
      rcases hp with hp | hp <;> simp only [pointInv, hp] at hi ⊢
      · exact post_desMark hm hi
      · exact post_desSym hm hp hi.1 hi.2
  | encode =>
    dsimp only [exec, execEncode]
    refine hm.runCommand h hpp (post_encByte ((hm.setWork _).standRead _) rfl (by simp)) (fun hp => ?_)
    simp only [commandPoints, List.mem_cons, List.not_mem_nil, or_false] at hp
    rcases hp with hp | hp | hp <;> simp only [pointInv, hp] at hi ⊢
    · exact post_encByte hm hp hi
    · exact post_encCode hm hp hi
    · exact post_encEnd hm hp hi
  | encodeSym sym =>
    dsimp only [exec, execEncodeSym]
    refine hm.runCommand h hpp ?_ (fun hp => ?_)
    · split
      · exact then_beginWrite (fun _ => hm.completed _) (fun hw => post_encSym (hm.standWrite _ _) rfl hw)
      · exact hm.failed (by simp)
    · simp only [commandPoints, List.mem_singleton] at hp
      simp only [pointInv, hp] at hi ⊢
      exact post_encSym hm hp hi
  | decode =>
    dsimp only [exec, execDecode]
    refine hm.runCommand h hpp ?_ (fun hp => ?_)
    · have hw := (hm.setWork { s.eng.work with cnt := 0 }).setWork { s.eng.work with cnt := 0, cur := s.tree.root }
      refine then_walkLoop (fun hc => post_decWalk (hw.setPp _) hc) (fun y => ?_)
      unfold decodeSymbol
      split
      · exact hw.completed _
      · exact then_beginWrite (fun h0 => absurd h0 (bitsMsb_ne_nil _ (by omega)))
          (fun hne => post_decByte (hw.standWrite _ _) rfl hne)
    · simp only [commandPoints, List.mem_cons, List.not_mem_nil, or_false] at hp
      rcases hp with hp | hp <;> simp only [pointInv, hp] at hi ⊢
      · exact post_decWalk hm hi
      · exact post_decByte hm hp hi
  | decodeSym =>
    dsimp only [exec, execDecodeSym]
    refine hm.runCommand h hpp ?_ (fun hp => ?_)
    · have hw := hm.setWork { s.eng.work with cur := s.tree.root }
      exact then_walkLoop (fun hc => post_dsymWalk (hw.setPp _) hc) (fun y => hw.completed _)
    · simp only [commandPoints, List.mem_singleton] at hp
      simp only [pointInv, hp] at hi ⊢
      exact post_dsymWalk hm hi
  | putBits nm1 =>
    dsimp only [exec, execPutBits]
    refine hm.runCommand h hpp ?_ (fun hp => ?_)
    · exact then_beginWrite (fun _ => hm.completed _) (fun hw => post_putBit (hm.standWrite _ _) rfl hw)
    · simp only [commandPoints, List.mem_singleton] at hp
      simp only [pointInv, hp] at hi ⊢
      exact post_putBit hm hp hi
  | getBits nm1 =>
    dsimp only [exec, execGetBits]
    refine hm.runCommand h hpp (post_getBit (hm.standRead _) rfl (Nat.succ_pos _)) (fun hp => ?_)
    simp only [commandPoints, List.mem_singleton] at hp
    simp only [pointInv, hp] at hi ⊢
    exact post_getBit hm hp hi
  | flush =>
    dsimp only [exec, execFlush]
    refine hm.runCommand h hpp (post_flushByte (hm.setPp _)) (fun hp => ?_)
    simp only [commandPoints, List.mem_singleton] at hp
    simp only [hp]
    exact post_flushByte hm
  | alignIn =>
    dsimp only [exec, execAlignIn]
    exact hm.runPure h hpp rfl ((hm.setInp (by rfl)).then_finish _ _)
  | magicWrite =>
    dsimp only [exec, execMagicWrite]
    refine hm.runCommand h hpp ?_ (fun hp => ?_)
    · exact then_beginWrite (fun _ => hm.completed _) (fun hw => post_magicOut (hm.standWrite _ _) rfl hw)
    · simp only [commandPoints, List.mem_singleton] at hp
      simp only [pointInv, hp] at hi ⊢
      exact post_magicOut hm hp hi
  | magicCheck =>
    dsimp only [exec, execMagicCheck]
    refine hm.runCommand h hpp (post_magicIn (hm.standRead _) rfl (by simp)) (fun hp => ?_)
    simp only [commandPoints, List.mem_singleton] at hp
    simp only [pointInv, hp] at hi ⊢
    exact post_magicIn hm hp hi
  | nodeRead node =>
    dsimp only [exec, execNodeRead]
    exact hm.runPure h hpp rfl (hm.then_finish _ _)
  | codeLenRead sym =>
    dsimp only [exec, execCodeLenRead]
    exact hm.runPure h hpp rfl (hm.then_finish _ _)
  | codeBitsRead sym w =>
    dsimp only [exec, execCodeBitsRead]
    exact hm.runPure h hpp rfl (hm.then_finish _ _)

/-! ### The step -/

theorem engineStep_inv {t : State} (h : s.Inv) (hs : engineStep s = .next t) : t.Inv := by
  rcases engineStep_cases hs with rfl | ⟨hb, rfl⟩ | ⟨i, hb, hd, he⟩
  · exact h
  · exact h.raised hb (by simp)
  · exact (exec_inv h hb hd).next he

theorem State.Inv.setSched (h : s.Inv) (q : List Move) : (s.setSched q).Inv := h.setOwn s.irqEn s.arg q s.reads s.draws

/-- Settles O58: the engine's turn keeps the invariant at each program point, a host access at each register. -/
theorem everyStepKeepsTheInvariant : Obligations.EveryStepKeepsTheInvariant := by
  intro s t h hs
  obtain ⟨u, rfl, he | ⟨r, k, rfl⟩⟩ := step_cases hs
  · exact engineStep_inv (h.setSched _) he
  · exact (h.setSched _).accessReg r k

end Sys2Proof.Machine
end

/-! ## A valid tree through every step -/

section
namespace Sys2Proof.Machine

/-! ### The tree that BUILD makes (42_tree_build.md R220, R223) -/

/-- `BUILD` leaves a complete tree over the seeds, with its code table, whatever the memories held before. -/
theorem buildTree_holdsTree (freq : Vector Word 256) (t : TreeMem) : HoldsTree (buildTree freq t).1 := by
  obtain ⟨hL2, hL⟩ := seedLeaves_length freq
  have hn : (seed freq t.nodes t.wfreq).n = (seedLeaves freq).length := (seeded freq t.nodes t.wfreq).n
  have hact : (List.range (seedLeaves freq).length).map (Fin.ofNat 513) ≠ [] := by
    simp only [ne_eq, List.map_eq_nil_iff, List.range_eq_nil]
    omega
  have hinv := mergeInv_seed freq t.nodes t.wfreq
  unfold buildTree
  generalize seed freq t.nodes t.wfreq = d at hn hinv ⊢
  rw [hn] at hinv
  obtain ⟨root, hroot, ⟨fs, hroots, hfits, hidx, hsyms⟩, -, -⟩ :=
    mergeLoop_spec _ (seedLeaves freq).length _ _ _ _ hinv hact (by simp) (by simp; omega)
  simp only [List.length_map, List.length_range] at hroot hidx
  obtain ⟨sh, rfl, hsh⟩ : ∃ sh, fs = [sh] ∧ sh.root = root := by
    obtain ⟨sh, rfl⟩ := List.length_eq_one_iff.mp (by simpa using hroots.length_eq)
    exact ⟨sh, rfl, by simpa using hroots⟩
  simp only [List.flatMap_cons, List.flatMap_nil, List.append_nil] at hidx hsyms
  have hfit := hfits sh (by simp)
  have hnd : sh.symbols.Nodup := hsyms.nodup_iff.mpr (seedLeaves_nodup freq)
  have hlen : sh.symbols.length = (seedLeaves freq).length := by simpa using hsyms.length_eq
  have hr : Fin.ofNat 513 (2 * d.n - 2) = sh.root := by
    apply Fin.ext
    rw [ofNat_val (by omega), hsh]
    omega
  have hcount : (BitVec.ofNat 10 (2 * d.n - 1)).toNat = 2 * (seedLeaves freq).length - 1 := by
    rw [BitVec.toNat_ofNat, hn]
    omega
  dsimp only
  rw [hn] at hr hcount ⊢
  rw [hr]
  refine ⟨sh, ⟨hfit, rfl, ?_, ?_, hnd, ?_, by omega, by dsimp only; omega⟩, buildCodes_spec hfit hnd⟩
  · dsimp only
    rw [hcount]
    convert hidx using 2
    omega
  · cases sh with
    | leaf x y =>
      simp only [Shape.symbols, List.length_singleton] at hlen
      omega
    | int x l r => rfl
  · rw [hsyms.mem_iff]
    simp [seedLeaves]

/-! ### The engine's turn -/

variable {s t : State}

theorem treeInv_raised (h : TreeInv s) (e : ErrCode) : TreeInv (raiseError e s) := treeInv_notBusy rfl h.valid

theorem exec_build_treeInv (h : TreeInv s) : OutcomePost True TreeInv (exec .build s) := by
  dsimp only [exec, execBuild]
  refine post_runCommand h (fun _ => treeInv_raised h _) (fun _ => treeInv_raised h _) (fun _ _ _ => ?_)
    (fun _ => trivial)
  exact treeInv_notBusy rfl (fun _ => buildTree_holdsTree s.freq s.tree)

theorem exec_deserialize_treeInv (h : s.Inv) (ht : TreeInv s) (hb : s.status.busy = true)
    (hd : decode s.eng.cmd = .ok .deserialize) : OutcomePost True TreeInv (exec .deserialize s) := by
  obtain ⟨hpp, hi⟩ : (s.eng.pp = .start ∨ s.eng.pp ∈ commandPoints .deserialize) ∧ pointInv .deserialize s := by
    have := h.engine hb
    rwa [hd] at this
  dsimp only [exec, execDeserialize]
  refine post_runCommand ht (fun _ => treeInv_raised ht _) (fun _ => treeInv_raised ht _) (fun _ _ _ => ?_)
    (fun hne => ?_)
  · exact tree_desMark (s := deserializeFirst s) (growing_first s) ⟨rfl, rfl, Nat.zero_le _⟩
  · have hg := ht.growing hb hd hne
    have hp := hpp.resolve_left hne
    simp only [commandPoints, List.mem_cons, List.not_mem_nil, or_false] at hp
    rcases hp with hp | hp <;> simp only [pointInv, hp] at hi ⊢
    · exact tree_desMark hg hi
    · exact tree_desSym hg hi.1

/-- A command that writes no tree leaves the tree invariant as it is. -/
theorem TreeInv.keep {i : Instr} (h : TreeInv s) (hd : decode s.eng.cmd = .ok i) (hi : writesTree i = false)
    (he : exec i s = .next t) : TreeInv t where
  valid := by
    rw [exec_tree hi he]
    exact h.valid
  growing _ hd' _ := by
    rw [(exec_engineKeeps he).cmd, hd] at hd'
    obtain rfl := Except.ok.inj hd'
    cases hi

theorem writesTree_iff (i : Instr) : writesTree i = true ↔ i = .build ∨ i = .deserialize := by
  cases i <;> simp [writesTree]

theorem exec_treeInv {i : Instr} (h : s.Inv) (ht : TreeInv s) (hb : s.status.busy = true)
    (hd : decode s.eng.cmd = .ok i) (he : exec i s = .next t) : TreeInv t := by
  cases hi : writesTree i with
  | false => exact ht.keep hd hi he
  | true =>
    obtain rfl | rfl := (writesTree_iff i).mp hi
    · exact (exec_build_treeInv ht).next he
    · exact (exec_deserialize_treeInv h ht hb hd).next he

theorem engineStep_treeInv (h : s.Inv) (ht : TreeInv s) (hs : engineStep s = .next t) : TreeInv t := by
  rcases engineStep_cases hs with rfl | ⟨-, rfl⟩ | ⟨i, hb, hd, he⟩
  · exact ht
  · exact treeInv_raised ht _
  · exact exec_treeInv h ht hb hd he

/-! ### What a host access leaves alone (10_state.md R32, R49) -/

/-- What no host access but a soft reset and an accepted command writes. No such access starts a command. -/
structure HostKeeps (s t : State) : Prop where
  result : t.result = s.result
  freq : t.freq = s.freq
  tree : t.tree = s.tree
  params : t.params = s.params
  eng : t.eng = s.eng
  busy : t.status.busy = true → s.status.busy = true

theorem HostKeeps.refl (s : State) : HostKeeps s s := ⟨rfl, rfl, rfl, rfl, rfl, id⟩

theorem HostKeeps.trans {u : State} (h : HostKeeps s t) (g : HostKeeps t u) : HostKeeps s u :=
  ⟨g.result.trans h.result, g.freq.trans h.freq, g.tree.trans h.tree, g.params.trans h.params, g.eng.trans h.eng,
    h.busy ∘ g.busy⟩

theorem hostKeeps_setStatus (s : State) {v : Status} (hb : v.busy = true → s.status.busy = true) :
    HostKeeps s (s.setStatus v) := ⟨rfl, rfl, rfl, rfl, rfl, hb⟩

theorem hostKeeps_setInp (s : State) (c : InChan) : HostKeeps s (s.setInp c) := ⟨rfl, rfl, rfl, rfl, rfl, id⟩

theorem hostKeeps_setOut (s : State) (c : OutChan) : HostKeeps s (s.setOut c) := ⟨rfl, rfl, rfl, rfl, rfl, id⟩

/-- The fields that the host alone writes, and the model's own. -/
theorem hostKeeps_own (s : State) (e : IrqEn) (a : Word) (q : List Move) (r : List Word) (d : Nat) :
    HostKeeps s { s with irqEn := e, arg := a, sched := q, reads := r, draws := d } := ⟨rfl, rfl, rfl, rfl, rfl, id⟩

theorem hostKeeps_onBit {f : State → State} (hf : ∀ u, HostKeeps u (f u)) (b : Bool) (s : State) :
    HostKeeps s (onBit b f s) := by
  cases b
  · exact HostKeeps.refl s
  · exact hf s

theorem hostKeeps_abortCommand (s : State) : HostKeeps s (abortCommand s) := by
  unfold abortCommand
  split
  · exact hostKeeps_setStatus s (by simp)
  · exact HostKeeps.refl s

theorem hostKeeps_clearIn (s : State) : HostKeeps s (clearIn s) := by
  unfold clearIn
  split
  · exact HostKeeps.refl s
  · exact hostKeeps_setInp s _

theorem hostKeeps_clearOut (s : State) : HostKeeps s (clearOut s) := by
  unfold clearOut
  split
  · exact HostKeeps.refl s
  · exact hostKeeps_setOut s _

/-- A `CTRL` write without `SRST`: its actions reach the flags and the channels alone (10_state.md R33). -/
theorem hostKeeps_writeCtrl {v : Word} (hv : v.getLsbD 0 = false) (s : State) : HostKeeps s (writeCtrl v s) := by
  unfold writeCtrl
  rw [hv, if_neg Bool.false_ne_true]
  exact (((hostKeeps_onBit hostKeeps_abortCommand _ s).trans (hostKeeps_onBit hostKeeps_clearIn _ _)).trans
    (hostKeeps_onBit hostKeeps_clearOut _ _)).trans (hostKeeps_onBit (fun u => hostKeeps_setInp u _) _ _)

theorem hostKeeps_pushIn (v : Word) (s : State) : HostKeeps s (pushIn v s) := by
  unfold pushIn
  split
  · exact hostKeeps_setStatus s id
  · exact hostKeeps_setInp s _

theorem hostKeeps_writeReg {r : Reg} {v : Word} (hr : r ≠ .cmd) (hv : r = .ctrl → v.getLsbD 0 = false) (s : State) :
    HostKeeps s (writeReg r v s) := by
  cases r with
  | cmd => exact absurd rfl hr
  | ctrl => exact hostKeeps_writeCtrl (hv rfl) s
  | status => exact hostKeeps_setStatus s id
  | irqEn => exact hostKeeps_own s (irqEnOfWord v) s.arg s.sched s.reads s.draws
  | arg => exact hostKeeps_own s s.irqEn v s.sched s.reads s.draws
  | inData => exact hostKeeps_pushIn v s
  | id | result | treeInfo | inLevel | outData | outLevel | bitsIn | bitsOut | bitpos | reserved => exact HostKeeps.refl s

theorem hostKeeps_readWhenIdle (v : Word) (s : State) : HostKeeps s (readWhenIdle v s).2 := by
  unfold readWhenIdle
  split
  · exact hostKeeps_own s s.irqEn s.arg s.sched s.reads (s.draws + 1)
  · exact HostKeeps.refl s

theorem hostKeeps_popOut (s : State) : HostKeeps s (popOut s).2 := by
  unfold popOut
  split
  · exact HostKeeps.refl s
  · exact hostKeeps_setOut s _

theorem hostKeeps_hostRead (r : Reg) (s : State) : HostKeeps s (hostRead r s) := by
  have h : HostKeeps s (readReg r s).2 := by
    cases r with
    | result | treeInfo | bitsIn | bitsOut | bitpos => exact hostKeeps_readWhenIdle _ s
    | outData => exact hostKeeps_popOut s
    | id | ctrl | status | irqEn | cmd | arg | inData | inLevel | outLevel | reserved => exact HostKeeps.refl s
  exact h.trans (hostKeeps_own _ _ _ _ ((readReg r s).1 :: (readReg r s).2.reads) _)

/-! ### The host's accesses -/

/-- The tree invariant goes over to a state with the same tree and engine in which no command has been started. -/
theorem TreeInv.transfer (h : TreeInv s) (ht : t.tree = s.tree) (he : t.eng = s.eng)
    (hb : t.status.busy = true → s.status.busy = true) : TreeInv t where
  valid := by
    rw [ht]
    exact h.valid
  growing hbusy hd hp := by
    rw [he] at hd hp
    exact growing_congr (h.growing (hb hbusy) hd hp) ht (by rw [he]) (by rw [he]) (by rw [he]) (by rw [he])

theorem TreeInv.hostKeeps (h : TreeInv s) (hk : HostKeeps s t) : TreeInv t := h.transfer hk.tree hk.eng hk.busy

/-- An accepted command stands at its start, where no tree is under way (40_command_protocol.md R182). -/
theorem TreeInv.issueCommand (h : TreeInv s) (w : Word) : TreeInv (issueCommand w s) := by
  unfold Machine.issueCommand
  split
  · exact h.hostKeeps (hostKeeps_setStatus s id)
  · exact ⟨h.valid, fun _ _ hp => absurd rfl hp⟩

theorem TreeInv.accessReg (h : TreeInv s) (r : Reg) (k : AccessKind) : TreeInv (accessReg r k s) := by
  cases k with
  | read => exact h.hostKeeps (hostKeeps_hostRead r s)
  | write v =>
    change TreeInv (writeReg r v s)
    by_cases hr : r = .cmd
    · subst hr
      exact h.issueCommand v
    · by_cases hv : r = .ctrl ∧ v.getLsbD 0 = true
      · obtain ⟨rfl, hv⟩ := hv
        have hs : writeReg .ctrl v s = softReset s := if_pos hv
        rw [hs]
        exact treeInv_notBusy rfl (fun h => by cases h)
      · refine h.hostKeeps (hostKeeps_writeReg hr (fun hc => ?_) s)
        simpa [hc] using hv

theorem TreeInv.setSched (h : TreeInv s) (q : List Move) : TreeInv (s.setSched q) := h.transfer rfl rfl id

/-- Settles O59: `BUILD` and `DESERIALIZE` alone write the tree; the one leaves a complete tree, the other keeps it growing
until it is one. -/
theorem everyStepKeepsAValidTree : Obligations.EveryStepKeepsAValidTree := by
  intro s t h ht hs
  obtain ⟨u, rfl, he | ⟨r, k, rfl⟩⟩ := step_cases hs
  · exact engineStep_treeInv (h.setSched _) (ht.setSched _) he
  · exact (ht.setSched _).accessReg r k

end Sys2Proof.Machine
end

/-! ## The register block (10_state.md) -/

section
namespace Sys2Proof.Machine

/-! ### The values of the packed registers -/

theorem toNat_append_add {m n : Nat} (x : BitVec m) (y : BitVec n) : (x ++ y).toNat = x.toNat * 2 ^ n + y.toNat := by
  rw [BitVec.toNat_append, ← Nat.shiftLeft_add_eq_or_of_lt y.isLt, Nat.shiftLeft_eq]

/-- R46: `br_cnt` in the low byte, `bw_cnt` in the next. -/
theorem bitposWord_toNat (s : State) : (bitposWord s).toNat = s.inp.brCnt.val + 256 * s.out.bwCnt.val := by
  have h1 := s.inp.brCnt.isLt
  have h2 := s.out.bwCnt.isLt
  simp only [bitposWord, toNat_append_add, BitVec.toNat_ofNat]
  omega

/-- R40: `ROOT` in the low half, `NODE_COUNT` in the high one. -/
theorem treeInfoWord_toNat (t : TreeMem) :
    (treeInfoWord t).toNat = if t.valid then t.root.val + 65536 * t.count.toNat else 0 := by
  have h1 := t.root.isLt
  unfold treeInfoWord
  split
  · simp only [toNat_append_add, NodeIx.field, BitVec.toNat_ofNat]
    omega
  · rfl

/-- R36: `DONE_IE` in bit 0, `ERR_IE` in bit 1. -/
theorem irqEnWord_toNat (e : IrqEn) : (irqEnWord e).toNat = e.doneIe.toNat + 2 * e.errIe.toNat := by
  obtain ⟨d, e⟩ := e
  cases d <;> cases e <;> rfl

/-- R34: the flags in bits 7 to 0. -/
theorem statusWord_flags (s : State) :
    (statusWord s).getLsbD 0 = s.status.busy ∧ (statusWord s).getLsbD 1 = s.status.done ∧
    (statusWord s).getLsbD 2 = s.status.err ∧ (statusWord s).getLsbD 3 = s.tree.valid ∧
    (statusWord s).getLsbD 4 = s.inp.ended ∧ (statusWord s).getLsbD 5 = s.status.inDrop ∧
    (statusWord s).getLsbD 6 = s.status.cmdDrop ∧ (statusWord s).getLsbD 7 = irq s := by
  simp only [statusWord, BitVec.getLsbD_append]
  simp

/-- R34: the three bytes above the flags. -/
theorem statusWord_bytes (s : State) :
    (statusWord s).extractLsb' 8 8 = s.status.errcode.code ∧ (statusWord s).extractLsb' 16 8 = s.status.lastOp ∧
    (statusWord s).extractLsb' 24 8 = 0#8 := by
  simp (disch := omega) only [statusWord, BitVec.extractLsb'_append_eq_of_le, Nat.reduceSub,
    BitVec.extractLsb'_append_eq_right, BitVec.extractLsb'_eq_self, and_self]

/-- Settles O15: the code table, then the fields of the word that `STATUS` reads. -/
theorem statusReadsItsFields : Obligations.StatusReadsItsFields := by
  refine ⟨rfl, fun s => ?_⟩
  obtain ⟨h0, h1, h2, h3, h4, h5, h6, h7⟩ := statusWord_flags s
  exact ⟨h0, h1, h2, h3, h4, h5, h6, h7, statusWord_bytes s⟩

/-! ### Reset (R60) -/

theorem statusWord_reset (p : Params) : statusWord (State.resetWith p) = 0 := by
  simp [statusWord, State.resetWith, Status.reset, InChan.reset, TreeMem.reset, irq, ErrCode.code]

/-- Settles O13: the registers read, and the state holds, what reset puts there; a soft reset is that reset. -/
theorem resetGivesTheResetValues : Obligations.ResetGivesTheResetValues := by
  refine ⟨?_, rfl, fun s v hv => ?_⟩
  · rintro p s rfl
    have hfreq : ∀ k, (State.resetWith p).freq.get k = 0 := get_replicate 0
    have hbitpos : (readReg .bitpos (State.resetWith p)).1 = 0 := BitVec.eq_of_toNat_eq (bitposWord_toNat _)
    have hirqEn : (readReg .irqEn (State.resetWith p)).1 = 0 := BitVec.eq_of_toNat_eq (irqEnWord_toNat _)
    exact ⟨rfl, statusWord_reset p, hirqEn, rfl, rfl, rfl, rfl, rfl, rfl, rfl, rfl, hbitpos, rfl, rfl, rfl, rfl,
      rfl, rfl, rfl, rfl, rfl, rfl, rfl, hfreq, rfl, rfl, rfl, rfl, rfl, rfl⟩
  · change writeCtrl v s = _
    rw [writeCtrl, if_pos hv]
    rfl

/-! ### CTRL (R33) -/

theorem onBit_abortCommand (b : Bool) (s : State) :
    onBit b abortCommand s =
      { s with status := if b && s.status.busy then s.status.failed .aborted else s.status } := by
  cases b
  · rfl
  · cases hb : s.status.busy
    · simp [onBit, abortCommand, hb]
    · simp [onBit, abortCommand, hb, raiseError, State.setStatus, Status.failed]

theorem onBit_clearIn (b : Bool) (s : State) :
    onBit b clearIn s = { s with inp := if b && !s.status.busy then InChan.reset else s.inp } := by
  cases b
  · rfl
  · cases hb : s.status.busy <;> simp [onBit, clearIn, hb, State.setInp]

theorem onBit_clearOut (b : Bool) (s : State) :
    onBit b clearOut s = { s with out := if b && !s.status.busy then OutChan.reset else s.out } := by
  cases b
  · rfl
  · cases hb : s.status.busy <;> simp [onBit, clearOut, hb, State.setOut]

theorem onBit_endIn (b : Bool) (s : State) :
    onBit b endIn s = { s with inp := { s.inp with ended := s.inp.ended || b } } := by
  cases b <;> simp [onBit, endIn, State.setInp]

/-- BUSY as `ABORT` leaves it. -/
theorem busy_after_abort (b : Bool) (st : Status) :
    (if b && st.busy then st.failed .aborted else st).busy = (st.busy && !b) := by
  cases b <;> cases hb : st.busy <;> simp [hb, Status.failed]

/-- Settles O14: each action is a record update guarded by its bit, and they are composed in order. -/
theorem controlActionsInOrder : Obligations.ControlActionsInOrder := by
  intro s v hv
  dsimp only
  change writeCtrl v s = _
  rw [writeCtrl, if_neg (hv ▸ Bool.false_ne_true), onBit_abortCommand, onBit_clearIn, onBit_clearOut, onBit_endIn]
  dsimp only
  rw [busy_after_abort]
  congr 1
  split <;> simp [InChan.reset]

/-! ### STATUS writes (R35) -/

/-- Settles O17: a flag is kept where its bit is 0, which is the same as cleared where it is 1. -/
theorem statusWriteClearsFlags : Obligations.StatusWriteClearsFlags := by
  intro s v
  have and_not (a b : Bool) : (a && !b) = if b then false else a := by cases b <;> simp
  change s.setStatus (s.status.writeOneToClear v) = _
  simp only [Status.writeOneToClear, and_not]
  rfl

/-! ### The channels' registers (R41, R43) -/

/-- Settles O19: the two branches of the push. -/
theorem inDataPushesOrDrops : Obligations.InDataPushesOrDrops := by
  intro s v
  refine ⟨fun h => ?_, fun h1 h2 => ?_, rfl⟩
  · change pushIn v s = _
    rw [pushIn, if_pos (by simpa using h)]
    rfl
  · change pushIn v s = _
    rw [pushIn, if_neg (by simp [h1, h2])]
    rfl

/-- What `WriteBit` pushes goes behind the bytes that are there. -/
theorem writeBit_pushes {depth : Nat} {b : Bool} {c c' : OutChan} (h : writeBit depth b c = some c') :
    ∃ pushed, c'.fifo = c.fifo ++ pushed := by
  unfold writeBit at h
  split at h
  · split at h
    · cases h
    · obtain rfl := (Option.some.inj h).symm
      exact ⟨_, rfl⟩
  · obtain rfl := (Option.some.inj h).symm
    exact ⟨[], (List.append_nil _).symm⟩

/-- So does what `FlushByte` pushes. -/
theorem flushByte_pushes {depth p : Nat} {c c' : OutChan} (h : flushByte depth c = some (p, c')) :
    ∃ pushed, c'.fifo = c.fifo ++ pushed := by
  unfold flushByte at h
  split at h
  · obtain ⟨-, rfl⟩ := Prod.mk.inj (Option.some.inj h)
    exact ⟨[], (List.append_nil _).symm⟩
  · split at h
    · cases h
    · obtain ⟨-, rfl⟩ := Prod.mk.inj (Option.some.inj h)
      exact ⟨_, rfl⟩

theorem popOut_nil {s : State} (h : s.out.fifo = []) : popOut s = (0, s) := by simp [popOut, h]

theorem popOut_cons {s : State} {b : Byte} {rest : List Byte} (h : s.out.fifo = b :: rest) :
    popOut s = (0#23 ++ 1#1 ++ b, s.setOut { s.out with fifo := rest }) := by simp [popOut, h]

/-- The byte popped stands below the flag VALID in bit 8. -/
theorem popped_word (b : Byte) : (0#23 ++ 1#1 ++ b : Word) = 0x100#32 ||| b.setWidth 32 := rfl

/-- Settles O20: `OUT` is taken off at its head, and the engine's two primitives that push append to it. -/
theorem outDataPopsTheOldestByte : Obligations.OutDataPopsTheOldestByte := by
  intro s
  refine ⟨popOut_nil, fun b rest h => ?_, fun _ => rfl, fun _ _ => writeBit_pushes, fun _ _ => flushByte_pushes⟩
  change popOut s = _
  rw [popOut_cons h, popped_word]
  rfl

/-! ### Reads that are exact only while idle (R62) -/

theorem readWhenIdle_busy {s : State} (h : s.status.busy = true) (v : Word) :
    readWhenIdle v s = (Config.freeWord s.draws, s.setDraws (s.draws + 1)) := if_pos h

theorem readWhenIdle_idle {s : State} (h : s.status.busy = false) (v : Word) : readWhenIdle v s = (v, s) :=
  if_neg (by simp [h])

/-- Settles O21: the five registers are reads of `readWhenIdle`, and the packed ones have the values above. -/
theorem fiveRegistersReadFreelyWhileBusy : Obligations.FiveRegistersReadFreelyWhileBusy := by
  intro s
  refine ⟨fun hb r hr => ?_, fun hb => ?_⟩
  · simp only [List.mem_cons, List.not_mem_nil, or_false] at hr
    rcases hr with rfl | rfl | rfl | rfl | rfl <;> exact readWhenIdle_busy hb _
  · have hi := readWhenIdle_idle hb
    refine ⟨hi _, hi _, hi _, ?_, ?_, ?_, ?_⟩
    · exact congrArg Prod.snd (hi (bitposWord s))
    · rw [← bitposWord_toNat]
      exact congrArg (fun p => p.1.toNat) (hi (bitposWord s))
    · exact congrArg Prod.snd (hi (treeInfoWord s.tree))
    · rw [← treeInfoWord_toNat]
      exact congrArg (fun p => p.1.toNat) (hi (treeInfoWord s.tree))

/-! ### What no host access writes (R32, R49) -/

/-- A `CMD` write, accepted or dropped, leaves the results and the memories alone. -/
theorem issueCommand_frame (w : Word) (s : State) :
    (issueCommand w s).result = s.result ∧ (issueCommand w s).freq = s.freq ∧ (issueCommand w s).tree = s.tree ∧
      (issueCommand w s).params = s.params := by
  unfold issueCommand
  split <;> exact ⟨rfl, rfl, rfl, rfl⟩

/-- Settles O23: a `CMD` write is looked at by itself; every other access is one that `HostKeeps` speaks of. -/
theorem hostAccessesLeaveTheEngineAlone : Obligations.HostAccessesLeaveTheEngineAlone := by
  refine ⟨fun r k s hv => ?_, fun v s => ⟨rfl, rfl, rfl, irqEnWord_toNat _⟩, fun v s r hr => ?_⟩
  · by_cases hr : r = .cmd ∧ ∃ w, k = .write w
    · obtain ⟨rfl, w, rfl⟩ := hr
      obtain ⟨h1, h2, h3, h4⟩ := issueCommand_frame w s
      exact ⟨h1, h2, h3, h4, fun h => absurd rfl h⟩
    · have hk : HostKeeps s (accessReg r k s) := by
        cases k with
        | read => exact hostKeeps_hostRead r s
        | write w =>
          exact hostKeeps_writeReg (fun h => hr ⟨h, w, rfl⟩) (fun h => hv w h rfl) s
      exact ⟨hk.result, hk.freq, hk.tree, hk.params, fun _ => hk.eng⟩
  · simp only [List.mem_cons, List.not_mem_nil, or_false] at hr
    rcases hr with rfl | rfl | rfl | rfl | rfl | rfl | rfl | rfl | rfl <;> rfl

end Sys2Proof.Machine
end

/-! ## The channels' primitives, and the micro-steps they block (20_memory.md R101 to R107) -/

section
namespace Sys2Proof.Machine

/-! ### A micro-step that is not enabled (R107) -/

theorem outcome_of_blocked {o : Host.Outcome State Fault Refusal} {m : Micro} {s : State} (ho : o = m.outcome s)
    (hm : m = .blocked) : o = .next s := by
  rw [ho, hm]
  rfl

theorem performRead_blocked {onBit : Bool → State → Flow} {onEod : State → Flow} {s : State} (h : s.inp.starved) :
    performRead onBit onEod s = .blocked := by
  unfold performRead
  rw [readBit_block.mpr h]

theorem performReadBits_blocked {n : Nat} {done : Word → State → Flow} {eod : Nat → State → Flow} {s : State}
    (h : s.inp.starved) : performReadBits n done eod s = .blocked := performRead_blocked h

/-- The next bit completes a byte, and `OUT` has no room for it (R104). -/
structure OutFull (s : State) : Prop where
  lastBit : s.out.bwCnt = 7
  full : s.out.fifo.length = s.params.outDepth

theorem performWrite_blocked {k : State → Flow} {s : State} (h : OutFull s) (hq : s.eng.work.wq ≠ []) :
    performWrite k s = .blocked := by
  obtain ⟨b, rest, hw⟩ := List.exists_cons_of_ne_nil hq
  have hn : writeBit s.params.outDepth b s.out = none := writeBit_none.mpr ⟨congrArg Fin.val h.lastBit, h.full⟩
  simp only [performWrite, hw, hn]

/-- `FlushByte` blocks exactly when there is a partial byte and `OUT` is full (R106). -/
theorem flushByte_none {depth : Nat} {c : OutChan} :
    flushByte depth c = none ↔ c.bwCnt.val ≠ 0 ∧ c.fifo.length = depth := by
  unfold flushByte
  split
  · simp_all
  · split <;> simp_all

theorem performFlush_blocked {s : State} (hc : s.out.bwCnt ≠ 0) (hf : s.out.fifo.length = s.params.outDepth) :
    performFlush s = .blocked := by
  have hn : flushByte s.params.outDepth s.out = none := flushByte_none.mpr ⟨fun h => hc (Fin.ext h), hf⟩
  simp only [performFlush, hn]

/-! ### The primitive at each program point (10_state.md R58) -/

/-- The program points at which the engine stands at a `ReadBit`. -/
abbrev readPoints : List ProgPoint := [.freqByte, .desMark, .desSym, .encByte, .decWalk, .dsymWalk, .getBit, .magicIn]

/-- The program points at which the engine stands at a `WriteBit`. -/
abbrev writePoints : List ProgPoint := [.serInt, .serLeaf, .encCode, .encEnd, .encSym, .decByte, .putBit, .magicOut]

/-- At a read point the command's micro-step is one `ReadBit`. -/
theorem exec_readPoint {i : Instr} {s : State} (hp : s.eng.pp ∈ commandPoints i) (hr : s.eng.pp ∈ readPoints) :
    ∃ onBit onEod, exec i s = (performRead onBit onEod s).outcome s := by
  generalize hq : s.eng.pp = p at hp hr
  cases i with
  | freqCount =>
    obtain rfl := List.mem_singleton.mp hp
    exact ⟨_, _, exec_freqCount_freqByte s hq⟩
  | deserialize =>
    rcases List.mem_pair.mp hp with rfl | rfl
    · exact ⟨_, _, exec_deserialize_desMark s hq⟩
    · exact ⟨_, _, exec_deserialize_desSym s hq⟩
  | encode =>
    have hall : ∀ q ∈ commandPoints .encode, q ∈ readPoints → q = .encByte := by decide
    obtain rfl := hall p hp hr
    exact ⟨_, _, exec_encode_encByte s hq⟩
  | decode =>
    have hall : ∀ q ∈ commandPoints .decode, q ∈ readPoints → q = .decWalk := by decide
    obtain rfl := hall p hp hr
    exact ⟨_, _, exec_decode_decWalk s hq⟩
  | decodeSym =>
    obtain rfl := List.mem_singleton.mp hp
    exact ⟨_, _, exec_decodeSym_dsymWalk s hq⟩
  | getBits nm1 =>
    obtain rfl := List.mem_singleton.mp hp
    exact ⟨_, _, exec_getBits_getBit nm1 s hq⟩
  | magicCheck =>
    obtain rfl := List.mem_singleton.mp hp
    exact ⟨_, _, exec_magicCheck_magicIn s hq⟩
  | _ => exact absurd hr ((by simp [commandPoints] : ∀ q ∈ commandPoints _, q ∉ readPoints) p hp)

/-- At a write point the command's micro-step is one `WriteBit`. -/
theorem exec_writePoint {i : Instr} {s : State} (hp : s.eng.pp ∈ commandPoints i) (hw : s.eng.pp ∈ writePoints) :
    ∃ k, exec i s = (performWrite k s).outcome s := by
  generalize hq : s.eng.pp = p at hp hw
  cases i with
  | serialize =>
    rcases List.mem_pair.mp hp with rfl | rfl
    · exact ⟨_, exec_serialize_serInt s hq⟩
    · exact ⟨_, exec_serialize_serLeaf s hq⟩
  | encode =>
    have hall : ∀ q ∈ commandPoints .encode, q ∈ writePoints → q = .encCode ∨ q = .encEnd := by decide
    rcases hall p hp hw with rfl | rfl
    · exact ⟨_, exec_encode_encCode s hq⟩
    · exact ⟨_, exec_encode_encEnd s hq⟩
  | encodeSym sym =>
    obtain rfl := List.mem_singleton.mp hp
    exact ⟨_, exec_encodeSym_encSym sym s hq⟩
  | decode =>
    have hall : ∀ q ∈ commandPoints .decode, q ∈ writePoints → q = .decByte := by decide
    obtain rfl := hall p hp hw
    exact ⟨_, exec_decode_decByte s hq⟩
  | putBits nm1 =>
    obtain rfl := List.mem_singleton.mp hp
    exact ⟨_, exec_putBits_putBit nm1 s hq⟩
  | magicWrite =>
    obtain rfl := List.mem_singleton.mp hp
    exact ⟨_, exec_magicWrite_magicOut s hq⟩
  | _ => exact absurd hw ((by simp [commandPoints] : ∀ q ∈ commandPoints _, q ∉ writePoints) p hp)

theorem exec_readPoint_starved {i : Instr} {s : State} (h : s.inp.starved) (hp : s.eng.pp ∈ commandPoints i)
    (hr : s.eng.pp ∈ readPoints) : exec i s = .next s := by
  obtain ⟨onBit, onEod, he⟩ := exec_readPoint hp hr
  exact outcome_of_blocked he (performRead_blocked h)

theorem exec_writePoint_full {i : Instr} {s : State} (h : OutFull s) (hq : s.eng.work.wq ≠ [])
    (hp : s.eng.pp ∈ commandPoints i) (hw : s.eng.pp ∈ writePoints) : exec i s = .next s := by
  obtain ⟨k, he⟩ := exec_writePoint hp hw
  exact outcome_of_blocked he (performWrite_blocked h hq)

/-! ### First micro-steps that block

Up to its first primitive a command touches neither channel, so that the primitive blocks as it would in `s` itself. -/

theorem Node.exists_int {n : Node} (h : n.isInt = true) : ∃ l r, n = .int l r := by
  cases n with
  | int l r => exact ⟨l, r, rfl⟩
  | leaf sym => cases h

theorem exec_decode_start_starved {s : State} (h : s.inp.starved) (hp : s.eng.pp = .start) (ht : s.tree.valid = true)
    (hn : (s.tree.nodes.get s.tree.root).isInt = true) : exec .decode s = .next s := by
  obtain ⟨l, r, hlr⟩ := Node.exists_int hn
  exact outcome_of_blocked (exec_decode_start s hp ht hlr) (performRead_blocked h)

theorem exec_decodeSym_start_starved {s : State} (h : s.inp.starved) (hp : s.eng.pp = .start) (ht : s.tree.valid = true)
    (hn : (s.tree.nodes.get s.tree.root).isInt = true) : exec .decodeSym s = .next s := by
  obtain ⟨l, r, hlr⟩ := Node.exists_int hn
  exact outcome_of_blocked (exec_decodeSym_start s hp ht hlr) (performRead_blocked h)

/-- `OUT` stays full while the engine takes its place at a list of bits. -/
theorem performWrite_standWrite_blocked {k : State → Flow} {s : State} (h : OutFull s) (p : ProgPoint) {bits : List Bool}
    (hb : bits ≠ []) : performWrite k (standWrite p bits s) = .blocked :=
  performWrite_blocked ⟨h.lastBit, h.full⟩ hb

/-- `SERIALIZE` stands at the root's marker, or at the ten bits of a root that is a leaf (43_tree_serial.md R240). -/
theorem exec_serialize_start_full {s : State} (h : OutFull s) (hp : s.eng.pp = .start) (ht : s.tree.valid = true) :
    exec .serialize s = .next s := by
  have hw : ∀ w, OutFull (s.setWork w) := fun _ => ⟨h.lastBit, h.full⟩
  refine outcome_of_blocked (exec_serialize_start s _ hp ht (serializeLoop_cons rfl)) ?_
  rw [State.setWork_tree]
  cases s.tree.nodes.get (nodeEntry s.tree.root).ix with
  | int l r => exact performWrite_standWrite_blocked (hw _) .serInt (List.cons_ne_nil _ _)
  | leaf sym => exact performWrite_standWrite_blocked (hw _) .serLeaf (List.cons_ne_nil _ _)

/-- Only a symbol has a code (10_state.md R54). -/
theorem lt_of_codeAt_valid {t : TreeMem} {k : Nat} (h : (codeAt t k).valid = true) : k < 257 := by
  by_contra hk
  simp [codeAt, hk, CodeEntry.absent] at h

theorem exec_encodeSym_start_full {s : State} (h : OutFull s) (hp : s.eng.pp = .start) (ht : s.tree.valid = true)
    {sym : BitVec 10} (hv : (codeAt s.tree sym.toNat).valid = true) (hb : (codeAt s.tree sym.toNat).toBits ≠ []) :
    exec (.encodeSym sym) s = .next s :=
  outcome_of_blocked (exec_encodeSym_start sym s hp (lt_of_codeAt_valid hv) ht hv hb)
    (performWrite_standWrite_blocked h _ hb)

/-- Settles O12: each of these micro-steps is one attempt at its primitive, which blocks in a starved or full channel. -/
theorem blockedMicroStepChangesNothing : Obligations.BlockedMicroStepChangesNothing := by
  intro i s
  refine ⟨fun h => ⟨exec_readPoint_starved h, ?_, ?_, ?_, ?_⟩, fun h7 hf => ⟨?_, ?_, ?_, ?_, ?_⟩, ?_⟩
  · intro hp hi
    simp only [List.mem_cons, List.not_mem_nil, or_false] at hi
    rcases hi with rfl | rfl | rfl
    · exact outcome_of_blocked (exec_freqCount_start s hp) (performReadBits_blocked h)
    · exact outcome_of_blocked (exec_deserialize_start s hp) (performRead_blocked h)
    · exact outcome_of_blocked (exec_magicCheck_start s hp) (performReadBits_blocked h)
  · rintro hp n rfl
    exact outcome_of_blocked (exec_getBits_start n s hp) (performReadBits_blocked h)
  · rintro hp ht rfl
    exact outcome_of_blocked (exec_encode_start s hp ht) (performReadBits_blocked h)
  · intro hp ht hn hi
    rcases List.mem_pair.mp hi with rfl | rfl
    · exact exec_decode_start_starved h hp ht hn
    · exact exec_decodeSym_start_starved h hp ht hn
  · exact exec_writePoint_full ⟨h7, hf⟩
  · rintro hp n rfl
    exact outcome_of_blocked (exec_putBits_start n s hp)
      (performWrite_standWrite_blocked ⟨h7, hf⟩ _ (bitsMsb_ne_nil _ (Nat.succ_pos _)))
  · rintro hp rfl
    exact outcome_of_blocked (exec_magicWrite_start s hp)
      (performWrite_standWrite_blocked ⟨h7, hf⟩ _ (bitsMsb_ne_nil _ (by decide)))
  · rintro hp ht rfl
    exact exec_serialize_start_full ⟨h7, hf⟩ hp ht
  · rintro hp ht sym rfl hv hb
    exact exec_encodeSym_start_full ⟨h7, hf⟩ hp ht hv hb
  · rintro hc hf (hp | hp) rfl
    · exact outcome_of_blocked (exec_flush_start s hp) (performFlush_blocked hc hf)
    · exact outcome_of_blocked (exec_flush_flushByte s hp) (performFlush_blocked hc hf)

/-! ### WriteBit and FlushByte (R104, R106) -/

/-- `WriteBit` moves on by one place in the byte, round to the next byte's first. -/
theorem writeBit_bwCnt {depth : Nat} {b : Bool} {c c' : OutChan} (h : writeBit depth b c = some c') :
    c'.bwCnt.val = (c.bwCnt.val + 1) % 8 := by
  unfold writeBit at h
  split at h
  case isTrue h7 =>
    split at h
    · cases h
    · obtain rfl := Option.some.inj h
      simp [h7]
  case isFalse h7 =>
    obtain rfl := Option.some.inj h
    have := c.bwCnt.isLt
    simp only
    omega

/-- The padding is what the byte lacks. -/
theorem flushByte_padding {depth p : Nat} {c c' : OutChan} (h : flushByte depth c = some (p, c')) :
    p = (8 - c.bwCnt.val) % 8 := by
  unfold flushByte at h
  split at h
  case isTrue h0 =>
    obtain ⟨rfl, -⟩ := Prod.mk.inj (Option.some.inj h)
    simp [h0]
  case isFalse h0 =>
    split at h
    · cases h
    · obtain ⟨rfl, -⟩ := Prod.mk.inj (Option.some.inj h)
      omega

/-- Where `FlushByte` does not block, what it gives does not depend on the capacity. -/
theorem flushByte_deeper {depth : Nat} {c : OutChan} {r : Nat × OutChan} (h : flushByte depth c = some r) :
    flushByte (c.fifo.length + 1) c = some r := by
  unfold flushByte at h ⊢
  split at h
  case isTrue h0 => rwa [if_pos h0]
  case isFalse h0 =>
    split at h
    · cases h
    · rwa [if_neg h0, if_neg (Nat.ne_of_lt (Nat.lt_succ_self _))]

/-- Settles O26: when each blocks, and what it appends to the stream. -/
theorem writeBitAndFlushAppend : Obligations.WriteBitAndFlushAppend := by
  intro depth c ht
  refine ⟨fun b => ⟨writeBit_none, fun c' h => ?_⟩, flushByte_none, fun p c' h => ?_⟩
  · obtain ⟨hbits, hcount, -⟩ := writeBit_some h ht
    exact ⟨hbits, hcount, writeBit_bwCnt h⟩
  · obtain ⟨hbits, hcount, hcnt, -⟩ := flushByte_some (flushByte_deeper h) ht (Nat.le_succ _)
    exact ⟨hbits, hcount, congrArg Fin.val hcnt, flushByte_padding h⟩

/-! ### ReadBit (R101) -/

theorem readBit_unread {c : InChan} {k : Nat} (h : c.brCnt.val = k + 1) :
    readBit c = .bit (c.brByte.getLsbD k)
      { c with brCnt := ⟨k, by have := c.brCnt.isLt; omega⟩, bitsIn := c.bitsIn + 1 } := by
  simp [readBit, h]

theorem readBit_pop {c : InChan} {b : Byte} {rest : List Byte} (h : c.brCnt.val = 0) (hf : c.fifo = b :: rest) :
    readBit c = .bit (b.getLsbD 7) { c with fifo := rest, brByte := b, brCnt := 7, bitsIn := c.bitsIn + 1 } := by
  simp [readBit, h, hf]

theorem inBits_empty {c : InChan} (h : c.brCnt.val = 0) (hf : c.fifo = []) : inBits c = [] := by
  simp [inBits, h, hf, bitsMsb_zero]

/-- Settles O25: an unread bit, a byte to pop, or neither, where the channel is exhausted or starved. -/
theorem readBitTakesTheNextBit : Obligations.ReadBitTakesTheNextBit := by
  intro c
  refine ⟨fun k h => ⟨_, readBit_unread h, rfl, rfl, rfl, rfl, rfl⟩, fun b rest => readBit_pop, fun h hf he => ?_,
    fun h hf he => ?_⟩
  · exact readBit_eod.mpr ⟨inBits_empty h hf, he⟩
  · exact readBit_block.mpr ⟨inBits_empty h hf, he⟩

end Sys2Proof.Machine
end

/-! ## The agents' steps and the host's accesses (20_memory.md R90 to R96) -/

section
namespace Sys2Proof.Machine

/-! ### The step (R90, R91, R115) -/

theorem engineStep_running {s : State} {i : Instr} (hb : s.status.busy = true) (hd : decode s.eng.cmd = .ok i) :
    engineStep s = exec i s := by
  simp [engineStep, hb, hd]

theorem step_of_sched_nil {s : State} (h : s.sched = []) : step s = engineStep s := by
  simp [step, scheduledStep, h]

theorem step_of_sched_cons {s : State} {m : Move} {rest : List Move} (h : s.sched = m :: rest) :
    step s = moveStep m (s.setSched rest) := by
  simp [step, scheduledStep, h]

/-- The engine's move that a fetch schedules runs the word just accepted. -/
theorem step_withCommand {w : Word} {i : Instr} (hd : decode w = .ok i) (s : State) :
    step (withCommand w s) = exec i (acceptCommand w s) :=
  (step_of_sched_cons (s := withCommand w s) (rest := s.sched) rfl).trans
    (engineStep_running (s := acceptCommand w s) rfl hd)

/-- Settles O6: the schedule's head picks the agent, and a running engine executes the latched command. -/
theorem stepRunsLatchedCommand : Obligations.StepRunsLatchedCommand := by
  refine ⟨fun s i hb hd => ⟨fun hs => ?_, fun rest hs => ?_⟩, fun s a rest hs => step_of_sched_cons hs,
    fun s _ _ hd => step_withCommand hd s⟩
  · rw [step_of_sched_nil hs, engineStep_running hb hd]
  · rw [step_of_sched_cons hs]
    exact engineStep_running (s := s.setSched rest) hb hd

/-! ### Reads (R96) -/

theorem readWhenIdle_state (v : Word) (s : State) : ∃ d, (readWhenIdle v s).2 = s.setDraws d := by
  cases hb : s.status.busy with
  | true => exact ⟨s.draws + 1, by rw [readWhenIdle_busy hb]⟩
  | false => exact ⟨s.draws, by rw [readWhenIdle_idle hb]; rfl⟩

/-- A read of a register other than `OUT_DATA` changes at most the count of draws. -/
theorem readReg_state {r : Reg} (hr : r ≠ .outData) (s : State) : ∃ d, (readReg r s).2 = s.setDraws d := by
  cases r with
  | outData => exact absurd rfl hr
  | result | treeInfo | bitsIn | bitsOut | bitpos => exact readWhenIdle_state _ s
  | _ => exact ⟨s.draws, rfl⟩

/-- Settles O22: the value read goes on the record, and the registers named here read without a draw. -/
theorem readsHaveNoSideEffect : Obligations.ReadsHaveNoSideEffect := by
  refine ⟨fun r s hr => ?_, fun s => ⟨rfl, fun r h => ?_, rfl, rfl⟩⟩
  · obtain ⟨d, hd⟩ := readReg_state hr s
    refine ⟨(readReg r s).1, d, ?_⟩
    change hostRead r s = _
    dsimp only [hostRead]
    rw [hd]
    rfl
  · simp only [List.mem_cons, List.not_mem_nil, or_false] at h
    rcases h with rfl | rfl | rfl | rfl <;> rfl

/-! ### Which accesses are to a register (R92, R93, R95) -/

/-- There is a register at every multiple of 4 in the window, and at no other offset (10_state.md R32). -/
theorem regAt_isSome_iff {n : Nat} (h : n < 0x40) : (regAt n).isSome = true ↔ n % 4 = 0 := by
  have hall : ∀ k : Fin 0x40, (regAt k.val).isSome = true ↔ k.val % 4 = 0 := by decide
  exact hall ⟨n, h⟩

section
variable {a : Access} {s : State}

theorem hostStep_outside (h : a.addr < s.params.base ∨ s.params.base + 0x40 ≤ a.addr) :
    hostStep a s = .refused .outsideWindow := if_pos (by simpa using h)

theorem hostStep_width (hlo : s.params.base ≤ a.addr) (hhi : a.addr < s.params.base + 0x40) (hb : a.bytes ≠ 4) :
    hostStep a s = .refused .busError := by
  simp [hostStep, Nat.not_lt.mpr hlo, Nat.not_le.mpr hhi, hb]

/-- A word access inside the window is to the register at its offset, if there is one. -/
theorem hostStep_word (hlo : s.params.base ≤ a.addr) (hhi : a.addr < s.params.base + 0x40) (hb : a.bytes = 4) :
    hostStep a s = ((regAt (a.addr - s.params.base)).map fun r => accessReg r a.kind s).elim (.refused .busError) .next := by
  simp only [hostStep, Nat.not_lt.mpr hlo, Nat.not_le.mpr hhi, hb, decide_false, Bool.or_self, Bool.false_eq_true,
    if_false, ne_eq, not_true_eq_false]
  cases regAt (a.addr - s.params.base) <;> rfl

end

/-- Settles O24: the window, the width and the offset are tested in this order. -/
theorem hostAccessIsAlignedWordOrRefused : Obligations.HostAccessIsAlignedWordOrRefused := by
  refine ⟨rfl, fun a s => ⟨hostStep_outside, fun hlo hhi hbad => ?_, fun hlo hhi hb halign => ?_⟩⟩
  · by_cases hb : a.bytes = 4
    · have hoff : (a.addr - s.params.base) % 4 ≠ 0 := hbad.resolve_left (not_not_intro hb)
      have hnone : regAt (a.addr - s.params.base) = none := by
        rwa [← Option.not_isSome_iff_eq_none, regAt_isSome_iff (by omega)]
      rw [hostStep_word hlo hhi hb, hnone]
      rfl
    · exact hostStep_width hlo hhi hb
  · obtain ⟨r, hr⟩ := Option.isSome_iff_exists.mp ((regAt_isSome_iff (by omega)).mpr halign)
    refine ⟨r, hr, ?_⟩
    rw [hostStep_word hlo hhi hb, hr]
    rfl

end Sys2Proof.Machine
end

/-! ## Command words (30_encoding.md) -/

section
namespace Sys2Proof

/-! ### The fields of a word (R140, R141) -/

/-- Two words are the same exactly when their four fields are. -/
theorem eq_iff_fields (v w : Word) :
    v = w ↔ opField v = opField w ∧ idxField v = idxField w ∧ nField v = nField w ∧ rsvField v = rsvField w := by
  refine ⟨fun h => h ▸ ⟨rfl, rfl, rfl, rfl⟩, fun ⟨hop, hidx, hn, hrsv⟩ => ?_⟩
  rw [← assemble_fields v, ← assemble_fields w, hop, hidx, hn, hrsv]

theorem opField_and (v w : Word) : opField (v &&& w) = opField v &&& opField w := BitVec.extractLsb'_and

theorem idxField_and (v w : Word) : idxField (v &&& w) = idxField v &&& idxField w := BitVec.extractLsb'_and

theorem nField_and (v w : Word) : nField (v &&& w) = nField v &&& nField w := BitVec.extractLsb'_and

theorem rsvField_and (v w : Word) : rsvField (v &&& w) = rsvField v &&& rsvField w := BitVec.extractLsb'_and

/-! ### The three kinds of rows (R143) -/

theorem rowPlain_ok_iff {w : Word} {i j : Instr} :
    rowPlain w i = .ok j ↔ idxField w = 0 ∧ nField w = 0 ∧ i = j := by
  unfold rowPlain
  split_ifs <;> simp_all

theorem rowIdx_ok_iff {w : Word} {f : BitVec 10 → Instr} {j : Instr} :
    rowIdx w f = .ok j ↔ nField w = 0 ∧ f (idxField w) = j := by
  unfold rowIdx
  split_ifs <;> simp_all

theorem rowN_ok_iff {w : Word} {f : BitVec 5 → Instr} {j : Instr} :
    rowN w f = .ok j ↔ idxField w = 0 ∧ f (nField w) = j := by
  unfold rowN
  split_ifs <;> simp_all

theorem rowPlain_isError_iff {w : Word} {i : Instr} :
    (∃ e, rowPlain w i = .error e) ↔ idxField w ≠ 0 ∨ nField w ≠ 0 := by
  unfold rowPlain
  split_ifs <;> simp_all

theorem rowIdx_isError_iff {w : Word} {f : BitVec 10 → Instr} : (∃ e, rowIdx w f = .error e) ↔ nField w ≠ 0 := by
  unfold rowIdx
  split_ifs <;> simp_all

theorem rowN_isError_iff {w : Word} {f : BitVec 5 → Instr} : (∃ e, rowN w f = .error e) ↔ idxField w ≠ 0 := by
  unfold rowN
  split_ifs <;> simp_all

/-! ### Which command a word decodes to (R143) -/

/-- The word's fields are those of the command. -/
structure HasFieldsOf (w : Word) (i : Instr) : Prop where
  op : opField w = i.opcode
  idx : idxField w = i.idxOperand
  n : nField w = i.nOperand
  rsv : rsvField w = 0

theorem hasFieldsOf_iff {w : Word} {i : Instr} : HasFieldsOf w i ↔ encode i = w := by
  rw [encode_eq_assemble, eq_iff_fields, opField_assemble, idxField_assemble, nField_assemble, rsvField_assemble]
  exact ⟨fun ⟨hop, hidx, hn, hrsv⟩ => ⟨hop.symm, hidx.symm, hn.symm, hrsv.symm⟩,
    fun ⟨hop, hidx, hn, hrsv⟩ => ⟨hop.symm, hidx.symm, hn.symm, hrsv.symm⟩⟩

theorem decode_of_hasFieldsOf {w : Word} {i : Instr} (h : HasFieldsOf w i) : decode w = .ok i := by
  obtain ⟨hop, hidx, hn, hrsv⟩ := h
  unfold decode
  rw [if_neg (not_not_intro hrsv), hop]
  cases i with
  | freqWrite | freqRead | encodeSym | nodeRead | codeLenRead => exact rowIdx_ok_iff.mpr ⟨hn, congrArg _ hidx⟩
  | putBits | getBits => exact rowN_ok_iff.mpr ⟨hidx, congrArg _ hn⟩
  | codeBitsRead => exact congrArg Except.ok (congrArg₂ _ hidx hn)
  | _ => exact rowPlain_ok_iff.mpr ⟨hidx, hn, rfl⟩

/-- A word is decoded by the row of its opcode, which tests the fields it marks 0 and passes on the others. -/
theorem hasFieldsOf_of_decode {w : Word} {i : Instr} (h : decode w = .ok i) : HasFieldsOf w i := by
  unfold decode at h
  split at h
  case isTrue => cases h
  case isFalse hrsv =>
    rw [not_ne_iff] at hrsv
    split at h
    case h_3 hop | h_4 hop | h_10 hop | h_19 hop | h_20 hop =>
      obtain ⟨hn, rfl⟩ := rowIdx_ok_iff.mp h
      exact ⟨BitVec.eq_of_toNat_eq hop, rfl, hn, hrsv⟩
    case h_13 hop | h_14 hop =>
      obtain ⟨hidx, rfl⟩ := rowN_ok_iff.mp h
      exact ⟨BitVec.eq_of_toNat_eq hop, hidx, rfl, hrsv⟩
    case h_21 hop =>
      cases h
      exact ⟨BitVec.eq_of_toNat_eq hop, rfl, rfl, hrsv⟩
    case h_22 => cases h
    all_goals
      rename_i hop
      obtain ⟨hidx, hn, rfl⟩ := rowPlain_ok_iff.mp h
      exact ⟨BitVec.eq_of_toNat_eq hop, hidx, hn, hrsv⟩

/-- Decoding and assembly are inverse to each other. -/
theorem decode_ok_iff {w : Word} {i : Instr} : decode w = .ok i ↔ encode i = w :=
  ⟨fun h => hasFieldsOf_iff.mp (hasFieldsOf_of_decode h), fun h => decode_of_hasFieldsOf (hasFieldsOf_iff.mpr h)⟩

/-- Settles O1: the assembled word has the command's fields, and its row passes them on. -/
theorem decodeInvertsEncode : Obligations.DecodeInvertsEncode := fun _ => decode_ok_iff.mpr rfl

/-- Settles O2: a legal word has the fields of its command, and a word is determined by its fields. -/
theorem encodeInvertsDecode : Obligations.EncodeInvertsDecode := fun _ _ => decode_ok_iff.mp

/-- Settles O5: the words are closed terms. -/
theorem specWordsDecode : Obligations.SpecWordsDecode := by
  unfold Obligations.SpecWordsDecode
  decide

/-! ### Which words are illegal (R144) -/

/-- The rows that mark `IDX` 0 (R143). -/
def idxZeroOps : List Nat := [0x00, 0x01, 0x04, 0x05, 0x06, 0x07, 0x08, 0x0A, 0x0B, 0x0C, 0x0D, 0x0E, 0x0F, 0x10, 0x11]

/-- The rows that mark `N` 0 (R143). -/
def nZeroOps : List Nat :=
  [0x00, 0x01, 0x02, 0x03, 0x04, 0x05, 0x06, 0x07, 0x08, 0x09, 0x0A, 0x0B, 0x0E, 0x0F, 0x10, 0x11, 0x12, 0x13]

/-- The word's fields are ones that R144 rejects. -/
def IllegalFields (w : Word) : Prop :=
  0x15 ≤ (opField w).toNat ∨ rsvField w ≠ 0 ∨ (idxField w ≠ 0 ∧ (opField w).toNat ∈ idxZeroOps) ∨
    (nField w ≠ 0 ∧ (opField w).toNat ∈ nZeroOps)

/-- Each row rejects what its kind of row rejects; an opcode without a row, and reserved bits, are always rejected. -/
theorem decode_isError_iff (w : Word) : (∃ e, decode w = .error e) ↔ IllegalFields w := by
  unfold decode IllegalFields
  split
  case isTrue hrsv => exact iff_of_true ⟨_, rfl⟩ (.inr (.inl hrsv))
  case isFalse hrsv =>
    rw [not_ne_iff] at hrsv
    split
    case h_3 hop | h_4 hop | h_10 hop | h_19 hop | h_20 hop =>
      rw [rowIdx_isError_iff]
      simp [hop, hrsv, idxZeroOps, nZeroOps]
    case h_13 hop | h_14 hop =>
      rw [rowN_isError_iff]
      simp [hop, hrsv, idxZeroOps, nZeroOps]
    case h_21 hop => simp [hop, hrsv, idxZeroOps, nZeroOps]
    case h_22 =>
      simp only [imp_false] at *
      exact iff_of_true ⟨_, rfl⟩ (.inl (by omega))
    all_goals
      rename_i hop
      rw [rowPlain_isError_iff]
      simp [hop, hrsv, idxZeroOps, nZeroOps]

/-! ### The match and mask columns (R143) -/

/-- The row of opcode `k` of the opcode map, by fields: `match` has the opcode, and `mask` keeps `OP`, `RSV` and the
operand fields marked 0. -/
def rowOf (k : Nat) : OpcodeRow where
  matchBits := assemble (BitVec.ofNat 8 k) 0 0 0
  mask := assemble (BitVec.allOnes 8) (if k ∈ idxZeroOps then BitVec.allOnes 10 else 0)
    (if k ∈ nZeroOps then BitVec.allOnes 5 else 0) (BitVec.allOnes 9)

theorem opcodeMap_eq : opcodeMap = (List.range 0x15).map rowOf := by decide

theorem getElem?_opcodeMap {k : Nat} {r : OpcodeRow} (h : opcodeMap[k]? = some r) : k < 0x15 ∧ r = rowOf k := by
  rw [opcodeMap_eq, List.getElem?_map, Option.map_eq_some_iff] at h
  obtain ⟨j, hj, rfl⟩ := h
  obtain ⟨hk, rfl⟩ : k < 0x15 ∧ k = j := by simpa [List.getElem?_eq_some_iff] using hj
  exact ⟨hk, rfl⟩

theorem and_ite_allOnes_eq_zero {n : Nat} (v : BitVec n) (p : Prop) [Decidable p] :
    v &&& (if p then BitVec.allOnes n else 0) = 0 ↔ ¬(v ≠ 0 ∧ p) := by
  by_cases hp : p <;> simp [hp]

/-- A row selects the words with its opcode and with legal fields. -/
theorem rowOf_selects_iff {k : Nat} (hk : k < 0x15) (w : Word) :
    (rowOf k).selects w = true ↔ (opField w).toNat = k ∧ ¬ IllegalFields w := by
  have hop : opField w = BitVec.ofNat 8 k ↔ (opField w).toNat = k := by
    rw [← BitVec.toNat_inj, BitVec.toNat_ofNat, Nat.mod_eq_of_lt (by omega)]
  rw [OpcodeRow.selects, beq_iff_eq, eq_iff_fields, opField_and, idxField_and, nField_and, rsvField_and]
  simp only [rowOf, opField_assemble, idxField_assemble, nField_assemble, rsvField_assemble, BitVec.and_allOnes,
    and_ite_allOnes_eq_zero, hop, IllegalFields]
  refine and_congr_right fun hw => ?_
  subst hw
  simp only [Nat.not_le.mpr hk, false_or]
  tauto

/-- Settles O3: a row selects the words with its opcode that are legal. -/
theorem decodeFollowsOpcodeMap : Obligations.DecodeFollowsOpcodeMap := by
  refine fun w => ⟨fun i hi k r hr => ?_, fun e he r hr => ?_⟩
  · obtain ⟨hk, rfl⟩ := getElem?_opcodeMap hr
    have hlegal : ¬ IllegalFields w := by
      rw [← decode_isError_iff, hi]
      simp
    rw [rowOf_selects_iff hk, and_iff_left hlegal, (hasFieldsOf_of_decode hi).op, eq_comm]
  · obtain ⟨k, hr⟩ := List.mem_iff_getElem?.mp hr
    obtain ⟨hk, rfl⟩ := getElem?_opcodeMap hr
    rw [Bool.eq_false_iff]
    exact fun h => ((rowOf_selects_iff hk w).mp h).2 ((decode_isError_iff w).mp ⟨e, he⟩)

end Sys2Proof
end

/-! ## The engine on illegal words and operands, the codes, and the parts a command touches -/

section
namespace Sys2Proof.Machine

/-! ### Illegal words (R144) -/

theorem raiseError_eq_failed (e : ErrCode) (s : State) : raiseError e s = { s with status := s.status.failed e } := rfl

/-- An illegal word raises `ILLEGAL_CMD` (40_command_protocol.md R183). -/
theorem engineStep_illegal {s : State} {e : DecodeError} (hb : s.status.busy = true) (hd : decode s.eng.cmd = .error e) :
    engineStep s = .next (raiseError .illegalCmd s) := by
  simp [engineStep, hb, hd]

/-- Settles O4: the rows reject exactly the illegal fields, and the engine takes a rejected word as an error. -/
theorem illegalWordsRaiseIllegalCmd : Obligations.IllegalWordsRaiseIllegalCmd := by
  refine fun w => ⟨decode_isError_iff w, fun s e hb hw hd => ?_⟩
  rw [engineStep_illegal hb (hw ▸ hd), raiseError_eq_failed]

/-! ### The operand ranges (R145) -/

theorem runCommand_badArg {inRange needsTree : Bool} {enter : State → Flow} {perform : State → Micro} {s : State}
    (hpp : s.eng.pp = .start) (hr : inRange = false) :
    runCommand inRange needsTree enter perform s = .next (raiseError .badArg s) := by
  simp [runCommand, hpp, hr]

/-- The range check comes first in the first micro-step (40_command_protocol.md R183). -/
theorem exec_badArg {i : Instr} {s : State} (hpp : s.eng.pp = .start) (hi : ¬ i.WellFormed) :
    exec i s = .next (raiseError .badArg s) := by
  obtain ⟨enter, perform, h⟩ := exec_runCommand i
  rw [h, runCommand_badArg hpp (Bool.eq_false_iff.mpr hi)]

/-- Settles O8: the range check of the common checks, and each range as it is decided. -/
theorem outOfRangeRaisesBadArg : Obligations.OutOfRangeRaisesBadArg := by
  refine ⟨fun i s hpp hi => exec_badArg hpp hi, ?_, ?_, ?_, ?_, fun n => ⟨rfl, rfl⟩⟩ <;>
    simp [Instr.WellFormed, Instr.inRange]

/-! ### Prefix-freeness of the codes (R152) -/

/-- No path goes on below a leaf. -/
theorem walkPath_below_leaf {nodes : Vector Node 513} {y : Symbol} (b : Bool) (q : List Bool) :
    ∀ (p : List Bool) (x : NodeIx), walkPath nodes p x = some (.leaf y) → walkPath nodes (p ++ b :: q) x = none := by
  intro p
  induction p with
  | nil =>
    intro x h
    simp [walkPath, Option.some.inj h]
  | cons c p ih =>
    intro x h
    simp only [walkPath, List.cons_append] at h ⊢
    split at h
    · exact ih _ h
    · cases h

/-- Two leaves whose paths from one node are one a prefix of the other are the same leaf. -/
theorem leaf_eq_of_prefix {nodes : Vector Node 513} {x : NodeIx} {p q : List Bool} {y z : Symbol} (hpq : p <+: q)
    (hy : walkPath nodes p x = some (.leaf y)) (hz : walkPath nodes q x = some (.leaf z)) : y = z := by
  obtain ⟨r, rfl⟩ := hpq
  cases r with
  | nil => simpa [hy] using hz
  | cons b r => simp [walkPath_below_leaf b r p x hy] at hz

/-- The code of a symbol leads from the root to its leaf. -/
theorem HoldsTree.walkPath_code {t : TreeMem} (h : HoldsTree t) {y : Symbol} (hy : (codeAt t y.val).valid = true) :
    walkPath t.nodes (codeAt t y.val).toBits t.root = some (.leaf y) := by
  obtain ⟨sh, hok, hcodes⟩ := h
  obtain ⟨c, hc, rfl⟩ := hcodes.mem_of_valid hy
  rw [(hcodes.code_of_mem hok.leaves.2 c hc).2, ← hok.root]
  exact Machine.walkPath_code sh hok.fits c hc

/-- Settles O47: each code is the path of a leaf, and a path does not go on below a leaf. -/
theorem codesArePrefixFree : Obligations.CodesArePrefixFree := fun _ ht =>
  ⟨fun _ hy => ht.walkPath_code hy, fun _ _ hy hz hpre => leaf_eq_of_prefix hpre (ht.walkPath_code hy) (ht.walkPath_code hz)⟩

/-! ### The parts a command touches (R143, the column "channels") -/

/-- From `s` to `t` the channels and the frequency table have changed only if the command `i` is one that touches them. -/
structure OtherPartsKept (i : Instr) (s t : State) : Prop where
  inp : readsInput i = false → t.inp = s.inp
  out : writesOutput i = false → t.out = s.out
  freq : writesFreq i = false → t.freq = s.freq

theorem stable_otherPartsKept (i : Instr) (s : State) : Stable i (OtherPartsKept i s) where
  raised _ h := ⟨h.inp, h.out, h.freq⟩
  completed r h := ⟨by simpa using h.inp, by simpa using h.out, by simpa using h.freq⟩
  setWork _ h := ⟨h.inp, h.out, h.freq⟩
  setPp _ h := ⟨h.inp, h.out, h.freq⟩
  setResult _ h := ⟨h.inp, h.out, h.freq⟩
  setInp hi _ _ h := ⟨fun hn => (Bool.false_ne_true (hn.symm.trans hi)).elim, h.out, h.freq⟩
  setOut ho _ _ h := ⟨h.inp, fun hn => (Bool.false_ne_true (hn.symm.trans ho)).elim, h.freq⟩
  setFreq hf _ _ h := ⟨h.inp, h.out, fun hn => (Bool.false_ne_true (hn.symm.trans hf)).elim⟩
  setTree _ _ _ h := ⟨h.inp, h.out, h.freq⟩

theorem exec_otherPartsKept {i : Instr} {s t : State} (h : exec i s = .next t) : OtherPartsKept i s t :=
  ((stable_otherPartsKept i s).exec ⟨fun _ => rfl, fun _ => rfl, fun _ => rfl⟩).next h

theorem readsInput_iff (i : Instr) : readsInput i = true ↔
    (∃ n, i = .getBits n) ∨ i ∈ [.freqCount, .deserialize, .encode, .decode, .decodeSym, .alignIn, .magicCheck] := by
  cases i <;> simp [readsInput]

theorem writesOutput_iff (i : Instr) : writesOutput i = true ↔
    (∃ n, i = .putBits n) ∨ (∃ y, i = .encodeSym y) ∨ i ∈ [.serialize, .encode, .decode, .flush, .magicWrite] := by
  cases i <;> simp [writesOutput]

theorem writesFreq_iff (i : Instr) : writesFreq i = true ↔ (∃ y, i = .freqWrite y) ∨ i ∈ [.freqClear, .freqCount] := by
  cases i <;> simp [writesFreq]

/-- Settles O56: a part is kept by every update but its own, and these are the commands made of a part's own updates. -/
theorem commandsTouchOnlyTheirParts : Obligations.CommandsTouchOnlyTheirParts := by
  intro i s t h
  obtain ⟨hinp, hout, hfreq⟩ := exec_otherPartsKept h
  refine ⟨fun hget hi => hinp ?_, fun hput henc hi => hout ?_, fun hwrite hi => hfreq ?_, fun hi => exec_tree ?_ h⟩
  · rw [← Bool.not_eq_true, readsInput_iff]
    simp [hget, hi]
  · rw [← Bool.not_eq_true, writesOutput_iff]
    simp [hput, henc, hi]
  · rw [← Bool.not_eq_true, writesFreq_iff]
    simp [hwrite, hi]
  · rw [← Bool.not_eq_true, writesTree_iff]
    simpa using hi

end Sys2Proof.Machine
end

/-! ## The command protocol: acceptance, completion, idle turns, and what a step of a run answers -/

section
namespace Sys2Proof.Machine

variable {s : State}

/-! ### The idle engine (40_command_protocol.md R180, R189) -/

theorem engineStep_idle (hb : s.status.busy = false) : engineStep s = .next s := by
  simp [engineStep, hb]

/-- Settles O7: either way the turn is the engine's, and it is idle. -/
theorem idleEngineTouchesNothing : Obligations.IdleEngineTouchesNothing := by
  refine fun s hb => ⟨fun hs => ?_, fun rest hs => ?_⟩
  · rw [step_of_sched_nil hs, engineStep_idle hb]
  · rw [step_of_sched_cons hs]
    exact engineStep_idle (s := s.setSched rest) hb

/-! ### Completion (R186, R188) -/

theorem complete_some_eq_completed (v : Word) (s : State) :
    complete (some v) s = { s with result := v, status := s.status.completed } := rfl

theorem complete_none_eq_completed (s : State) : complete none s = { s with status := s.status.completed } := rfl

/-- Settles O11: with and without a value for `RESULT`. -/
theorem completionWritesResultAndDone : Obligations.CompletionWritesResultAndDone :=
  fun s v => ⟨complete_some_eq_completed v s, complete_none_eq_completed s⟩

/-- Settles O27: `NOP` has no operand, needs no tree and has no primitive, so its first micro-step is its completion. -/
theorem nopCompletes : Obligations.NopCompletes := by
  intro s hpp
  have hrun : exec .nop s = .next (complete none s) :=
    runCommand_pure (needsTree := false) (enter := finish none) hpp rfl (by simp) rfl
  rw [hrun, complete_none_eq_completed]

/-! ### Acceptance (R182) -/

theorem issueCommand_dropped (h : s.status.busy = true ∨ s.status.err = true) (w : Word) :
    issueCommand w s = s.setStatus { s.status with cmdDrop := true } := by
  simp [issueCommand, h]

theorem issueCommand_accepted (hb : s.status.busy = false) (he : s.status.err = false) (w : Word) :
    issueCommand w s = acceptCommand w s := by
  simp [issueCommand, hb, he]

/-- Settles O18: the two branches of a `CMD` write; an accepted illegal word is the latched word of the engine's turn. -/
theorem commandWriteAcceptedOrDropped : Obligations.CommandWriteAcceptedOrDropped := by
  refine fun s w => ⟨fun h => issueCommand_dropped h w, fun hb he => issueCommand_accepted hb he w,
    fun e hb he hd => ?_, rfl⟩
  have hw : writeReg .cmd w s = acceptCommand w s := issueCommand_accepted hb he w
  rw [hw, engineStep_illegal (s := acceptCommand w s) rfl hd, raiseError_eq_failed]

/-! ### What a step of a run answers (R184; 20_memory.md R93, R95; 43_tree_serial.md R247) -/

theorem OutcomePost.exists_next {P : State → Prop} {o : Host.Outcome State Fault Refusal} (h : OutcomePost False P o) :
    ∃ t, o = .next t := by
  cases o with
  | next t => exact ⟨t, rfl⟩
  | fault f => exact h.elim
  | refused r => exact h.elim

/-- From a state of a run the engine's turn has a next state: an idle turn, an illegal word or a micro-step. -/
theorem State.Inv.engineStep_next (h : s.Inv) : ∃ t, engineStep s = .next t := by
  cases hb : s.status.busy with
  | false => exact ⟨s, engineStep_idle hb⟩
  | true =>
    cases hd : decode s.eng.cmd with
    | error e => exact ⟨_, engineStep_illegal hb hd⟩
    | ok i =>
      rw [engineStep_running hb hd]
      exact (exec_inv h hb hd).exists_next

/-- The condition on a host access under which it is refused for the reason `r` (20_memory.md R93, R95; log 9). -/
def RefusedFor (base : Nat) (a : Access) (r : Refusal) : Prop :=
  (r = .outsideWindow ∧ (a.addr < base ∨ base + 0x40 ≤ a.addr)) ∨
    (r = .busError ∧ base ≤ a.addr ∧ a.addr < base + 0x40 ∧ (a.bytes ≠ 4 ∨ (a.addr - base) % 4 ≠ 0))

/-- A host access has a next state, or it is refused for a reason that holds of it. -/
theorem hostStep_cases (a : Access) (s : State) :
    (∃ t, hostStep a s = .next t) ∨ ∃ r, hostStep a s = .refused r ∧ RefusedFor s.params.base a r := by
  obtain ⟨houtside, hbus, hword⟩ := hostAccessIsAlignedWordOrRefused.2 a s
  by_cases hout : a.addr < s.params.base ∨ s.params.base + 0x40 ≤ a.addr
  · exact .inr ⟨_, houtside hout, .inl ⟨rfl, hout⟩⟩
  · have hlo : s.params.base ≤ a.addr := by omega
    have hhi : a.addr < s.params.base + 0x40 := by omega
    by_cases hbad : a.bytes ≠ 4 ∨ (a.addr - s.params.base) % 4 ≠ 0
    · exact .inr ⟨_, hbus hlo hhi hbad, .inr ⟨rfl, hlo, hhi, hbad⟩⟩
    · obtain ⟨r, -, hnext⟩ := hword hlo hhi (by omega) (by omega)
      exact .inl ⟨_, hnext⟩

/-- A step of a run has a next state, or it is a host access refused for a reason that holds of it. -/
theorem State.Inv.step_next_or_refused (h : s.Inv) :
    (∃ t, step s = .next t) ∨
      ∃ a rest r, s.sched = .host a :: rest ∧ step s = .refused r ∧ RefusedFor s.params.base a r := by
  cases hs : s.sched with
  | nil =>
    rw [step_of_sched_nil hs]
    exact .inl h.engineStep_next
  | cons m rest =>
    rw [step_of_sched_cons hs]
    cases m with
    | engine => exact .inl (h.setSched rest).engineStep_next
    | host a =>
      obtain hnext | ⟨r, hr, hfor⟩ := hostStep_cases a (s.setSched rest)
      · exact .inl hnext
      · exact .inr ⟨a, rest, r, rfl, hr, hfor⟩

/-- Settles O60: a step of a run is the next state or the refusal of an access that the window does not support. -/
theorem noStepOfARunFaults : Obligations.NoStepOfARunFaults := by
  intro s h
  obtain ⟨t, ht⟩ | ⟨a, rest, r, hs, hr, hfor⟩ := h.step_next_or_refused
  · simp [ht]
  · refine ⟨fun f hf => ?_, fun r' hr' => ?_⟩
    · cases hr.symm.trans hf
    · cases hr.symm.trans hr'
      exact ⟨a, rest, hs, hfor⟩

end Sys2Proof.Machine
end

/-! ## The frequency table's commands (41_frequency.md) -/

section
namespace Sys2Proof.Machine

variable {s : State}

/-! ### The commands without a primitive (R200 to R203) -/

theorem exec_freqClear_start (hpp : s.eng.pp = .start) :
    exec .freqClear s = .next (complete none (s.setFreq (.replicate 256 0))) :=
  runCommand_pure (needsTree := false) (enter := fun u => finish none (u.setFreq (.replicate 256 0))) hpp rfl (by simp) rfl

theorem exec_freqWrite_start {sym : BitVec 10} (hpp : s.eng.pp = .start) (hsym : sym.toNat < 256) :
    exec (.freqWrite sym) s = .next (complete none (s.setFreq (s.freq.set sym.toNat s.eng.arg hsym))) := by
  have hr : (Instr.freqWrite sym).inRange = true := decide_eq_true (Nat.le_of_lt_succ hsym)
  rw [← set_eq_setIfInBounds]
  exact runCommand_pure (needsTree := false)
    (enter := fun u => finish none (u.setFreq (u.freq.setIfInBounds sym.toNat u.eng.arg))) hpp hr (by simp) rfl

theorem exec_freqRead_start {sym : BitVec 10} (hpp : s.eng.pp = .start) (hsym : sym.toNat ≤ 256) :
    exec (.freqRead sym) s = .next (complete (some (countOf s.freq sym)) s) :=
  runCommand_pure (needsTree := false) (enter := fun u => finish (some (countOf u.freq sym)) u) hpp (decide_eq_true hsym)
    (by simp) rfl

theorem countOf_byte (f : Vector Word 256) {sym : BitVec 10} (hsym : sym.toNat < 256) : countOf f sym = f[sym.toNat] := by
  have hne : sym ≠ 256#10 := by
    rintro rfl
    exact absurd hsym (by decide)
  rw [countOf, if_neg hne, freqAt_eq_get f ⟨sym.toNat, hsym⟩, get_eq_getElem]

/-- Settles O28: each is its own first micro-step, and 256 is the symbol that is no entry of the table. -/
theorem frequencyTableCommandsComplete : Obligations.FrequencyTableCommandsComplete := by
  refine fun s hpp => ⟨exec_freqClear_start hpp, fun sym hsym => ⟨exec_freqWrite_start hpp hsym, ?_⟩,
    exec_freqRead_start hpp le_rfl⟩
  rw [exec_freqRead_start hpp hsym.le, countOf_byte s.freq hsym, complete_some_eq_completed]

/-! ### The last bit of a byte, and the end of the data (R205; 20_memory.md R102) -/

theorem performReadBits_last {n : Nat} {done : Word → State → Flow} {eod : Nat → State → Flow} {b : Bool} {c : InChan}
    (hc : readBit s.inp = .bit b c) (hn : s.eng.work.rk + 1 = n) :
    performReadBits n done eod s = (done (shiftIn s.eng.work.rv b) (readBitsNext b (s.setInp c))).toMicro := by
  simp [performReadBits, performRead, hc, hn]

theorem performReadBits_eod {n : Nat} {done : Word → State → Flow} {eod : Nat → State → Flow} (h : s.inp.exhausted) :
    performReadBits n done eod s = (eod s.eng.work.rk s).toMicro := by
  simp [performReadBits, performRead, readBit_eod.mpr h]

/-- The state in which `FREQ_COUNT` has counted the byte `k` and stands at the next one. -/
def counted (k : Fin 256) (s : State) : State :=
  standRead .freqByte ((s.setFreq (s.freq.set k.val (s.freq.get k + 1) k.isLt)).setWork
    { s.eng.work with cnt := s.eng.work.cnt + 1 })

theorem countByte_counts {r : Word} {k : Fin 256} (hk : (r.setWidth 8).toNat = k.val) (hf : s.freq.get k ≠ 0xFFFFFFFF#32) :
    countByte r s = .atPrimitive (counted k s) := by
  unfold countByte
  simp only [hk, freqAt_eq_get]
  rw [if_neg hf, set_eq_setIfInBounds _ _ k.isLt]
  rfl

theorem countByte_overflows {r : Word} {k : Fin 256} (hk : (r.setWidth 8).toNat = k.val)
    (hf : s.freq.get k = 0xFFFFFFFF#32) : countByte r s = fail .freqOverflow s := by
  unfold countByte
  simp only [hk, freqAt_eq_get]
  rw [if_pos hf]

theorem EngineKeeps.counted {u : State} (h : EngineKeeps s u) (k : Fin 256) : EngineKeeps s (counted k u) :=
  ((h.setFreq _).setWork _).standRead _

/-- The micro-step that reads a byte's last bit goes on with the byte read. -/
theorem exec_freqCount_lastBit {b : Bool} {c : InChan} (hpp : s.eng.pp = .freqByte) (hrk : s.eng.work.rk = 7)
    (hc : readBit s.inp = .bit b c) :
    exec .freqCount s = (countByte (shiftIn s.eng.work.rv b) (readBitsNext b (s.setInp c))).toMicro.outcome s := by
  rw [exec_freqCount_freqByte s hpp, performReadBits_last hc (by rw [hrk])]

/-- Settles O29: the two branches of `countByte` from the state in which the byte's last bit has been read. -/
theorem freqCountCountsAByte : Obligations.FreqCountCountsAByte := by
  intro s b c k hpp hrk hc hk
  have hkeeps : EngineKeeps s (readBitsNext b (s.setInp c)) := ((EngineKeeps.refl s).setInp c).readBitsNext b
  refine ⟨fun hf => ⟨counted k (readBitsNext b (s.setInp c)), ?_, rfl, rfl, rfl, rfl, rfl, rfl, rfl, rfl, rfl,
      hkeeps.counted k⟩,
    fun hf => ⟨raiseError .freqOverflow (readBitsNext b (s.setInp c)), ?_, rfl, rfl, rfl, rfl, rfl, rfl,
      hkeeps.raiseError _⟩⟩
  · rw [exec_freqCount_lastBit hpp hrk hc, countByte_counts (s := readBitsNext b (s.setInp c)) hk hf]
    rfl
  · rw [exec_freqCount_lastBit hpp hrk hc, countByte_overflows (s := readBitsNext b (s.setInp c)) hk hf]
    rfl

theorem countEnd_zero (s : State) : countEnd 0 s = finish (some s.eng.work.cnt) s := rfl

theorem countEnd_inside {k : Nat} (hk : k ≠ 0) (s : State) : countEnd k s = fail .truncated s := if_neg hk

/-- `EOD` where a byte begins is the end of the stream. -/
theorem exec_freqCount_eod (hin : s.inp.exhausted) (hpp : s.eng.pp = .freqByte) (hrk : s.eng.work.rk = 0) :
    exec .freqCount s = .next (complete (some s.eng.work.cnt) s) := by
  rw [exec_freqCount_freqByte s hpp, performReadBits_eod hin, hrk, countEnd_zero]
  rfl

/-- The state in which `FREQ_COUNT` stands at its first byte. -/
def freqCountFirst (s : State) : State := standRead .freqByte (s.setWork { s.eng.work with cnt := 0 })

theorem exec_freqCount_first (hpp : s.eng.pp = .start) :
    exec .freqCount s = (performReadBits 8 countByte countEnd (freqCountFirst s)).outcome s := exec_freqCount_start s hpp

theorem EngineKeeps.freqCountFirst (s : State) : EngineKeeps s (freqCountFirst s) :=
  ((EngineKeeps.refl s).setWork _).standRead _

/-- Settles O31: the first `ReadBit`, and one with no bit or some bits of a byte read. -/
theorem freqCountEndsAtEndOfData : Obligations.FreqCountEndsAtEndOfData := by
  refine fun s hin => ⟨fun hpp => ⟨complete (some 0) (freqCountFirst s), ?_, rfl, rfl, rfl, rfl, rfl, rfl,
    (EngineKeeps.freqCountFirst s).complete _⟩, exec_freqCount_eod hin, fun hpp hrk => ?_⟩
  · have heod : (freqCountFirst s).inp.exhausted := hin
    rw [exec_freqCount_first hpp, performReadBits_eod heod]
    rfl
  · rw [exec_freqCount_freqByte s hpp, performReadBits_eod hin, countEnd_inside hrk]
    rfl

/-! ### A whole stream (R205; 70_reset_and_hazards.md R397) -/

/-- `FREQ_COUNT` stands at the first bit of a byte, or at the end of the stream. -/
structure AtByte (s : State) : Prop where
  pp : s.eng.pp = .freqByte
  rk : s.eng.work.rk = 0
  rv : s.eng.work.rv = 0

theorem atByte_counted (k : Fin 256) (s : State) : AtByte (counted k s) := ⟨rfl, rfl, rfl⟩

theorem atByte_freqCountFirst (s : State) : AtByte (freqCountFirst s) := ⟨rfl, rfl, rfl⟩

/-- From `s` to `t` `FREQ_COUNT` has read and counted `bytes`. -/
structure Tallied (bytes : List Byte) (s t : State) : Prop where
  freq : ∀ k : Fin 256, (t.freq.get k).toNat = (s.freq.get k).toNat + bytes.count (BitVec.ofNat 8 k.val)
  cnt : t.eng.work.cnt = s.eng.work.cnt + BitVec.ofNat 32 bytes.length
  inBits : inBits s.inp = bytes.flatMap (bitsMsb 8) ++ inBits t.inp
  ended : t.inp.ended = s.inp.ended
  bitsIn : t.inp.bitsIn = s.inp.bitsIn + BitVec.ofNat 32 (8 * bytes.length)
  status : t.status = s.status
  out : t.out = s.out
  tree : t.tree = s.tree
  keeps : EngineKeeps s t

theorem Tallied.refl (s : State) : Tallied [] s s where
  freq _ := rfl
  cnt := (BitVec.add_zero _).symm
  inBits := rfl
  ended := rfl
  bitsIn := (BitVec.add_zero _).symm
  status := rfl
  out := rfl
  tree := rfl
  keeps := EngineKeeps.refl s

theorem Tallied.append {xs ys : List Byte} {u t : State} (h : Tallied xs s u) (g : Tallied ys u t) :
    Tallied (xs ++ ys) s t where
  freq k := by rw [g.freq, h.freq, List.count_append, Nat.add_assoc]
  cnt := by rw [g.cnt, h.cnt, List.length_append, BitVec.ofNat_add, BitVec.add_assoc]
  inBits := by rw [h.inBits, g.inBits, List.flatMap_append, List.append_assoc]
  ended := g.ended.trans h.ended
  bitsIn := by rw [g.bitsIn, h.bitsIn, List.length_append, Nat.mul_add, BitVec.ofNat_add, BitVec.add_assoc]
  status := g.status.trans h.status
  out := g.out.trans h.out
  tree := g.tree.trans h.tree
  keeps := h.keeps.trans g.keeps

theorem toNat_succ_of_ne_max {v : Word} (hv : v ≠ 0xFFFFFFFF#32) : (v + 1).toNat = v.toNat + 1 := by
  bv_omega

theorem toFin_eq_iff (b : Byte) (k : Fin 256) : b.toFin = k ↔ b = BitVec.ofNat 8 k.val := by
  constructor
  · rintro rfl
    simp
  · rintro rfl
    ext
    simp

/-- Counting a byte adds one occurrence of it to the table. -/
theorem counted_freq {b : Byte} (hf : s.freq.get b.toFin ≠ 0xFFFFFFFF#32) (k : Fin 256) :
    ((counted b.toFin s).freq.get k).toNat = (s.freq.get k).toNat + [b].count (BitVec.ofNat 8 k.val) := by
  have hget : (counted b.toFin s).freq.get k = if b.toFin = k then s.freq.get b.toFin + 1 else s.freq.get k :=
    get_set s.freq k b.toFin _
  rw [hget, List.count_singleton]
  by_cases hk : b.toFin = k
  · have hb : b = BitVec.ofNat 8 k.val := (toFin_eq_iff b k).mp hk
    rw [if_pos hk, toNat_succ_of_ne_max hf, if_pos (beq_iff_eq.mpr hb), hk]
  · have hb : b ≠ BitVec.ofNat 8 k.val := fun h => hk ((toFin_eq_iff b k).mpr h)
    rw [if_neg hk, if_neg (mt beq_iff_eq.mp hb), Nat.add_zero]

/-- A whole byte that is there is counted in eight micro-steps. -/
theorem microSteps_freqCount_byte {b : Byte} {rest : List Bool} (hat : AtByte s)
    (hin : inBits s.inp = bitsMsb 8 b ++ rest) (hf : s.freq.get b.toFin ≠ 0xFFFFFFFF#32) :
    ∃ t, microSteps .freqCount 8 s = .next t ∧ AtByte t ∧ Tallied [b] s t := by
  obtain ⟨c, hrest, hended, hbits, u, hu, hrun⟩ := microSteps_read exec_freqCount_freqByte (bitsMsb 8 b) rest s hat.pp hin
    (bitsMsb_ne_nil b (by decide)) (by rw [hat.rk, bitsMsb_length])
  have hword : (bitsMsb 8 b).foldl shiftIn s.eng.work.rv = b.setWidth 32 := by
    rw [hat.rv]
    exact wordOfBits_bitsMsb 8 b (by decide) le_rfl
  have hbyte : ((b.setWidth 32).setWidth 8).toNat = b.toFin.val := by simp
  rw [hword] at hu hrun
  have hstep := hrun (counted b.toFin u) (by rw [countByte_counts hbyte (by rw [hu]; exact hf)]; rfl)
  rw [bitsMsb_length] at hstep hbits
  refine ⟨_, hstep, atByte_counted _ _, ?_⟩
  subst hu
  exact {
    freq := counted_freq hf
    cnt := rfl
    inBits := by simpa [counted, hrest] using hin
    ended := hended
    bitsIn := hbits
    status := rfl
    out := rfl
    tree := rfl
    keeps := (((EngineKeeps.refl s).setInp c).setWork _).counted _ }

/-- Bytes that are all there are counted in eight micro-steps each, where no count overflows. -/
theorem microSteps_freqCount_bytes : ∀ (bytes : List Byte) (s : State), AtByte s →
    inBits s.inp = bytes.flatMap (bitsMsb 8) →
    (∀ k : Fin 256, (s.freq.get k).toNat + bytes.count (BitVec.ofNat 8 k.val) < 2 ^ 32) →
    ∃ t, microSteps .freqCount (8 * bytes.length) s = .next t ∧ AtByte t ∧ Tallied bytes s t
  | [], s, hat, _, _ => ⟨s, rfl, hat, Tallied.refl s⟩
  | b :: bs, s, hat, hin, hroom => by
    have hf : s.freq.get b.toFin ≠ 0xFFFFFFFF#32 := by
      intro hmax
      have hb := hroom b.toFin
      have hcount : 0 < (b :: bs).count (BitVec.ofNat 8 b.toFin.val) := by
        rw [← (toFin_eq_iff b b.toFin).mp rfl]
        exact List.count_pos_iff.mpr List.mem_cons_self
      rw [hmax] at hb
      change 2 ^ 32 - 1 + _ < 2 ^ 32 at hb
      omega
    obtain ⟨u, hbyte, hatu, hu⟩ := microSteps_freqCount_byte hat hin hf
    have hinu : inBits u.inp = bs.flatMap (bitsMsb 8) := by
      have hsplit := hin.symm.trans hu.inBits
      exact (List.append_cancel_left hsplit).symm
    have hroomu : ∀ k : Fin 256, (u.freq.get k).toNat + bs.count (BitVec.ofNat 8 k.val) < 2 ^ 32 := by
      intro k
      rw [hu.freq, Nat.add_assoc, ← List.count_append]
      exact hroom k
    obtain ⟨t, hbytes, hatt, ht⟩ := microSteps_freqCount_bytes bs u hatu hinu hroomu
    refine ⟨t, ?_, hatt, hu.append ht⟩
    rw [List.length_cons, Nat.mul_succ, Nat.add_comm, microSteps_add hbyte, hbytes]

/-- Settles O30: the run from the first byte is the one of `microSteps_freqCount_bytes`, and then `EOD`. -/
theorem freqCountTotalsTheStream : Obligations.FreqCountTotalsTheStream := by
  intro s bytes hpp hin hended hroom
  obtain ⟨u, hrun, hat, hu⟩ := microSteps_freqCount_bytes bytes (freqCountFirst s) (atByte_freqCountFirst s) hin hroom
  have hempty : inBits u.inp = [] := by
    have hsplit : bytes.flatMap (bitsMsb 8) = bytes.flatMap (bitsMsb 8) ++ inBits u.inp := hin.symm.trans hu.inBits
    exact List.self_eq_append_right.mp hsplit
  have hend : exec .freqCount u = .next (complete (some u.eng.work.cnt) u) :=
    exec_freqCount_eod ⟨hempty, hu.ended.trans hended⟩ hat.pp hat.rk
  have hnot : ¬ (freqCountFirst s).inp.starved := fun h => absurd (hended.symm.trans h.2) (by decide)
  have hfirst : microSteps .freqCount (8 * bytes.length + 1) s =
      microSteps .freqCount (8 * bytes.length + 1) (freqCountFirst s) :=
    microSteps_start (exec_freqCount_first hpp) (exec_freqCount_freqByte _ rfl) (performReadBits_ne_blocked hnot)
  refine ⟨complete (some u.eng.work.cnt) u, ?_, hu.freq, ?_, ?_, hempty, hu.bitsIn, hu.out, hu.tree,
    ((EngineKeeps.freqCountFirst s).trans hu.keeps).complete _⟩
  · rw [hfirst, microSteps_add hrun, microSteps_succ hend]
    rfl
  · exact hu.cnt.trans (BitVec.zero_add _)
  · exact congrArg Status.completed hu.status

end Sys2Proof.Machine
end

/-! ## The tree that BUILD makes (42_tree_build.md) -/

section
namespace Sys2Proof.Machine

/-! ### What BUILD leaves (R220, R221, R225 to R227) -/

/-- What `BUILD` leaves of the table `freq` in the tree memory `t`: the seeds as the first nodes, and then one node for each
round of the merge. -/
structure Built (freq : Vector Word 256) (t : TreeMem) : Prop where
  valid : t.valid = true
  root : t.root.val = 2 * (seedLeaves freq).length - 2
  count : t.count.toNat = 2 * (seedLeaves freq).length - 1
  node : ∀ (x : NodeIx) (h : x.val < (seedLeaves freq).length), t.nodes.get x = .leaf (seedLeaves freq)[x.val].1
  wfreq : ∀ (x : NodeIx) (h : x.val < (seedLeaves freq).length), t.wfreq.get x = (seedLeaves freq)[x.val].2
  merged : ∀ x : NodeIx, (seedLeaves freq).length ≤ x.val → x ≤ t.root → Merged t.nodes t.wfreq x

theorem seed_n (freq : Vector Word 256) (t : TreeMem) : (seed freq t.nodes t.wfreq).n = (seedLeaves freq).length :=
  (seeded freq t.nodes t.wfreq).n

theorem buildTree_leaves (freq : Vector Word 256) (t : TreeMem) : (buildTree freq t).2 = (seedLeaves freq).length :=
  seed_n freq t

theorem buildTree_root (freq : Vector Word 256) (t : TreeMem) :
    (buildTree freq t).1.root.val = 2 * (seedLeaves freq).length - 2 := by
  have hL := seedLeaves_length freq
  change (Fin.ofNat 513 (2 * (seed freq t.nodes t.wfreq).n - 2)).val = _
  rw [seed_n, ofNat_val (by omega)]

theorem buildTree_count (freq : Vector Word 256) (t : TreeMem) :
    (buildTree freq t).1.count.toNat = 2 * (seedLeaves freq).length - 1 := by
  have hL := seedLeaves_length freq
  change (BitVec.ofNat 10 (2 * (seed freq t.nodes t.wfreq).n - 1)).toNat = _
  rw [seed_n, BitVec.toNat_ofNat]
  omega

theorem buildTree_built (freq : Vector Word 256) (t : TreeMem) : Built freq (buildTree freq t).1 := by
  obtain ⟨hL2, hL⟩ := seedLeaves_length freq
  have hrootval := buildTree_root freq t
  have hcount := buildTree_count freq t
  have hd := seeded freq t.nodes t.wfreq
  have hinv := mergeInv_seed freq t.nodes t.wfreq
  unfold buildTree at hrootval hcount ⊢
  generalize seed freq t.nodes t.wfreq = d at hrootval hcount hd hinv ⊢
  have hlen : ((List.range d.n).map (Fin.ofNat 513)).length = (seedLeaves freq).length := by
    rw [List.length_map, List.length_range, hd.n]
  obtain ⟨root, hroot, -, hold, hnew⟩ :=
    mergeLoop_spec _ d.n _ _ _ _ hinv (List.ne_nil_of_length_pos (by omega)) (by rw [hlen, hd.n]; omega)
      (by rw [hlen, hd.n]; omega)
  rw [hlen, hd.n] at hroot
  dsimp only at hrootval hcount ⊢
  rw [hd.n] at hold hnew hrootval hcount ⊢
  have hr : Fin.ofNat 513 (2 * (seedLeaves freq).length - 2) = root := Fin.ext (by omega)
  exact {
    valid := rfl
    root := hrootval
    count := hcount
    node := fun x hx => (hold x hx).1.trans (hd.nodes x hx)
    wfreq := fun x hx => (hold x hx).2.trans (hd.wfreq x hx)
    merged := fun x hx hle => hnew x hx (hr ▸ hle) }


theorem exec_build_next {s t : State} (hpp : s.eng.pp = .start) (h : exec .build s = .next t) :
    t = complete (some (BitVec.ofNat 32 (seedLeaves s.freq).length)) (s.setTree (buildTree s.freq s.tree).1) := by
  rw [exec_build_start s hpp, buildTree_leaves] at h
  exact (Host.Outcome.next.inj h).symm

theorem exec_build_tree {s t : State} (hpp : s.eng.pp = .start) (h : exec .build s = .next t) :
    t.tree = (buildTree s.freq s.tree).1 := by
  rw [exec_build_next hpp h, complete_tree, State.setTree_tree]

theorem exec_build_built {s t : State} (hpp : s.eng.pp = .start) (h : exec .build s = .next t) : Built s.freq t.tree :=
  exec_build_tree hpp h ▸ buildTree_built s.freq s.tree

/-- Settles O33: `buildTree_holdsTree` says what the one micro-step leaves. -/
theorem buildLeavesAValidTree : Obligations.BuildLeavesAValidTree := by
  intro s t hpp h
  exact ⟨(exec_build_built hpp h).valid, exec_build_tree hpp h ▸ buildTree_holdsTree s.freq s.tree⟩

/-! ### The leaves (R221, R222) -/

theorem presentLeaves_symbols (freq : Vector Word 256) :
    (presentLeaves freq 256).map (fun c => c.1.val) = (List.range 256).filter fun k => freqAt freq k ≠ 0 := by
  unfold presentLeaves
  rw [List.map_map]
  refine (List.map_congr_left fun k hk => ?_).trans (List.map_id _)
  have hlt := List.mem_range.mp (List.mem_filter.mp hk).1
  exact Nat.mod_eq_of_lt (by omega)

theorem leafSymbols_eq (freq : Vector Word 256) : leafSymbols freq = (seedLeaves freq).map fun c => c.1.val := by
  unfold leafSymbols seedLeaves
  rw [List.map_append, ← presentLeaves_symbols]
  simp only [List.map_eq_nil_iff]
  split <;> rfl

theorem leafSymbols_length (freq : Vector Word 256) : (leafSymbols freq).length = (seedLeaves freq).length := by
  rw [leafSymbols_eq, List.length_map]

theorem sentinel_iff (y : Symbol) : y = sentinel ↔ y.val = 256 := Fin.ext_iff

theorem Built.node_of_getElem? {freq : Vector Word 256} {t : TreeMem} (h : Built freq t) {x : NodeIx} {c : Symbol × Sum}
    (hc : (seedLeaves freq)[x.val]? = some c) : t.nodes.get x = .leaf c.1 ∧ t.wfreq.get x = c.2 := by
  obtain ⟨hlt, rfl⟩ := List.getElem?_eq_some_iff.mp hc
  exact ⟨h.node x hlt, h.wfreq x hlt⟩

theorem Built.leaf {freq : Vector Word 256} {t : TreeMem} (h : Built freq t) {k sym : Nat}
    (hk : (leafSymbols freq)[k]? = some sym) :
    ∃ x y, x.val = k ∧ y.val = sym ∧ t.nodes.get x = .leaf y ∧
      (t.wfreq.get x).toNat = if sym = 256 then 1 else (freqAt freq sym).toNat := by
  have hL := (seedLeaves_length freq).2
  rw [leafSymbols_eq, List.getElem?_map, Option.map_eq_some_iff] at hk
  obtain ⟨c, hc, rfl⟩ := hk
  have hlt := (List.getElem?_eq_some_iff.mp hc).1
  obtain ⟨hnode, hfreq⟩ := h.node_of_getElem? (x := ⟨k, by omega⟩) hc
  refine ⟨_, c.1, rfl, rfl, hnode, ?_⟩
  rw [hfreq, seedLeaves_freq freq c (List.mem_of_getElem? hc)]
  simp only [sentinel_iff]

/-- Settles O32: the leaf symbols are the seeds' symbols, and `Built` says where the seeds are. -/
theorem buildCompletesWithItsLeaves : Obligations.BuildCompletesWithItsLeaves := by
  intro s hpp
  have hb := buildTree_built s.freq s.tree
  rw [leafSymbols_length]
  have hrun : exec .build s = .next { s with
      tree := (buildTree s.freq s.tree).1
      result := BitVec.ofNat 32 (seedLeaves s.freq).length
      status := s.status.completed } := by
    rw [exec_build_start s hpp, buildTree_leaves, complete_some_eq_completed]
    rfl
  obtain ⟨hL2, hL⟩ := seedLeaves_length s.freq
  exact ⟨_, hrun, hb.valid, hL2, hL, hb.root, hb.count, fun _ _ => hb.leaf⟩

/-! ### The internal nodes (R224, R225) -/

/-- A leaf below the root is a seed: the other nodes are the merge's. -/
theorem Built.lt_of_leaf {freq : Vector Word 256} {t : TreeMem} (h : Built freq t) {x : NodeIx} {sym : Symbol}
    (hx : x ≤ t.root) (hn : t.nodes.get x = .leaf sym) : x.val < (seedLeaves freq).length := by
  by_contra hge
  obtain ⟨a, b, hint, -⟩ := h.merged x (by omega) hx
  rw [hn] at hint
  cases hint

theorem Built.ge_of_int {freq : Vector Word 256} {t : TreeMem} (h : Built freq t) {x a b : NodeIx}
    (hn : t.nodes.get x = .int a b) : (seedLeaves freq).length ≤ x.val := by
  by_contra hlt
  rw [h.node x (by omega)] at hn
  cases hn

/-- Settles O34: a seed has its symbol's count, and every other node was merged. -/
theorem buildMergesTheTwoLowest : Obligations.BuildMergesTheTwoLowest := by
  intro s t hpp h
  have hb := exec_build_built hpp h
  refine ⟨fun x sym hx hn => ?_, fun x a b hx hn => ?_⟩
  · have hlt := hb.lt_of_leaf hx hn
    rw [hb.node x hlt] at hn
    obtain rfl := Node.leaf.inj hn
    rw [hb.wfreq x hlt]
    exact seedLeaves_freq s.freq _ (List.getElem_mem hlt)
  · obtain ⟨a', b', hn', ⟨ha, hb, hab, hmin, hnext⟩, hsum⟩ := hb.merged x (hb.ge_of_int hn) hx
    obtain ⟨rfl, rfl⟩ := Node.int.inj (hn.symm.trans hn')
    exact ⟨ha, hb, hab, hmin, hnext, hsum⟩

/-! ### What the tree depends on (R224) -/

/-- Two node memories, with their working arrays, that agree on the nodes below `n`. -/
def AgreeBelow (n : Nat) (m m' : Vector Node 513 × Vector Sum 513) : Prop :=
  ∀ x : NodeIx, x.val < n → m.1.get x = m'.1.get x ∧ m.2.get x = m'.2.get x

theorem AgreeBelow.mono {n k : Nat} {m m' : Vector Node 513 × Vector Sum 513} (h : AgreeBelow n m m') (hk : k ≤ n) :
    AgreeBelow k m m' := fun x hx => h x (by omega)

theorem AgreeBelow.put {n : Nat} {m m' : Vector Node 513 × Vector Sum 513} (h : AgreeBelow n m m') (hn : n < 513) (nd : Node)
    (f : Sum) :
    AgreeBelow (n + 1) (m.1.setIfInBounds n nd, m.2.setIfInBounds n f) (m'.1.setIfInBounds n nd, m'.2.setIfInBounds n f) := by
  intro x hx
  simp only [set_eq_setIfInBounds _ n hn, get_set _ x ⟨n, hn⟩]
  split
  · exact ⟨rfl, rfl⟩
  · rename_i hne
    have hne' : n ≠ x.val := fun e => hne (Fin.ext e)
    exact h x (by omega)

/-- The merge makes the same nodes wherever the nodes it starts from are the same. -/
theorem mergeLoop_congr : ∀ (rounds : Nat) (active : List NodeIx) (next : Nat) (nodes nodes' : Vector Node 513)
    (w w' : Vector Sum 513), AgreeBelow next (nodes, w) (nodes', w') → (∀ y ∈ active, y.val < next) →
    next + active.length ≤ 514 → active.length ≤ rounds + 1 →
    AgreeBelow (next + active.length - 1) (mergeLoop rounds active next nodes w) (mergeLoop rounds active next nodes' w')
  | 0, active, next, nodes, nodes', w, w', h, _, _, hlen => h.mono (by omega)
  | _ + 1, [], next, nodes, nodes', w, w', h, _, _, _ => h.mono (by simp)
  | k + 1, a₀ :: as, next, nodes, nodes', w, w', h, hact, hroom, hlen => by
    have hw : ∀ y ∈ a₀ :: as, w.get y = w'.get y := fun y hy => (h y (hact y hy)).2
    have ha := minRank_mem w as a₀
    have hal := List.length_erase_of_mem ha
    unfold mergeLoop
    simp only [← minRank_congr as a₀ hw]
    generalize minRank w a₀ as = a at ha hal ⊢
    cases he : (a₀ :: as).erase a with
    | nil =>
      rw [he, List.length_nil] at hal
      exact h.mono (by omega)
    | cons b₀ bs =>
      have hsub : ∀ y ∈ b₀ :: bs, y ∈ a₀ :: as := fun y hy => List.mem_of_mem_erase (he ▸ hy)
      have hb := minRank_mem w bs b₀
      have hbl := List.length_erase_of_mem hb
      simp only [← minRank_congr bs b₀ fun y hy => hw y (hsub y hy)]
      generalize minRank w b₀ bs = b at hb hbl ⊢
      rw [← hw a ha, ← hw b (hsub b hb)]
      rw [he] at hal
      simp only [List.length_cons] at hal hbl hroom hlen ⊢
      have hn : next < 513 := by omega
      refine (mergeLoop_congr k (((b₀ :: bs).erase b) ++ [Fin.ofNat 513 next]) (next + 1) _ _ _ _
        (h.put hn (.int a b) (w.get a + w.get b)) ?_ ?_ ?_).mono ?_
      · intro y hy
        rcases List.mem_append.mp hy with hy | hy
        · exact Nat.lt_succ_of_lt (hact y (hsub y (List.mem_of_mem_erase hy)))
        · rw [List.mem_singleton.mp hy, ofNat_val hn]
          exact Nat.lt_succ_self next
      all_goals
        rw [List.length_append, hbl, List.length_singleton]
        omega

theorem seeded_agreeBelow {d d' : Seeding} {l : List (Symbol × Sum)} (h : Seeded d l) (h' : Seeded d' l) :
    AgreeBelow l.length (d.nodes, d.wfreq) (d'.nodes, d'.wfreq) := fun x hx =>
  ⟨(h.nodes x hx).trans (h'.nodes x hx).symm, (h.wfreq x hx).trans (h'.wfreq x hx).symm⟩

/-- The nodes of the tree that `BUILD` makes are the table's alone, with their frequencies. -/
theorem buildTree_agreeBelow (freq : Vector Word 256) (t t' : TreeMem) :
    AgreeBelow (2 * (seedLeaves freq).length - 1) ((buildTree freq t).1.nodes, (buildTree freq t).1.wfreq)
      ((buildTree freq t').1.nodes, (buildTree freq t').1.wfreq) := by
  obtain ⟨hL2, hL⟩ := seedLeaves_length freq
  have hd := seeded freq t.nodes t.wfreq
  have hd' := seeded freq t'.nodes t'.wfreq
  unfold buildTree
  generalize seed freq t.nodes t.wfreq = d at hd ⊢
  generalize seed freq t'.nodes t'.wfreq = d' at hd' ⊢
  dsimp only
  rw [hd.n, hd'.n]
  have hlen : ((List.range (seedLeaves freq).length).map (Fin.ofNat 513)).length = (seedLeaves freq).length := by
    rw [List.length_map, List.length_range]
  refine (mergeLoop_congr _ _ _ _ _ _ _ (seeded_agreeBelow hd hd') (fun y hy => ?_) (by omega) (by omega)).mono (by omega)
  obtain ⟨k, hk, rfl⟩ := List.mem_map.mp hy
  have hk := List.mem_range.mp hk
  rwa [ofNat_val (by omega)]

theorem buildTree_root_congr (freq : Vector Word 256) (t t' : TreeMem) :
    (buildTree freq t).1.root = (buildTree freq t').1.root :=
  Fin.ext ((buildTree_root freq t).trans (buildTree_root freq t').symm)

theorem buildTree_codes (freq : Vector Word 256) (t : TreeMem) :
    (buildTree freq t).1.codes = buildCodes (buildTree freq t).1.nodes (buildTree freq t).1.root := by
  unfold buildTree
  generalize seed freq t.nodes t.wfreq = d
  rfl

theorem buildTree_codes_congr (freq : Vector Word 256) (t t' : TreeMem) :
    (buildTree freq t).1.codes = (buildTree freq t').1.codes := by
  obtain ⟨sh, hok, -⟩ := buildTree_holdsTree freq t
  have hagree := buildTree_agreeBelow freq t t'
  have hfits' : sh.fits (buildTree freq t').1.nodes := by
    refine Shape.fits_congr (fun x hx => (hagree x ?_).1.symm) hok.fits
    rw [← buildTree_count freq t, ← List.mem_range, ← hok.nodes.mem_iff]
    exact List.mem_map_of_mem hx
  calc (buildTree freq t).1.codes
    _ = buildCodes (buildTree freq t).1.nodes sh.root := by rw [hok.root, buildTree_codes]
    _ = buildCodes (buildTree freq t').1.nodes sh.root := buildCodes_congr hok.fits hfits' hok.unique
    _ = (buildTree freq t').1.codes := by rw [hok.root, buildTree_root_congr freq t t', ← buildTree_codes]

/-- Settles O35: the seeds and every round of the merge are the same for both. -/
theorem buildDependsOnlyOnTheTable : Obligations.BuildDependsOnlyOnTheTable := by
  intro s s' t t' hpp hpp' hfreq h h'
  have hresult : t.result = t'.result := by
    rw [exec_build_next hpp h, exec_build_next hpp' h', ← hfreq]
    simp only [complete_result, Option.getD_some]
  rw [exec_build_tree hpp h, exec_build_tree hpp' h', ← hfreq]
  refine ⟨buildTree_root_congr .., BitVec.eq_of_toNat_eq ((buildTree_count ..).trans (buildTree_count ..).symm),
    buildTree_codes_congr .., hresult, fun x hx => ?_⟩
  exact (buildTree_agreeBelow s.freq s.tree s'.tree x (buildTree_count s.freq s.tree ▸ hx)).1

/-! ### The filler tree (R222) -/

/-- The filler tree: the filler's leaf on the left, the sentinel's on the right. -/
def fillerShape : Shape := .int 2 (.leaf 0 0) (.leaf 1 sentinel)

theorem seedLeaves_zero : seedLeaves (.replicate 256 0) = [(0, 0), (sentinel, 1)] := by
  have hnone : presentLeaves (.replicate 256 0) 256 = [] := by
    unfold presentLeaves
    rw [List.map_eq_nil_iff, List.filter_eq_nil_iff]
    intro k hk
    have hz : freqAt (.replicate 256 0) k = 0 := (freqAt_eq_get _ ⟨k, List.mem_range.mp hk⟩).trans (get_replicate ..)
    simpa using hz
  rw [seedLeaves, if_pos hnone]
  rfl

/-- Of the two seeds the filler, whose frequency is 0, ranks first: it is the left child. -/
theorem Built.fillerShape_fits {t : TreeMem} (h : Built (.replicate 256 0) t) : fillerShape.fits t.nodes := by
  obtain ⟨hn0, hw0⟩ := h.node_of_getElem? (x := 0) (c := (0, 0)) (by rw [seedLeaves_zero]; rfl)
  obtain ⟨hn1, hw1⟩ := h.node_of_getElem? (x := 1) (c := (sentinel, 1)) (by rw [seedLeaves_zero]; rfl)
  obtain ⟨a, b, hint, ⟨⟨ha, -⟩, ⟨hb, hbact⟩, hab, hmin, -⟩, -⟩ := h.merged 2 (by rw [seedLeaves_zero]; rfl)
    (by rw [Fin.le_def, h.root, seedLeaves_zero]; rfl)
  have hfirst : ranksBefore t.wfreq a b = true := hmin b ⟨hb, hbact⟩ hab.symm
  rw [ranksBefore_iff] at hfirst
  have hcases : ∀ y : NodeIx, y < 2 → y = 0 ∨ y = 1 := fun y hy =>
    (Nat.le_one_iff_eq_zero_or_eq_one.mp (Nat.lt_succ_iff.mp hy)).imp Fin.ext Fin.ext
  obtain ⟨rfl, rfl⟩ : a = 0 ∧ b = 1 := by
    rcases hcases a ha with rfl | rfl <;> rcases hcases b hb with rfl | rfl
    · exact absurd rfl hab
    · exact ⟨rfl, rfl⟩
    · simp [hw0, hw1] at hfirst
    · exact absurd rfl hab
  exact ⟨hint, hn0, hn1⟩

/-- Settles O36: the tree is `fillerShape`, and its codes are that tree's. -/
theorem buildOfEmptyTableGivesFillerTree : Obligations.BuildOfEmptyTableGivesFillerTree := by
  intro s hpp hfreq
  have hbuilt := buildTree_built s.freq s.tree
  rw [hfreq] at hbuilt
  refine ⟨_, exec_build_start s hpp, ?_⟩
  rw [buildTree_leaves, complete_tree, complete_result, State.setTree_tree, hfreq, Option.getD_some, seedLeaves_zero]
  have hcodes := buildTree_codes (.replicate 256 0) s.tree
  generalize (buildTree (.replicate 256 0) s.tree).1 = t at hbuilt hcodes ⊢
  obtain ⟨h2, h0, h1⟩ := hbuilt.fillerShape_fits
  have hroot : t.root = 2 := Fin.ext (by rw [hbuilt.root, seedLeaves_zero]; rfl)
  have hcount : t.count = 3 := BitVec.eq_of_toNat_eq (by rw [hbuilt.count, seedLeaves_zero]; rfl)
  have hok : CodesOk t fillerShape := by
    rw [CodesOk, hcodes, hroot]
    exact buildCodes_spec hbuilt.fillerShape_fits (by decide)
  obtain ⟨hv0, hb0⟩ := hok.code_of_mem (by decide) (0, [false]) (by decide)
  obtain ⟨hv1, hb1⟩ := hok.code_of_mem (by decide) (sentinel, [true]) (by decide)
  exact ⟨h0, h1, h2, hroot, hcount, rfl, hb0, hb1, hv0, hv1⟩

end Sys2Proof.Machine
end

/-! ## Serialization and deserialization of the tree, and the writers' last bit (43_tree_serial.md) -/

section
namespace Sys2Proof.Machine

variable {s : State}

/-! ### SERIALIZE (R240) -/

/-- Room for some bits is room for fewer. -/
theorem OutChan.hasRoom.mono {depth j k : Nat} {c : OutChan} (h : c.hasRoom depth k) (hjk : j ≤ k) : c.hasRoom depth j :=
  le_trans (Nat.add_le_add_left (Nat.div_le_div_right (Nat.add_le_add_left hjk _)) _) h

theorem Shape.one_le_ser_length (sh : Shape) : 1 ≤ sh.ser.length := by
  cases sh <;> exact Nat.succ_pos _

/-- `SERIALIZE` about to pop the root, with no bit counted yet. -/
def serializeFirst (s : State) : State := s.setWork { s.eng.work with stk := [nodeEntry s.tree.root], nbits := 0 }

theorem EngineKeeps.serializeFirst (s : State) : EngineKeeps s (serializeFirst s) := (EngineKeeps.refl s).setWork _

/-- Where the first bit does not block, the run of `SERIALIZE` is the run from the state in which it stands at that bit. -/
theorem microSteps_serialize_start {s₀ : State} {n : Nat} (hpp : s.eng.pp = .start) (hv : s.tree.valid = true)
    (hfirst : serializeLoop (serializeFirst s) = .atPrimitive s₀) (hpoint : s₀.eng.pp = .serInt ∨ s₀.eng.pp = .serLeaf)
    (hroom : s₀.out.hasRoom s₀.params.outDepth 1) (hn : 1 ≤ n) :
    microSteps .serialize n s = microSteps .serialize n s₀ := by
  obtain ⟨n, rfl⟩ := Nat.exists_eq_add_of_le' hn
  have hstart := exec_serialize_start s s₀ hpp hv hfirst
  rcases hpoint with hp | hp <;> rw [hp] at hstart
  · exact microSteps_start hstart (exec_serialize_serInt s₀ hp) (performWrite_ne_blocked hroom)
  · exact microSteps_start hstart (exec_serialize_serLeaf s₀ hp) (performWrite_ne_blocked hroom)

/-- Settles O37: the whole tree is the subtree `serialize_subtree` writes from the stack that holds the root alone, after
which the empty stack completes the command. -/
theorem serializeWritesPreOrder : Obligations.SerializeWritesPreOrder := by
  intro s sh hpp hv hfits hroot hz hroom
  obtain ⟨s₀, u, hfirst, hpoint, hout₀, hparams₀, hstk, hnbits, hbits, -, -, hcount, -, hstatus, hinp, hfreq, htree, hkeeps,
    hrun⟩ := serialize_subtree sh 0 (serializeFirst s) [] hfits (by rw [hroot]; rfl) hz hroom
  have hroom₀ : s₀.out.hasRoom s₀.params.outDepth 1 := by
    rw [hout₀, hparams₀]
    exact hroom.mono sh.one_le_ser_length
  refine ⟨sh.ser_length, complete (some u.eng.work.nbits) u, ?_, hbits, hcount, ?_, congrArg Status.completed hstatus, hinp,
    hfreq, htree, ((EngineKeeps.serializeFirst s).trans hkeeps).complete _⟩
  · rw [microSteps_serialize_start hpp hv hfirst hpoint hroom₀ sh.one_le_ser_length]
    exact hrun _ (by rw [serializeLoop_nil hstk]; rfl)
  · exact hnbits.trans (BitVec.zero_add _)

/-! ### The last bit of a writing command (R240; 44_encode.md R264; 46_bitio.md R300, R308) -/

/-- The last bit completes the command, where what goes on after it is a completion. -/
theorem performWrite_completes {k : State → Flow} {b : Bool} {o : OutChan} {r : Option Word} {u : State}
    (hq : s.eng.work.wq = [b]) (ho : writeBit s.params.outDepth b s.out = some o)
    (hk : k (writeNext o [] s) = finish r u) : (performWrite k s).outcome s = .next (complete r u) := by
  rw [performWrite_last hq ho, hk]
  rfl

theorem serializeLeaf_last (hstk : s.eng.work.stk = []) :
    serializeLeaf s =
      finish (some (s.eng.work.nbits + 10)) (s.setWork { s.eng.work with nbits := s.eng.work.nbits + 10 }) :=
  serializeLoop_nil hstk

/-- Settles O49: each of the four writers goes on to its completion after its last bit. -/
theorem writersCompleteAtTheirLastBit : Obligations.WritersCompleteAtTheirLastBit := by
  refine fun s b o hq ho => ⟨fun nm1 hpp => ?_, fun hpp => ?_, fun sym hpp => ?_, fun hpp hstk => ?_⟩
  · rw [exec_putBits_putBit nm1 s hpp, performWrite_completes hq ho rfl]
    rfl
  · rw [exec_magicWrite_magicOut s hpp, performWrite_completes hq ho rfl]
    rfl
  · rw [exec_encodeSym_encSym sym s hpp, performWrite_completes (k := encodeSymDone sym) hq ho rfl]
    rfl
  · have hrun := exec_serialize_serLeaf s hpp
    rw [performWrite_completes hq ho (serializeLeaf_last (s := writeNext o [] s) hstk)] at hrun
    exact ⟨_, hrun, rfl, rfl, rfl, rfl, rfl, rfl, exec_engineKeeps hrun⟩

/-! ### The errors of DESERIALIZE at a marker and at the end of the data (R245) -/

theorem performRead_bit {onBit : Bool → State → Flow} {onEod : State → Flow} {b : Bool} {c : InChan}
    (hc : readBit s.inp = .bit b c) : performRead onBit onEod s = (onBit b (s.setInp c)).toMicro := by
  simp only [performRead, hc]

theorem performRead_eod {onBit : Bool → State → Flow} {onEod : State → Flow} (h : s.inp.exhausted) :
    performRead onBit onEod s = (onEod s).toMicro := by
  simp only [performRead, readBit_eod.mpr h]

theorem deserializeMark_tooLarge (hni : s.eng.work.ni = 256) :
    deserializeMark true s = fail .treeTooLarge (s.setWork { s.eng.work with nbits := s.eng.work.nbits + 1 }) := by
  simp only [deserializeMark, hni, if_true]

/-- Settles O40: a marker beyond the 256th internal node, and `EOD` at each of the points of `DESERIALIZE`. -/
theorem deserializeRefusesTooLargeAndTruncated : Obligations.DeserializeRefusesTooLargeAndTruncated := by
  refine fun s => ⟨fun c hpp hc hni => ⟨raiseError .treeTooLarge
      ((s.setInp c).setWork { s.eng.work with nbits := s.eng.work.nbits + 1 }), ?_, rfl, rfl, rfl, rfl⟩,
    fun hin hpp => ?_, fun hin hpp => ⟨raiseError .truncated (deserializeFirst s), ?_, rfl, rfl, rfl, rfl, rfl⟩⟩
  · rw [exec_deserialize_desMark s hpp, performRead_bit hc, deserializeMark_tooLarge (s := s.setInp c) hni]
    rfl
  · rw [← raiseError_eq_failed]
    rcases List.mem_pair.mp hpp with hp | hp
    · rw [exec_deserialize_desMark s hp, performRead_eod hin]
      rfl
    · rw [exec_deserialize_desSym s hp, performReadBits_eod hin]
      rfl
  · have hin₀ : (deserializeFirst s).inp.exhausted := hin
    rw [exec_deserialize_start s hpp, performRead_eod hin₀]
    rfl

/-! ### The last bit of a leaf's symbol, and the end of DESERIALIZE (R245) -/

theorem exec_deserialize_lastBit {b : Bool} {c : InChan} (hpp : s.eng.pp = .desSym) (hrk : s.eng.work.rk = 8)
    (hc : readBit s.inp = .bit b c) :
    exec .deserialize s = (deserializeSymbol (shiftIn s.eng.work.rv b) (readBitsNext b (s.setInp c))).toMicro.outcome s := by
  rw [exec_deserialize_desSym s hpp, performReadBits_last hc (by rw [hrk])]

/-- The state in which the nine bits of a symbol have been counted. -/
def symbolCounted (s : State) : State := s.setWork { s.eng.work with nbits := s.eng.work.nbits + 9 }

/-- The state in which the leaf of `sym` has been placed at the current node. -/
def leafPlaced (sym : Symbol) (s : State) : State :=
  (s.setTree (modifyNode (fun _ => .leaf sym) s.eng.work.x s.tree)).setWork
    { s.eng.work with
      nbits := s.eng.work.nbits + 9, seen := s.eng.work.seen.set sym.val true sym.isLt, nl := s.eng.work.nl + 1 }

theorem deserializeSymbol_badSymbol {v : Word} (hv : 256 < v.toNat) :
    deserializeSymbol v s = fail .badSymbol (symbolCounted s) := by
  have hnot : ¬ v.toNat < 257 := by omega
  simp only [deserializeSymbol, hnot, dite_false]
  rfl

theorem deserializeSymbol_dupSymbol {v : Word} {sym : Symbol} (hv : sym.val = v.toNat)
    (hseen : s.eng.work.seen.get sym = true) : deserializeSymbol v s = fail .dupSymbol (symbolCounted s) := by
  obtain ⟨k, hk⟩ := sym
  subst hv
  simp only [deserializeSymbol, hk, dite_true, hseen, if_true]
  rfl

theorem deserializeSymbol_newSymbol {v : Word} {sym : Symbol} (hv : sym.val = v.toNat)
    (hseen : s.eng.work.seen.get sym = false) : deserializeSymbol v s = deserializeLoop (leafPlaced sym s) := by
  obtain ⟨k, hk⟩ := sym
  subst hv
  simp only [deserializeSymbol, hk, dite_true, hseen, Bool.false_eq_true, if_false]
  rfl

theorem leafPlaced_node_self (sym : Symbol) (s : State) : (leafPlaced sym s).tree.nodes.get s.eng.work.x = .leaf sym :=
  get_set_self _ _ _

theorem leafPlaced_node_ne {y : NodeIx} (hy : s.eng.work.x ≠ y) (sym : Symbol) :
    (leafPlaced sym s).tree.nodes.get y = s.tree.nodes.get y := get_set_ne _ hy _

theorem leafPlaced_seen (sym y : Symbol) (s : State) :
    (leafPlaced sym s).eng.work.seen.get y = true ↔ sym = y ∨ s.eng.work.seen.get y = true := by
  change (s.eng.work.seen.set sym.val true sym.isLt).get y = true ↔ _
  rw [get_set]
  split <;> simp_all

theorem deserializeLoop_nil (hstk : s.eng.work.stk = []) : deserializeLoop s = deserializeEnd s := by
  simp only [deserializeLoop, hstk]

theorem deserializeEnd_leafRoot {sym : Symbol} (hroot : s.tree.nodes.get 0 = .leaf sym) :
    deserializeEnd s = fail .leafRoot s := by
  simp only [deserializeEnd, hroot]

theorem deserializeEnd_noSentinel (hroot : (s.tree.nodes.get 0).isInt = true)
    (hseen : s.eng.work.seen.get sentinel = false) : deserializeEnd s = fail .noSentinel s := by
  obtain ⟨l, r, hn⟩ := Node.exists_int hroot
  simp only [deserializeEnd, hn, hseen, Bool.false_eq_true, if_false]

/-- The tree memory after `DESERIALIZE` has checked the whole tree. -/
def checkedTree (s : State) : TreeMem :=
  { s.tree with
    root := 0, count := BitVec.ofNat 10 s.eng.work.nn, codes := buildCodes s.tree.nodes 0, valid := true }

theorem deserializeEnd_completes (hroot : (s.tree.nodes.get 0).isInt = true)
    (hseen : s.eng.work.seen.get sentinel = true) :
    deserializeEnd s = finish (some s.eng.work.nbits) (s.setTree (checkedTree s)) := by
  obtain ⟨l, r, hn⟩ := Node.exists_int hroot
  simp only [deserializeEnd, hn, hseen, if_true]
  rfl

/-- Settles O39: the two checks of a symbol and, at the last leaf, the three ends of the whole tree, from the state in which
the ninth bit has been read. -/
theorem deserializeChecksEachLeaf : Obligations.DeserializeChecksEachLeaf := by
  rintro s b c _ hpp hrk hc rfl
  let u := readBitsNext b (s.setInp c)
  have hlast := exec_deserialize_lastBit hpp hrk hc
  refine ⟨fun hv => ⟨raiseError .badSymbol (symbolCounted u), ?_, rfl, rfl, rfl, rfl⟩,
    fun sym hv hseen => ⟨raiseError .dupSymbol (symbolCounted u), ?_, rfl, rfl, rfl, rfl⟩,
    fun sym hv hseen hstk => ?_⟩
  · rw [hlast, deserializeSymbol_badSymbol hv]
    rfl
  · rw [hlast, deserializeSymbol_dupSymbol (s := u) hv hseen]
    rfl
  · let p := leafPlaced sym u
    have hend : exec .deserialize s = (deserializeEnd p).toMicro.outcome s := by
      rw [hlast, deserializeSymbol_newSymbol (s := u) hv hseen, deserializeLoop_nil (s := p) hstk]
    have hroot (hx : s.eng.work.x ≠ 0) (hint : (s.tree.nodes.get 0).isInt = true) :
        (p.tree.nodes.get 0).isInt = true := by
      rw [leafPlaced_node_ne (s := u) hx sym]
      exact hint
    refine ⟨fun hx => ⟨raiseError .leafRoot p, ?_, rfl, rfl, rfl, rfl⟩,
      fun hx hint hne hns => ⟨raiseError .noSentinel p, ?_, rfl, rfl, rfl, rfl⟩,
      fun hx hint hs => ⟨complete (some p.eng.work.nbits) (p.setTree (checkedTree p)), ?_, rfl, rfl, rfl, rfl,
        leafPlaced_node_self sym u, rfl, rfl, rfl⟩⟩
    · have hleaf : p.tree.nodes.get 0 = .leaf sym := hx ▸ leafPlaced_node_self sym u
      rw [hend, deserializeEnd_leafRoot hleaf]
      rfl
    · have hnone : p.eng.work.seen.get sentinel = false := by
        rw [Bool.eq_false_iff, Ne, leafPlaced_seen, not_or]
        exact ⟨hne, Bool.eq_false_iff.mp hns⟩
      rw [hend, deserializeEnd_noSentinel (hroot hx hint) hnone]
      rfl
    · rw [hend, deserializeEnd_completes (hroot hx hint) ((leafPlaced_seen sym sentinel u).mpr hs)]
      rfl

/-! ### DESERIALIZE of a whole tree (R245, R248, R249) -/

/-- There are 257 symbols (00_scope.md R4). -/
theorem Shape.symbols_length_le {sh : Shape} (hnd : sh.symbols.Nodup) : sh.symbols.length ≤ 257 := by
  simpa using hnd.length_le_card

/-- `DESERIALIZE` before it numbers the root: only the root's slot is pending. -/
def deserializeEntry (s : State) : State :=
  (s.setTree { s.tree with valid := false }).setWork
    { s.eng.work with
      nn := 0, ni := 0, nl := 0, nbits := 0, seen := .replicate 257 false, stk := [⟨0, .left, true⟩] }

theorem deserializeLoop_entry (s : State) : deserializeLoop (deserializeEntry s) = .atPrimitive (deserializeFirst s) := rfl

theorem EngineKeeps.deserializeEntry (s : State) : EngineKeeps s (deserializeEntry s) :=
  ((EngineKeeps.refl s).setTree _).setWork _

/-- Where a bit is there, the run of `DESERIALIZE` is the run from the state in which it stands at the root's marker. -/
theorem microSteps_deserialize_start {n : Nat} (hpp : s.eng.pp = .start) (hin : ¬ s.inp.starved) (hn : 1 ≤ n) :
    microSteps .deserialize n s = microSteps .deserialize n (deserializeFirst s) := by
  obtain ⟨n, rfl⟩ := Nat.exists_eq_add_of_le' hn
  exact microSteps_start (exec_deserialize_start s hpp) (exec_deserialize_desMark _ rfl) (performRead_ne_blocked hin)

/-- `DESERIALIZE` at its end, with the nodes of `sh` in pre-order, every slot filled and its leaves' symbols seen. -/
structure ReadWhole (sh : Shape) (u : State) : Prop where
  stk : u.eng.work.stk = []
  nn : u.eng.work.nn = sh.nodeCount
  seen : ∀ y, u.eng.work.seen.get y = decide (y ∈ sh.symbols)
  fits : (sh.renumber 0).fits u.tree.nodes

section

variable {sh : Shape} {u : State} (h : ReadWhole sh u) (hint : sh.isInt = true) (hnd : sh.symbols.Nodup)
  (hsent : sentinel ∈ sh.symbols)

include h hint hsent in
theorem ReadWhole.deserializeLoop :
    deserializeLoop u = finish (some u.eng.work.nbits) (u.setTree (checkedTree u)) := by
  have hroot : (u.tree.nodes.get 0).isInt = true := by
    have hfit := Shape.fits_isInt h.fits
    rw [Shape.renumber_root, Shape.renumber_isInt] at hfit
    exact hfit.trans hint
  rw [deserializeLoop_nil h.stk, deserializeEnd_completes hroot]
  exact (h.seen sentinel).trans (decide_eq_true hsent)

include hnd in
theorem Shape.nodeCount_le : sh.nodeCount ≤ 513 := by
  have hle := Shape.symbols_length_le hnd
  rw [Shape.nodeCount]
  omega

include hnd in
/-- R245 numbers the nodes in pre-order. -/
theorem Shape.renumber_zero_indices : (sh.renumber 0).indices.map Fin.val = List.range (2 * sh.symbols.length - 1) := by
  have hle := Shape.nodeCount_le hnd
  rw [Shape.renumber_indices sh 0 (by omega), List.range_eq_range']
  rfl

include hint in
theorem Shape.two_le_symbols_length : 2 ≤ sh.symbols.length := by
  cases sh with
  | leaf x sym => cases hint
  | int x l r =>
    have hl := List.length_pos_of_ne_nil l.symbols_ne_nil
    have hr := List.length_pos_of_ne_nil r.symbols_ne_nil
    rw [Shape.symbols, List.length_append]
    omega

include h hint hnd hsent in
/-- 42_tree_build.md R223: the tree read satisfies every invariant. -/
theorem ReadWhole.treeOk : TreeOk (checkedTree u) (sh.renumber 0) := by
  have hle := Shape.nodeCount_le hnd
  have hcount : (checkedTree u).count.toNat = 2 * sh.symbols.length - 1 := by
    change (BitVec.ofNat 10 u.eng.work.nn).toNat = sh.nodeCount
    rw [h.nn, BitVec.toNat_ofNat, Nat.mod_eq_of_lt (by omega)]
  exact {
    fits := h.fits
    root := Shape.renumber_root sh 0
    nodes := by rw [hcount, Shape.renumber_zero_indices hnd]
    internal := (Shape.renumber_isInt sh 0).trans hint
    unique := by rwa [Shape.renumber_symbols]
    hasSentinel := by rwa [Shape.renumber_symbols]
    leaves := by
      rw [Shape.renumber_symbols]
      exact ⟨Shape.two_le_symbols_length hint, Shape.symbols_length_le hnd⟩
    count := by rw [hcount, Shape.renumber_symbols] }

include h hnd in
/-- R228: the code table is the one of the tree read. -/
theorem ReadWhole.codesOk : CodesOk (checkedTree u) (sh.renumber 0) := by
  have hcodes := buildCodes_spec h.fits (by rwa [Shape.renumber_symbols])
  rwa [Shape.renumber_root] at hcodes

end

/-- Settles O38: the whole tree is the subtree `deserialize_subtree` reads into the root's slot; the tree left is `sh`
numbered in pre-order. -/
theorem deserializeReadsPreOrder : Obligations.DeserializeReadsPreOrder := by
  intro s sh rest hpp hint hnd hsent hin
  have hle := Shape.nodeCount_le hnd
  have hlen := Shape.symbols_length_le hnd
  obtain ⟨s₀, u, hfirst, -, -, -, hstk, hnn, -, hnbits, hseen, hrest, -, hfits, -, hstatus, hout, hfreq, hkeeps, hrun⟩ :=
    deserialize_subtree sh (deserializeEntry s) ⟨0, .left, true⟩ [] rest rfl ((Nat.zero_add _).trans_le hle)
      ((Nat.zero_add _).trans_le hlen) hnd (fun y _ => get_replicate false y) (.inl rfl) hin
  obtain rfl := Flow.atPrimitive.inj ((deserializeLoop_entry s).symm.trans hfirst)
  have hwhole : ReadWhole sh u :=
    ⟨hstk, hnn.trans (Nat.zero_add _), fun y => by rw [hseen y]; exact congrArg (· || _) (get_replicate false y), hfits⟩
  have hser : sh.ser ≠ [] := List.ne_nil_of_length_pos sh.one_le_ser_length
  refine ⟨complete (some u.eng.work.nbits) (u.setTree (checkedTree u)), sh.renumber 0, ?_, hrest,
    hnbits.trans (BitVec.zero_add _), congrArg Status.completed hstatus, rfl, Shape.renumber_ser sh 0,
    Shape.renumber_codes sh 0, Shape.renumber_zero_indices hnd, hwhole.treeOk hint hnd hsent, hwhole.codesOk hnd, hout,
    hfreq, (((EngineKeeps.deserializeEntry s).trans hkeeps).setTree _).complete _⟩
  rw [microSteps_deserialize_start hpp (not_starved hin hser) sh.one_le_ser_length]
  exact hrun _ (by rw [hwhole.deserializeLoop hint hsent]; rfl)

end Sys2Proof.Machine
end

/-! ## ENCODE_SYM and ENCODE (44_encode.md) -/

section
namespace Sys2Proof.Machine

variable {s : State}

/-! ### Runs of one command -/

/-- A run of one command writes nothing of what no micro-step writes. -/
theorem microSteps_engineKeeps {i : Instr} {n : Nat} {s t : State} (h : microSteps i n s = .next t) : EngineKeeps s t := by
  induction n generalizing s with
  | zero =>
    obtain rfl := Host.Outcome.next.inj h
    exact EngineKeeps.refl s
  | succ n ih =>
    cases he : exec i s with
    | next u => exact (exec_engineKeeps he).trans (ih (microSteps_succ he ▸ h))
    | fault f => simp [microSteps, he] at h
    | refused r => simp [microSteps, he] at h

/-- Where `OUT` has room, writing bits after which the command completes takes one micro-step for each, and appends them. -/
theorem microSteps_write_completes {i : Instr} {k : State → Flow} {p : ProgPoint} {bits : List Bool} {r : Option Word}
    (hexec : ∀ s, s.eng.pp = p → exec i s = (performWrite k s).outcome s)
    (hk : ∀ o, k (writeNext o [] s) = finish r (writeNext o [] s)) (hpp : s.eng.pp = p) (hq : s.eng.work.wq = bits)
    (hne : bits ≠ []) (hroom : s.out.hasRoom s.params.outDepth bits.length) (hz : s.out.tailZero) :
    ∃ t, microSteps i bits.length s = .next t ∧ outBits t.out = outBits s.out ++ bits ∧
      t.out.bitsOut = s.out.bitsOut + BitVec.ofNat 32 bits.length ∧ t.result = r.getD s.result ∧
      t.status = s.status.completed ∧ t.inp = s.inp ∧ t.freq = s.freq ∧ t.tree = s.tree := by
  obtain ⟨o, hbits, -, -, hcount, hrun⟩ := microSteps_write hexec 0 bits s hpp hq hne hroom hz
  refine ⟨complete r (writeNext o [] s), hrun _ (by rw [hk]; rfl), ?_, ?_, ?_, ?_, ?_, ?_, ?_⟩
  · rw [complete_out, writeNext_out, hbits]
  · rw [complete_out, writeNext_out, hcount]
  · rw [complete_result, writeNext_result]
  · rw [complete_status, writeNext_status, Status.completed]
  · rw [complete_inp, writeNext_inp]
  · rw [complete_freq, writeNext_freq]
  · rw [complete_tree, writeNext_tree]

/-! ### The errors of ENCODE and its completion (R260) -/

theorem encodeByte_noCode {r : Word} (hv : (codeAt s.tree (r.setWidth 8).toNat).valid = false) :
    encodeByte r s = fail .noCode s := by
  unfold encodeByte
  rw [if_neg (ne_true_of_eq_false hv)]

theorem encodeByte_coded {r : Word} {b : Byte} (hr : r.setWidth 8 = b) (hv : (codeAt s.tree b.toNat).valid = true)
    (hne : (codeAt s.tree b.toNat).toBits ≠ []) :
    encodeByte r s = .atPrimitive (standWrite .encCode (codeAt s.tree b.toNat).toBits s) := by
  subst hr
  unfold encodeByte
  rw [if_pos hv, beginWrite_some hne]

theorem encodeEod_zero (hne : (codeAt s.tree 256).toBits ≠ []) :
    encodeEod 0 s = .atPrimitive (standWrite .encEnd (codeAt s.tree 256).toBits s) := beginWrite_some hne

theorem encodeEod_inside {k : Nat} (hk : k ≠ 0) (s : State) : encodeEod k s = fail .truncated s := if_neg hk

/-- Settles O43: the `NO_CODE` branch of `encodeByte`, the `EOD` inside a byte, and the completion after the last bit. -/
theorem encodeErrorsAndCompletion : Obligations.EncodeErrorsAndCompletion := by
  refine fun s => ⟨fun b c hpp hrk hc hv => ?_, fun hin hpp hrk => ?_, fun b o hpp hq ho => ?_⟩
  · have hrun := exec_encode_encByte s hpp
    rw [performReadBits_last hc (by rw [hrk]), encodeByte_noCode (s := readBitsNext b (s.setInp c)) hv] at hrun
    exact ⟨_, hrun, rfl, rfl, rfl, rfl, rfl, rfl, exec_engineKeeps hrun⟩
  · rw [exec_encode_encByte s hpp, performReadBits_eod hin, encodeEod_inside hrk]
    rfl
  · have hrun := exec_encode_encEnd s hpp
    rw [performWrite_completes (k := encodeDone) hq ho rfl] at hrun
    exact ⟨_, hrun, rfl, rfl, rfl, rfl, rfl, rfl, exec_engineKeeps hrun⟩

/-! ### The code of one symbol (R262, R264) -/

theorem getElem_codes_eq_codeAt (t : TreeMem) {k : Nat} (h : k < 257) : t.codes[k]'h = codeAt t k :=
  (codeAt_eq_get t ⟨k, h⟩).symm

/-- Where the first bit of the code does not block, the run of `ENCODE_SYM` is the run from the state in which it stands at
that bit. -/
theorem microSteps_encodeSym_start {sym : BitVec 10} {n : Nat} (hpp : s.eng.pp = .start) (hsym : sym.toNat < 257)
    (ht : s.tree.valid = true) (hv : (codeAt s.tree sym.toNat).valid = true)
    (hne : (codeAt s.tree sym.toNat).toBits ≠ []) (hroom : s.out.hasRoom s.params.outDepth 1) (hn : 1 ≤ n) :
    microSteps (.encodeSym sym) n s =
      microSteps (.encodeSym sym) n (standWrite .encSym (codeAt s.tree sym.toNat).toBits s) := by
  obtain ⟨n, rfl⟩ := Nat.exists_eq_add_of_le' hn
  exact microSteps_start (exec_encodeSym_start sym s hpp hsym ht hv hne) (exec_encodeSym_encSym sym _ rfl)
    (performWrite_ne_blocked hroom)

/-- Settles O41: a missing code fails at once, and `microSteps_write_completes` writes the code that is there. -/
theorem encodeSymWritesTheCode : Obligations.EncodeSymWritesTheCode := by
  intro s sym h hpp ht
  rw [getElem_codes_eq_codeAt s.tree h]
  refine ⟨exec_encodeSym_noCode sym s hpp h ht, fun hv hne hz hroom => ?_⟩
  have hpos : 1 ≤ (codeAt s.tree sym.toNat).toBits.length := List.length_pos_of_ne_nil hne
  obtain ⟨t, hrun, hbits, -, hresult, hstatus, hinp, hfreq, htree⟩ :=
    microSteps_write_completes (s := standWrite .encSym (codeAt s.tree sym.toNat).toBits s)
      (r := some ((codeAt s.tree sym.toNat).len.setWidth 32)) (exec_encodeSym_encSym sym) (fun _ => rfl) rfl rfl
      hne hroom hz
  have hwhole : microSteps (.encodeSym sym) (codeAt s.tree sym.toNat).len.toNat s = .next t := by
    rw [← CodeEntry.toBits_length, microSteps_encodeSym_start hpp h ht hv hne (hroom.mono hpos) hpos]
    exact hrun
  exact ⟨t, hwhole, hbits, hresult, hstatus, hinp, hfreq, htree, microSteps_engineKeeps hwhole⟩

/-! ### A whole stream (R260, R266; 30_encoding.md R153) -/

/-- The codes of a byte sequence, without the terminator (30_encoding.md R153). -/
def codeBits (t : TreeMem) (bytes : List Byte) : List Bool := bytes.flatMap fun b => (codeAt t b.toNat).toBits

theorem bodyBits_eq (t : TreeMem) (bytes : List Byte) : bodyBits t bytes = codeBits t bytes ++ (codeAt t 256).toBits := rfl

theorem codeBits_singleton (t : TreeMem) (b : Byte) : codeBits t [b] = (codeAt t b.toNat).toBits := List.append_nil _

theorem codeBits_append (t : TreeMem) (xs ys : List Byte) : codeBits t (xs ++ ys) = codeBits t xs ++ codeBits t ys :=
  List.flatMap_append

/-- `ENCODE` stands at the first bit of a byte, or at the end of the stream, and has room for `m` more bits. -/
structure AtEncodeByte (m : Nat) (s : State) : Prop where
  pp : s.eng.pp = .encByte
  rk : s.eng.work.rk = 0
  rv : s.eng.work.rv = 0
  tail : s.out.tailZero
  room : s.out.hasRoom s.params.outDepth m

/-- From `s` to `t` `ENCODE` has read `bytes` and written their codes. -/
structure Encoded (bytes : List Byte) (s t : State) : Prop where
  outBits : outBits t.out = outBits s.out ++ codeBits s.tree bytes
  cnt : t.eng.work.cnt = s.eng.work.cnt + BitVec.ofNat 32 bytes.length
  inBits : inBits s.inp = bytes.flatMap (bitsMsb 8) ++ inBits t.inp
  ended : t.inp.ended = s.inp.ended
  status : t.status = s.status
  freq : t.freq = s.freq
  tree : t.tree = s.tree

theorem Encoded.refl (s : State) : Encoded [] s s where
  outBits := (List.append_nil _).symm
  cnt := (BitVec.add_zero _).symm
  inBits := rfl
  ended := rfl
  status := rfl
  freq := rfl
  tree := rfl

theorem Encoded.append {xs ys : List Byte} {u t : State} (h : Encoded xs s u) (g : Encoded ys u t) :
    Encoded (xs ++ ys) s t where
  outBits := by rw [g.outBits, h.outBits, h.tree, codeBits_append, List.append_assoc]
  cnt := by rw [g.cnt, h.cnt, List.length_append, BitVec.ofNat_add, BitVec.add_assoc]
  inBits := by rw [h.inBits, g.inBits, List.flatMap_append, List.append_assoc]
  ended := g.ended.trans h.ended
  status := g.status.trans h.status
  freq := g.freq.trans h.freq
  tree := g.tree.trans h.tree

/-- The state in which `ENCODE` has read the byte `b`, with the channel that leaves. -/
def encodeByteRead (c : InChan) (b : Byte) (s : State) : State :=
  (s.setInp c).setWork { s.eng.work with rk := 8, rv := b.setWidth 32 }

/-- The state in which `ENCODE` has counted a byte and stands at the next one. -/
def encodeNextByte (s : State) : State := standRead .encByte (s.setWork { s.eng.work with cnt := s.eng.work.cnt + 1 })

theorem encodeNext_eq (s : State) : encodeNext s = .atPrimitive (encodeNextByte s) := rfl

/-- The eight bits of a byte that is there and has a code are read in eight micro-steps, up to the first bit of the code. -/
theorem microSteps_encode_readByte {b : Byte} {rest : List Bool} {m : Nat} (hat : AtEncodeByte m s)
    (hin : inBits s.inp = bitsMsb 8 b ++ rest) (hv : (codeAt s.tree b.toNat).valid = true)
    (hne : (codeAt s.tree b.toNat).toBits ≠ []) :
    ∃ c, inBits c = rest ∧ c.ended = s.inp.ended ∧
      microSteps .encode 8 s = .next (standWrite .encCode (codeAt s.tree b.toNat).toBits (encodeByteRead c b s)) := by
  obtain ⟨c, hrest, hended, -, u, hu, hrun⟩ := microSteps_read exec_encode_encByte (bitsMsb 8 b) rest s hat.pp hin
    (bitsMsb_ne_nil b (by decide)) (by rw [hat.rk, bitsMsb_length])
  have hword : (bitsMsb 8 b).foldl shiftIn s.eng.work.rv = b.setWidth 32 := by
    rw [hat.rv]
    exact wordOfBits_bitsMsb 8 b (by decide) le_rfl
  rw [hword] at hu hrun
  obtain rfl : u = encodeByteRead c b s := hu
  have hcode : encodeByte (b.setWidth 32) (encodeByteRead c b s) =
      .atPrimitive (standWrite .encCode (codeAt s.tree b.toNat).toBits (encodeByteRead c b s)) :=
    encodeByte_coded (s := encodeByteRead c b s) (by simp) hv hne
  have hread := hrun (standWrite .encCode (codeAt s.tree b.toNat).toBits (encodeByteRead c b s)) (by rw [hcode]; rfl)
  rw [bitsMsb_length] at hread
  exact ⟨c, hrest, hended, hread⟩

/-- A whole byte that is there and has a code: eight micro-steps read it, and one for each bit writes its code. -/
theorem microSteps_encode_byte {b : Byte} {rest : List Bool} {m : Nat}
    (hat : AtEncodeByte ((codeAt s.tree b.toNat).toBits.length + m) s) (hin : inBits s.inp = bitsMsb 8 b ++ rest)
    (hv : (codeAt s.tree b.toNat).valid = true) (hne : (codeAt s.tree b.toNat).toBits ≠ []) :
    ∃ t, microSteps .encode (8 + (codeAt s.tree b.toNat).toBits.length) s = .next t ∧ AtEncodeByte m t ∧
      Encoded [b] s t := by
  obtain ⟨c, hrest, hended, hread⟩ := microSteps_encode_readByte hat hin hv hne
  obtain ⟨o, hbits, htail, hroom, -, hwrite⟩ := microSteps_write exec_encode_encCode m (codeAt s.tree b.toNat).toBits
    (standWrite .encCode (codeAt s.tree b.toNat).toBits (encodeByteRead c b s)) rfl rfl hne hat.room hat.tail
  refine ⟨encodeNextByte (writeNext o [] (standWrite .encCode (codeAt s.tree b.toNat).toBits (encodeByteRead c b s))), ?_,
    ⟨rfl, rfl, rfl, htail, hroom⟩, ?_⟩
  · rw [microSteps_add hread]
    exact hwrite _ (by rw [encodeNext_eq]; rfl)
  · exact {
      outBits := by rw [codeBits_singleton]; exact hbits
      cnt := rfl
      inBits := by
        rw [hin, ← hrest, List.flatMap_singleton]
        rfl
      ended := hended
      status := by simp [encodeNextByte, encodeByteRead]
      freq := by simp [encodeNextByte, encodeByteRead]
      tree := by simp [encodeNextByte, encodeByteRead] }

/-- Bytes that are all there and have codes are encoded in eight micro-steps each, and one for each bit of their codes. -/
theorem microSteps_encode_bytes {m : Nat} : ∀ (bytes : List Byte) (s : State),
    AtEncodeByte ((codeBits s.tree bytes).length + m) s → inBits s.inp = bytes.flatMap (bitsMsb 8) →
    (∀ b ∈ bytes, (codeAt s.tree b.toNat).valid = true ∧ (codeAt s.tree b.toNat).toBits ≠ []) →
    ∃ t, microSteps .encode (8 * bytes.length + (codeBits s.tree bytes).length) s = .next t ∧ AtEncodeByte m t ∧
      Encoded bytes s t
  | [], s, hat, _, _ => ⟨s, rfl, by simpa [codeBits] using hat, Encoded.refl s⟩
  | b :: bs, s, hat, hin, hcodes => by
    obtain ⟨hv, hne⟩ := hcodes b List.mem_cons_self
    have hlen : (codeBits s.tree (b :: bs)).length =
        (codeAt s.tree b.toNat).toBits.length + (codeBits s.tree bs).length := List.length_append
    rw [hlen, Nat.add_assoc] at hat
    obtain ⟨u, hbyte, hatu, hu⟩ := microSteps_encode_byte hat hin hv hne
    have hinu : inBits u.inp = bs.flatMap (bitsMsb 8) := (List.append_cancel_left (hin.symm.trans hu.inBits)).symm
    rw [← hu.tree] at hatu
    obtain ⟨t, hbytes, hatt, ht⟩ := microSteps_encode_bytes bs u hatu hinu
      (by rw [hu.tree]; exact fun x hx => hcodes x (List.mem_cons_of_mem b hx))
    refine ⟨t, ?_, hatt, hu.append ht⟩
    have hsteps : 8 * (b :: bs).length + (codeBits s.tree (b :: bs)).length =
        8 + (codeAt s.tree b.toNat).toBits.length + (8 * bs.length + (codeBits s.tree bs).length) := by
      rw [hlen, List.length_cons]
      omega
    rw [hu.tree] at hbytes
    rw [hsteps, microSteps_add hbyte, hbytes]

/-- At the end of the stream one micro-step reads `EOD`, and one for each bit writes the terminator, the last completing
`ENCODE` with the count. -/
theorem microSteps_encode_end (hat : AtEncodeByte (codeAt s.tree 256).toBits.length s) (hin : s.inp.exhausted)
    (hne : (codeAt s.tree 256).toBits ≠ []) :
    ∃ t, microSteps .encode (1 + (codeAt s.tree 256).toBits.length) s = .next t ∧
      outBits t.out = outBits s.out ++ (codeAt s.tree 256).toBits ∧ t.inp = s.inp ∧ t.result = s.eng.work.cnt ∧
      t.status = s.status.completed ∧ t.freq = s.freq ∧ t.tree = s.tree := by
  have heod : microSteps .encode 1 s = .next (standWrite .encEnd (codeAt s.tree 256).toBits s) := by
    rw [microSteps_succ]
    · rfl
    · rw [exec_encode_encByte s hat.pp, performReadBits_eod hin, hat.rk, encodeEod_zero hne]
      rfl
  obtain ⟨t, hrun, hbits, -, hresult, hstatus, hinp, hfreq, htree⟩ :=
    microSteps_write_completes (s := standWrite .encEnd (codeAt s.tree 256).toBits s)
      (r := some s.eng.work.cnt) exec_encode_encEnd (fun _ => rfl) rfl rfl hne hat.room hat.tail
  exact ⟨t, (microSteps_add heod).trans hrun, hbits, hinp, hresult, hstatus, hfreq, htree⟩

/-- The state in which `ENCODE` stands at its first byte. -/
def encodeFirst (s : State) : State := standRead .encByte (s.setWork { s.eng.work with cnt := 0 })

/-- Where the first `ReadBit` does not block, the run of `ENCODE` is the run from the state in which it stands there. -/
theorem microSteps_encode_start {n : Nat} (hpp : s.eng.pp = .start) (ht : s.tree.valid = true) (hin : ¬ s.inp.starved)
    (hn : 1 ≤ n) : microSteps .encode n s = microSteps .encode n (encodeFirst s) := by
  obtain ⟨n, rfl⟩ := Nat.exists_eq_add_of_le' hn
  exact microSteps_start (exec_encode_start s hpp ht) (exec_encode_encByte (encodeFirst s) rfl)
    (performReadBits_ne_blocked hin)

/-- Settles O42: the bytes' codes by `microSteps_encode_bytes`, then `EOD` and the terminator by `microSteps_encode_end`. -/
theorem encodeWritesTheBody : Obligations.EncodeWritesTheBody := by
  intro s bytes hpp htree hin hended hcodes hne hz hroom
  have hlen : (bodyBits s.tree bytes).length = (codeBits s.tree bytes).length + (codeAt s.tree 256).toBits.length := by
    rw [bodyBits_eq, List.length_append]
  obtain ⟨u, hrun, hat, hu⟩ :=
    microSteps_encode_bytes bytes (encodeFirst s) ⟨rfl, rfl, rfl, hz, hlen ▸ hroom⟩ hin hcodes
  have hempty : inBits u.inp = [] := List.self_eq_append_right.mp (hin.symm.trans hu.inBits)
  have htreeu : u.tree = s.tree := hu.tree
  rw [← htreeu] at hat hne
  obtain ⟨t, hend, hout, hinp, hresult, hstatus, hfreq, htreet⟩ :=
    microSteps_encode_end hat ⟨hempty, hu.ended.trans hended⟩ hne
  rw [htreeu] at hend hout
  have hnot : ¬ s.inp.starved := fun h => absurd (hended.symm.trans h.2) (by decide)
  have hsteps : 8 * bytes.length + 1 + (bodyBits s.tree bytes).length =
      8 * bytes.length + (codeBits s.tree bytes).length + (1 + (codeAt s.tree 256).toBits.length) := by omega
  have hwhole : microSteps .encode (8 * bytes.length + 1 + (bodyBits s.tree bytes).length) s = .next t := by
    rw [microSteps_encode_start hpp htree hnot (by omega), hsteps]
    exact (microSteps_add hrun).trans hend
  refine ⟨t, hwhole, ?_, hinp ▸ hempty, hresult.trans (hu.cnt.trans (BitVec.zero_add _)), ?_, hfreq.trans hu.freq,
    htreet.trans htreeu, microSteps_engineKeeps hwhole⟩
  · rw [hout, hu.outBits, bodyBits_eq, List.append_assoc]
    rfl
  · rw [hstatus, hu.status]
    rfl

end Sys2Proof.Machine
end

/-! ## DECODE_SYM and DECODE (45_decode.md) -/

section
namespace Sys2Proof.Machine

variable {s : State}

/-! ### How a walk ends (R280, R282, R285) -/

theorem walkBit_leaf {p : ProgPoint} {k : Symbol → State → Flow} {b : Bool} {l r : NodeIx} {y : Symbol}
    (hn : s.tree.nodes.get s.eng.work.cur = .int l r) (hy : s.tree.nodes.get (if b then r else l) = .leaf y) :
    walkBit p k b s = k y (s.setWork { s.eng.work with cur := if b then r else l }) := by
  unfold walkBit
  rw [hn]
  exact walkLoop_leaf (s := s.setWork { s.eng.work with cur := if b then r else l }) hy

/-- The bit that leads to a leaf goes on with the leaf's symbol. -/
theorem performRead_walkBit_leaf {p : ProgPoint} {k : Symbol → State → Flow} {onEod : State → Flow} {b : Bool} {c : InChan}
    {l r : NodeIx} {y : Symbol} (hn : s.tree.nodes.get s.eng.work.cur = .int l r) (hc : readBit s.inp = .bit b c)
    (hy : s.tree.nodes.get (if b then r else l) = .leaf y) :
    performRead (walkBit p k) onEod s =
      (k y ((s.setInp c).setWork { s.eng.work with cur := if b then r else l })).toMicro := by
  rw [performRead_bit hc, walkBit_leaf (s := s.setInp c) hn hy]
  rfl

theorem decodeSymbol_sentinel (s : State) : decodeSymbol sentinel s = finish (some s.eng.work.cnt) s := if_pos rfl

theorem toNat_ofNat_symbol (y : Symbol) : (BitVec.ofNat 32 y.val).toNat = y.val :=
  Nat.mod_eq_of_lt (y.isLt.trans (by decide))

/-- Settles O46: the step to a leaf goes on with its symbol, which `DECODE` at the sentinel and `DECODE_SYM` at any symbol
complete with, and `EOD` is the error end of the walk. -/
theorem decodeWalkEnds : Obligations.DecodeWalkEnds := by
  refine fun s l r hn => ⟨fun b c hc hpp hy => ?_, fun b c y hc hpp hy => ?_, fun hin => ⟨fun hpp => ?_, fun hpp => ?_⟩⟩
  · have hrun := exec_decode_decWalk s hpp
    rw [performRead_walkBit_leaf hn hc hy, decodeSymbol_sentinel] at hrun
    exact ⟨_, hrun, rfl, rfl, rfl, rfl, rfl, rfl, exec_engineKeeps hrun⟩
  · have hrun := exec_decodeSym_dsymWalk s hpp
    rw [performRead_walkBit_leaf hn hc hy] at hrun
    exact ⟨_, hrun, rfl, toNat_ofNat_symbol y, rfl, rfl, rfl, rfl, exec_engineKeeps hrun⟩
  · rw [exec_decode_decWalk s hpp, performRead_eod hin]
    rfl
  · rw [exec_decodeSym_dsymWalk s hpp, performRead_eod hin]
    rfl

/-! ### One code (R282, R285) -/

/-- The state that stands at the first `ReadBit` of `WalkOne` (R282). -/
def standWalk (p : ProgPoint) (s : State) : State := (s.setWork { s.eng.work with cur := s.tree.root }).setPp p

@[simp] theorem standWalk_status (p : ProgPoint) (s : State) : (standWalk p s).status = s.status := rfl
@[simp] theorem standWalk_inp (p : ProgPoint) (s : State) : (standWalk p s).inp = s.inp := rfl
@[simp] theorem standWalk_out (p : ProgPoint) (s : State) : (standWalk p s).out = s.out := rfl
@[simp] theorem standWalk_freq (p : ProgPoint) (s : State) : (standWalk p s).freq = s.freq := rfl
@[simp] theorem standWalk_tree (p : ProgPoint) (s : State) : (standWalk p s).tree = s.tree := rfl
@[simp] theorem standWalk_cnt (p : ProgPoint) (s : State) : (standWalk p s).eng.work.cnt = s.eng.work.cnt := rfl

/-- The state in which a walk has ended at the node `x`, with the channel that leaves. -/
def walked (c : InChan) (x : NodeIx) (s : State) : State := (s.setInp c).setWork { s.eng.work with cur := x }

@[simp] theorem walked_status (c : InChan) (x : NodeIx) (s : State) : (walked c x s).status = s.status := rfl
@[simp] theorem walked_inp (c : InChan) (x : NodeIx) (s : State) : (walked c x s).inp = c := rfl
@[simp] theorem walked_out (c : InChan) (x : NodeIx) (s : State) : (walked c x s).out = s.out := rfl
@[simp] theorem walked_freq (c : InChan) (x : NodeIx) (s : State) : (walked c x s).freq = s.freq := rfl
@[simp] theorem walked_tree (c : InChan) (x : NodeIx) (s : State) : (walked c x s).tree = s.tree := rfl
@[simp] theorem walked_cnt (c : InChan) (x : NodeIx) (s : State) : (walked c x s).eng.work.cnt = s.eng.work.cnt := rfl

theorem walkOne_int {p : ProgPoint} {k : Symbol → State → Flow} {l r : NodeIx}
    (hn : s.tree.nodes.get s.tree.root = .int l r) : walkOne p k s = .atPrimitive (standWalk p s) :=
  walkLoop_int (s := s.setWork { s.eng.work with cur := s.tree.root }) hn

/-- Where the first `ReadBit` does not block, the run of `DECODE_SYM` is the run from the state in which it stands there. -/
theorem microSteps_decodeSym_start {n : Nat} {l r : NodeIx} (hpp : s.eng.pp = .start) (ht : s.tree.valid = true)
    (hn : s.tree.nodes.get s.tree.root = .int l r) (hin : ¬ s.inp.starved) (hpos : 1 ≤ n) :
    microSteps .decodeSym n s = microSteps .decodeSym n (standWalk .dsymWalk s) := by
  obtain ⟨n, rfl⟩ := Nat.exists_eq_add_of_le' hpos
  exact microSteps_start (exec_decodeSym_start s hpp ht hn) (exec_decodeSym_dsymWalk (standWalk .dsymWalk s) rfl)
    (performRead_ne_blocked hin)

/-- The root of a tree held is an internal node, where the tree's is. -/
theorem Shape.fits.root_int {nodes : Vector Node 513} {sh : Shape} (hf : sh.fits nodes) (hint : sh.isInt = true) :
    ∃ l r, nodes.get sh.root = .int l r :=
  Node.exists_int ((Shape.fits_isInt hf).trans hint)

/-- Settles O44: `microSteps_walk` along the code, whose last bit completes `DECODE_SYM` with the leaf's symbol. -/
theorem decodeSymReadsOneCode : Obligations.DecodeSymReadsOneCode := by
  intro s sh c rest hpp ht hfits hroot hint hc hin
  have hne : c.2 ≠ [] := Shape.code_ne_nil hint c hc
  obtain ⟨l, r, hn⟩ := hfits.root_int hint
  rw [hroot] at hn
  obtain ⟨ch, x, hrest, -, hbits, hrun⟩ := microSteps_walk exec_decodeSym_dsymWalk sh c rest (standWalk .dsymWalk s) rfl
    hroot.symm hfits hint hc hin
  have hwhole := (microSteps_decodeSym_start hpp ht hn (not_starved hin hne) (List.length_pos_of_ne_nil hne)).trans
    (hrun (complete (some (BitVec.ofNat 32 c.1.val)) (walked ch x (standWalk .dsymWalk s))) rfl)
  refine ⟨_, hwhole, ?_, ?_, ?_, ?_, ?_, ?_, ?_, microSteps_engineKeeps hwhole⟩ <;>
    simp [hrest, hbits, Status.completed]

/-! ### A whole body (R280, R287) -/

/-- A tree memory that holds a tree with its codes: the tree, with each code of the table as the path of its leaf. -/
theorem HoldsTree.exists_shape {t : TreeMem} (h : HoldsTree t) :
    ∃ sh : Shape, sh.fits t.nodes ∧ sh.root = t.root ∧ sh.isInt = true ∧
      ∀ y : Symbol, (codeAt t y.val).valid = true → (y, (codeAt t y.val).toBits) ∈ sh.codes := by
  obtain ⟨sh, hok, hcodes⟩ := h
  refine ⟨sh, hok.fits, hok.root, hok.internal, fun y hy => ?_⟩
  obtain ⟨c, hc, rfl⟩ := hcodes.mem_of_valid hy
  rwa [(hcodes.code_of_mem hok.leaves.2 c hc).2]

theorem HoldsTree.root_int {t : TreeMem} (h : HoldsTree t) : ∃ l r, t.nodes.get t.root = .int l r := by
  obtain ⟨sh, hfits, hroot, hint, -⟩ := h.exists_shape
  rw [← hroot]
  exact hfits.root_int hint

/-- The sentinel has a code (42_tree_build.md R223). -/
theorem HoldsTree.sentinel_valid {t : TreeMem} (h : HoldsTree t) : (codeAt t sentinel.val).valid = true := by
  obtain ⟨sh, hok, hcodes⟩ := h
  obtain ⟨c, hc, he⟩ := Shape.mem_symbols.mp hok.hasSentinel
  rw [← he]
  exact (hcodes.code_of_mem hok.leaves.2 c hc).1

theorem HoldsTree.sentinel_code_ne_nil {t : TreeMem} (h : HoldsTree t) : (codeAt t sentinel.val).toBits ≠ [] := by
  obtain ⟨sh, -, -, hint, hmem⟩ := h.exists_shape
  exact Shape.code_ne_nil hint _ (hmem sentinel h.sentinel_valid)

/-- In a tree memory that holds a tree with its codes, a walk from the root over the code of a symbol takes one micro-step
for each bit, and after the last one `k` goes on with the symbol. -/
theorem microSteps_walk_code {i : Instr} {p : ProgPoint} {k : Symbol → State → Flow} {y : Symbol} {rest : List Bool}
    (hexec : ∀ s, s.eng.pp = p → exec i s = (performRead (walkBit p k) (fail .truncated) s).outcome s)
    (hpp : s.eng.pp = p) (hcur : s.eng.work.cur = s.tree.root) (ht : HoldsTree s.tree)
    (hy : (codeAt s.tree y.val).valid = true) (hin : inBits s.inp = (codeAt s.tree y.val).toBits ++ rest) :
    ∃ (ch : InChan) (x : NodeIx), inBits ch = rest ∧
      ∀ t, (k y (walked ch x s)).toMicro = .ran t →
        microSteps i (codeAt s.tree y.val).toBits.length s = .next t := by
  obtain ⟨sh, hfits, hroot, hint, hmem⟩ := ht.exists_shape
  obtain ⟨ch, x, hrest, -, -, hrun⟩ :=
    microSteps_walk hexec sh _ rest s hpp (hcur.trans hroot.symm) hfits hint (hmem y hy) hin
  exact ⟨ch, x, hrest, hrun⟩

theorem byteSymbol_ne_sentinel (b : Byte) : byteSymbol b ≠ sentinel :=
  fun h => absurd (congrArg Fin.val h) (Nat.ne_of_lt b.isLt)

theorem decodeSymbol_byteSymbol (b : Byte) (s : State) :
    decodeSymbol (byteSymbol b) s = .atPrimitive (standWrite .decByte (bitsMsb 8 b) s) := by
  have hb : BitVec.ofNat 8 (byteSymbol b).val = b := by simp [byteSymbol]
  unfold decodeSymbol
  rw [if_neg (byteSymbol_ne_sentinel b), hb, beginWrite_some (bitsMsb_ne_nil b (by decide))]

/-- `DECODE` stands at the root of a tree held with its codes, and has room for `m` more bits. -/
structure AtDecodeRoot (m : Nat) (s : State) : Prop where
  pp : s.eng.pp = .decWalk
  cur : s.eng.work.cur = s.tree.root
  held : HoldsTree s.tree
  tail : s.out.tailZero
  room : s.out.hasRoom s.params.outDepth m

/-- From `s` to `t` `DECODE` has read the codes of `bytes` and written the bytes. -/
structure Decoded (bytes : List Byte) (s t : State) : Prop where
  outBits : outBits t.out = outBits s.out ++ bytes.flatMap (bitsMsb 8)
  cnt : t.eng.work.cnt = s.eng.work.cnt + BitVec.ofNat 32 bytes.length
  inBits : inBits s.inp = codeBits s.tree bytes ++ inBits t.inp
  status : t.status = s.status
  freq : t.freq = s.freq
  tree : t.tree = s.tree

theorem Decoded.refl (s : State) : Decoded [] s s where
  outBits := (List.append_nil _).symm
  cnt := (BitVec.add_zero _).symm
  inBits := rfl
  status := rfl
  freq := rfl
  tree := rfl

theorem Decoded.append {xs ys : List Byte} {u t : State} (h : Decoded xs s u) (g : Decoded ys u t) :
    Decoded (xs ++ ys) s t where
  outBits := by rw [g.outBits, h.outBits, List.flatMap_append, List.append_assoc]
  cnt := by rw [g.cnt, h.cnt, List.length_append, BitVec.ofNat_add, BitVec.add_assoc]
  inBits := by rw [h.inBits, g.inBits, h.tree, codeBits_append, List.append_assoc]
  status := g.status.trans h.status
  freq := g.freq.trans h.freq
  tree := g.tree.trans h.tree

/-- The state in which `DECODE` has counted a byte and stands at the root again. -/
def decodeNextRoot (s : State) : State := standWalk .decWalk (s.setWork { s.eng.work with cnt := s.eng.work.cnt + 1 })

theorem atDecodeRoot_standWalk {m : Nat} (held : HoldsTree s.tree) (tail : s.out.tailZero)
    (room : s.out.hasRoom s.params.outDepth m) : AtDecodeRoot m (standWalk .decWalk s) :=
  ⟨rfl, rfl, held, tail, room⟩

theorem decodeNext_eq {l r : NodeIx} (hn : s.tree.nodes.get s.tree.root = .int l r) :
    decodeNext s = .atPrimitive (decodeNextRoot s) :=
  walkOne_int (s := s.setWork { s.eng.work with cnt := s.eng.work.cnt + 1 }) hn

/-- The code of a byte is read in one micro-step a bit, up to the first bit of the byte written. -/
theorem microSteps_decode_readCode {b : Byte} {rest : List Bool} {m : Nat} (hat : AtDecodeRoot m s)
    (hv : (codeAt s.tree b.toNat).valid = true) (hin : inBits s.inp = (codeAt s.tree b.toNat).toBits ++ rest) :
    ∃ c x, inBits c = rest ∧ microSteps .decode (codeAt s.tree b.toNat).toBits.length s =
      .next (standWrite .decByte (bitsMsb 8 b) (walked c x s)) := by
  obtain ⟨c, x, hrest, hwalk⟩ :=
    microSteps_walk_code (y := byteSymbol b) exec_decode_decWalk hat.pp hat.cur hat.held hv hin
  exact ⟨c, x, hrest, hwalk _ (congrArg Flow.toMicro (decodeSymbol_byteSymbol b _))⟩

/-- The code of a byte is read in one micro-step a bit, and the byte written in eight. -/
theorem microSteps_decode_byte {b : Byte} {rest : List Bool} {m : Nat} (hat : AtDecodeRoot (8 + m) s)
    (hv : (codeAt s.tree b.toNat).valid = true) (hin : inBits s.inp = (codeAt s.tree b.toNat).toBits ++ rest) :
    ∃ t, microSteps .decode ((codeAt s.tree b.toNat).toBits.length + 8) s = .next t ∧ AtDecodeRoot m t ∧
      Decoded [b] s t := by
  obtain ⟨l, r, hn⟩ := hat.held.root_int
  obtain ⟨c, x, hrest, hread⟩ := microSteps_decode_readCode hat hv hin
  obtain ⟨o, hbits, htail, hroom, -, hwrite⟩ := microSteps_write exec_decode_decByte m (bitsMsb 8 b)
    (standWrite .decByte (bitsMsb 8 b) (walked c x s)) rfl rfl (bitsMsb_ne_nil b (by decide))
    (by rw [bitsMsb_length]; exact hat.room) hat.tail
  have hwritten := hwrite (decodeNextRoot (writeNext o [] (standWrite .decByte (bitsMsb 8 b) (walked c x s))))
    (congrArg Flow.toMicro (decodeNext_eq (by simpa using hn)))
  rw [bitsMsb_length] at hwritten
  refine ⟨_, (microSteps_add hread).trans hwritten, atDecodeRoot_standWalk (by simpa using hat.held) (by simpa using htail)
    (by simpa using hroom), ?_⟩
  exact {
    outBits := by simpa [decodeNextRoot] using hbits
    cnt := by simp [decodeNextRoot]
    inBits := by simp [decodeNextRoot, hin, hrest, codeBits_singleton]
    status := by simp [decodeNextRoot]
    freq := by simp [decodeNextRoot]
    tree := by simp [decodeNextRoot] }

/-- Bytes whose codes are there are decoded in one micro-step for each bit of their codes and eight for each byte. -/
theorem microSteps_decode_bytes {m : Nat} {rest : List Bool} : ∀ (bytes : List Byte) (s : State),
    AtDecodeRoot (8 * bytes.length + m) s → (∀ b ∈ bytes, (codeAt s.tree b.toNat).valid = true) →
    inBits s.inp = codeBits s.tree bytes ++ rest →
    ∃ t, microSteps .decode ((codeBits s.tree bytes).length + 8 * bytes.length) s = .next t ∧ AtDecodeRoot m t ∧
      Decoded bytes s t
  | [], s, hat, _, _ => ⟨s, rfl, by simpa using hat, Decoded.refl s⟩
  | b :: bs, s, hat, hcodes, hin => by
    have hsplit : codeBits s.tree (b :: bs) = (codeAt s.tree b.toNat).toBits ++ codeBits s.tree bs := rfl
    have hbits : 8 * (b :: bs).length + m = 8 + (8 * bs.length + m) := by
      rw [List.length_cons]
      omega
    have hsteps : (codeBits s.tree (b :: bs)).length + 8 * (b :: bs).length =
        (codeAt s.tree b.toNat).toBits.length + 8 + ((codeBits s.tree bs).length + 8 * bs.length) := by
      rw [hsplit, List.length_append, List.length_cons]
      omega
    rw [hbits] at hat
    rw [hsplit, List.append_assoc] at hin
    obtain ⟨u, hbyte, hatu, hu⟩ := microSteps_decode_byte hat (hcodes b List.mem_cons_self) hin
    have hinu := hu.inBits
    rw [hin, codeBits_singleton] at hinu
    obtain ⟨t, hbytes, hatt, ht⟩ := microSteps_decode_bytes bs u hatu
      (by rw [hu.tree]; exact fun x hx => hcodes x (List.mem_cons_of_mem b hx))
      (by rw [hu.tree]; exact (List.append_cancel_left hinu).symm)
    rw [hu.tree] at hbytes
    refine ⟨t, ?_, hatt, hu.append ht⟩
    rw [hsteps, microSteps_add hbyte, hbytes]

/-- The sentinel's code is read in one micro-step a bit, the last completing `DECODE` with the count. -/
theorem microSteps_decode_end {rest : List Bool} {m : Nat} (hat : AtDecodeRoot m s)
    (hin : inBits s.inp = (codeAt s.tree sentinel.val).toBits ++ rest) :
    ∃ t, microSteps .decode (codeAt s.tree sentinel.val).toBits.length s = .next t ∧ inBits t.inp = rest ∧ t.out = s.out ∧
      t.result = s.eng.work.cnt ∧ t.status = s.status.completed ∧ t.freq = s.freq ∧ t.tree = s.tree := by
  obtain ⟨ch, x, hrest, hwalk⟩ :=
    microSteps_walk_code exec_decode_decWalk hat.pp hat.cur hat.held hat.held.sentinel_valid hin
  refine ⟨_, hwalk _ (congrArg Flow.toMicro (decodeSymbol_sentinel _)), ?_, ?_, ?_, ?_, ?_, ?_⟩ <;>
    simp [hrest, Status.completed]

/-- A whole body that is there is decoded from the root: its bytes, and then the sentinel. -/
theorem microSteps_decode_body {bytes : List Byte} {rest : List Bool} (hat : AtDecodeRoot (8 * bytes.length) s)
    (hcodes : ∀ b ∈ bytes, (codeAt s.tree b.toNat).valid = true)
    (hin : inBits s.inp = bodyBits s.tree bytes ++ rest) :
    ∃ t, microSteps .decode ((bodyBits s.tree bytes).length + 8 * bytes.length) s = .next t ∧ inBits t.inp = rest ∧
      outBits t.out = outBits s.out ++ bytes.flatMap (bitsMsb 8) ∧
      t.result = s.eng.work.cnt + BitVec.ofNat 32 bytes.length ∧ t.status = s.status.completed ∧ t.freq = s.freq ∧
      t.tree = s.tree := by
  have hbody : bodyBits s.tree bytes = codeBits s.tree bytes ++ (codeAt s.tree sentinel.val).toBits := bodyBits_eq _ _
  have hsteps : (bodyBits s.tree bytes).length + 8 * bytes.length =
      (codeBits s.tree bytes).length + 8 * bytes.length + (codeAt s.tree sentinel.val).toBits.length := by
    rw [hbody, List.length_append]
    omega
  rw [hbody, List.append_assoc] at hin
  obtain ⟨u, hrun, hatu, hu⟩ := microSteps_decode_bytes (m := 0) bytes s hat hcodes hin
  have hinu : inBits u.inp = (codeAt u.tree sentinel.val).toBits ++ rest := by
    rw [hu.tree]
    exact (List.append_cancel_left (hin.symm.trans hu.inBits)).symm
  obtain ⟨t, hlast, hrest, hout, hresult, hstatus, hfreq, htree⟩ := microSteps_decode_end hatu hinu
  rw [hu.tree] at hlast
  refine ⟨t, ?_, hrest, ?_, hresult.trans hu.cnt, ?_, hfreq.trans hu.freq, htree.trans hu.tree⟩
  · rw [hsteps, microSteps_add hrun, hlast]
  · rw [hout, hu.outBits]
  · rw [hstatus, hu.status]

/-- The state in which `DECODE` stands at the root, with no byte counted yet. -/
def decodeFirst (s : State) : State := standWalk .decWalk (s.setWork { s.eng.work with cnt := 0 })

/-- Where the first `ReadBit` does not block, the run of `DECODE` is the run from the state in which it stands there. -/
theorem microSteps_decode_start {n : Nat} (hpp : s.eng.pp = .start) (hv : s.tree.valid = true) (ht : HoldsTree s.tree)
    (hin : ¬ s.inp.starved) (hpos : 1 ≤ n) : microSteps .decode n s = microSteps .decode n (decodeFirst s) := by
  obtain ⟨l, r, hn⟩ := ht.root_int
  obtain ⟨n, rfl⟩ := Nat.exists_eq_add_of_le' hpos
  exact microSteps_start (exec_decode_start s hpp hv hn) (exec_decode_decWalk (decodeFirst s) rfl)
    (performRead_ne_blocked hin)

/-- Settles O45: the run from the root is the one of `microSteps_decode_body`, and a body is not empty, since it ends with
the sentinel's code. -/
theorem decodeInvertsTheBody : Obligations.DecodeInvertsTheBody := by
  intro s bytes rest hpp hv ht hcodes hin hz hroom
  have hne : bodyBits s.tree bytes ≠ [] := List.append_ne_nil_of_right_ne_nil _ ht.sentinel_code_ne_nil
  have hpos : 1 ≤ (bodyBits s.tree bytes).length + 8 * bytes.length :=
    Nat.le_add_right_of_le (List.length_pos_of_ne_nil hne)
  obtain ⟨t, hrun, hrest, hout, hresult, hstatus, hfreq, htree⟩ :=
    microSteps_decode_body (s := decodeFirst s) (atDecodeRoot_standWalk ht hz hroom) hcodes hin
  have hwhole : microSteps .decode ((bodyBits s.tree bytes).length + 8 * bytes.length) s = .next t :=
    (microSteps_decode_start hpp hv ht (not_starved hin hne) hpos).trans hrun
  exact ⟨t, hwhole, hrest, hout, hresult.trans (BitVec.zero_add _), hstatus, hfreq, htree, microSteps_engineKeeps hwhole⟩

end Sys2Proof.Machine
end

/-! ## Bit I/O and the container's magic number (46_bitio.md) -/

section
namespace Sys2Proof.Machine

variable {s : State}

/-! ### Writing a field (R300, R308; 20_memory.md R105) -/

/-- A command that in its first micro-step stands at the low `n` bits of `v` and completes after the last of them appends
them, one micro-step for each, where `OUT` has room. -/
theorem microSteps_writes_field {i : Instr} {p : ProgPoint} {n : Nat} {v : Word}
    (hfirst : exec i s = (performWrite (finish none) (standWrite p (bitsMsb n v) s)).outcome s)
    (hlater : ∀ u, u.eng.pp = p → exec i u = (performWrite (finish none) u).outcome u) (hpos : 1 ≤ n)
    (hz : s.out.tailZero) (hroom : s.out.hasRoom s.params.outDepth n) :
    ∃ t, microSteps i n s = .next t ∧ outBits t.out = outBits s.out ++ bitsMsb n v ∧
      t.out.bitsOut = s.out.bitsOut + BitVec.ofNat 32 n ∧ t.result = s.result ∧ t.status = s.status.completed ∧
      t.inp = s.inp ∧ t.freq = s.freq ∧ t.tree = s.tree ∧ EngineKeeps s t := by
  have hlen : (bitsMsb n v).length = n := bitsMsb_length n v
  obtain ⟨t, hrun, hbits, hcount, hresult, hstatus, hinp, hfreq, htree⟩ :=
    microSteps_write_completes (s := standWrite p (bitsMsb n v) s) (bits := bitsMsb n v) (r := none) hlater
      (fun _ => rfl) rfl rfl (bitsMsb_ne_nil v hpos) (hlen.symm ▸ hroom) hz
  rw [hlen] at hrun hcount
  have hstart : microSteps i n s = microSteps i n (standWrite p (bitsMsb n v) s) := by
    obtain ⟨m, rfl⟩ := Nat.exists_eq_add_of_le' hpos
    exact microSteps_start hfirst (hlater (standWrite p _ s) rfl) (performWrite_ne_blocked (hroom.mono hpos))
  have hwhole : microSteps i n s = .next t := hstart.trans hrun
  exact ⟨t, hwhole, hbits, hcount, hresult, hstatus, hinp, hfreq, htree, microSteps_engineKeeps hwhole⟩

/-- Settles O48: the two commands write their field by `microSteps_writes_field`. -/
theorem putBitsAndMagicWriteTheirField : Obligations.PutBitsAndMagicWriteTheirField :=
  ⟨fun s nm1 hpp => microSteps_writes_field (exec_putBits_start nm1 s hpp) (exec_putBits_putBit nm1) (Nat.succ_pos _),
    fun s hpp => microSteps_writes_field (exec_magicWrite_start s hpp) exec_magicWrite_magicOut (by decide)⟩

/-! ### Reading a field (R302, R310; 20_memory.md R102) -/

/-- The state in which a command at `p` has read a field of `n` bits with the value `v`. -/
def fieldRead (p : ProgPoint) (n : Nat) (v : Word) (c : InChan) (s : State) : State :=
  ((standRead p s).setInp c).setWork { s.eng.work with rk := n, rv := v }

/-- A command whose first primitive is a `ReadBits(n)` reads n bits that are there, one micro-step for each, and goes on
with their value. -/
theorem microSteps_reads_field {i : Instr} {p : ProgPoint} {n : Nat} {done : Word → State → Flow}
    {eod : Nat → State → Flow} {bits rest : List Bool}
    (hfirst : exec i s = (performReadBits n done eod (standRead p s)).outcome s)
    (hlater : ∀ u, u.eng.pp = p → exec i u = (performReadBits n done eod u).outcome u)
    (hin : inBits s.inp = bits ++ rest) (hlen : bits.length = n) (hne : bits ≠ []) :
    ∃ c, inBits c = rest ∧ c.bitsIn = s.inp.bitsIn + BitVec.ofNat 32 n ∧
      ∀ t, (done (wordOfBits bits) (fieldRead p n (wordOfBits bits) c s)).toMicro = .ran t →
        microSteps i n s = .next t := by
  obtain ⟨c, hrest, -, hcount, u, rfl, hrun⟩ :=
    microSteps_read hlater bits rest (standRead p s) rfl hin hne ((Nat.zero_add _).trans hlen)
  rw [hlen] at hcount hrun
  have hstart : microSteps i n s = microSteps i n (standRead p s) := by
    obtain ⟨m, rfl⟩ := Nat.exists_eq_add_of_le' (hlen ▸ List.length_pos_of_ne_nil hne)
    exact microSteps_start hfirst (hlater (standRead p s) rfl) (performReadBits_ne_blocked (not_starved hin hne))
  exact ⟨c, hrest, hcount, fun t ht => hstart.trans (hrun t ht)⟩

/-- A value read has the bits read, whatever the form of their number. -/
theorem bitsMsb_wordOfBits_of_length {n : Nat} {bits : List Bool} (hlen : bits.length = n) (hn : n ≤ 32) :
    bitsMsb n (wordOfBits bits) = bits := by
  subst hlen
  exact bitsMsb_wordOfBits bits hn

/-- Settles O50: the value read is the bits read with zeros above, by `bitsMsb_wordOfBits_of_length` and
`wordOfBits_high`. -/
theorem getBitsReadsItsField : Obligations.GetBitsReadsItsField := by
  intro s nm1 bits rest hpp hin hlen
  have hle : nm1.toNat + 1 ≤ 32 := nm1.isLt
  obtain ⟨c, hrest, hcount, hrun⟩ := microSteps_reads_field (exec_getBits_start nm1 s hpp) (exec_getBits_getBit nm1) hin
    hlen (List.ne_nil_of_length_eq_add_one hlen)
  have hwhole := hrun _ rfl
  have hhigh : ∀ j, nm1.toNat + 1 ≤ j → (wordOfBits bits).getLsbD j = false := by
    rw [← hlen] at hle ⊢
    exact wordOfBits_high bits hle
  exact ⟨_, hwhole, hrest, bitsMsb_wordOfBits_of_length hlen hle, hhigh, hcount, rfl, rfl, rfl, rfl,
    microSteps_engineKeeps hwhole⟩

/-! ### The comparison of `MAGIC_CHECK` (R310) -/

theorem magicCompare_magic {v : Word} (h : v = s.params.magic) : magicCompare v s = finish (some v) s := if_pos h

theorem magicCompare_other {v : Word} (h : v ≠ s.params.magic) :
    magicCompare v s = fail .badMagic (s.setResult v) := if_neg h

/-- 32 bits are those of a word exactly when the word is their value. -/
theorem eq_bitsMsb_iff_wordOfBits {bits : List Bool} (hlen : bits.length = 32) (v : Word) :
    bits = bitsMsb 32 v ↔ wordOfBits bits = v := by
  have hback : bitsMsb 32 (wordOfBits bits) = bits := bitsMsb_wordOfBits_of_length hlen le_rfl
  refine ⟨fun h => word_ext_bitsMsb (hback.trans h), ?_⟩
  rintro rfl
  exact hback.symm

/-- Settles O51: both branches of the comparison are reached after the 32 bits, with their value in RESULT. -/
theorem magicCheckComparesThirtyTwoBits : Obligations.MagicCheckComparesThirtyTwoBits := by
  intro s bits rest hpp hin hlen
  obtain ⟨c, hrest, -, hrun⟩ :=
    microSteps_reads_field (exec_magicCheck_start s hpp) exec_magicCheck_magicIn hin hlen
      (List.ne_nil_of_length_eq_add_one hlen)
  have hback : bitsMsb 32 (wordOfBits bits) = bits := bitsMsb_wordOfBits_of_length hlen le_rfl
  simp only [eq_bitsMsb_iff_wordOfBits hlen]
  by_cases hm : wordOfBits bits = s.params.magic
  · have hwhole := hrun (complete (some (wordOfBits bits)) (fieldRead .magicIn 32 (wordOfBits bits) c s))
      (by rw [magicCompare_magic (s := fieldRead .magicIn 32 (wordOfBits bits) c s) hm]; rfl)
    exact ⟨_, hwhole, hrest, hback, (if_pos hm).symm, rfl, rfl, rfl, microSteps_engineKeeps hwhole⟩
  · have hwhole := hrun
      (raiseError .badMagic ((fieldRead .magicIn 32 (wordOfBits bits) c s).setResult (wordOfBits bits)))
      (by rw [magicCompare_other (s := fieldRead .magicIn 32 (wordOfBits bits) c s) hm]; rfl)
    exact ⟨_, hwhole, hrest, hback, (if_neg hm).symm, rfl, rfl, rfl, microSteps_engineKeeps hwhole⟩

/-! ### The last bit of a field, and the end of the data before it (R302, R310) -/

theorem performReadBits_truncated {n : Nat} {done : Word → State → Flow} (h : s.inp.exhausted) :
    performReadBits n done (fun _ => fail .truncated) s = .ran (raiseError .truncated s) := performReadBits_eod h

/-- `EOD` in the first micro-step of a command that reads a field changes the flags, the program point and the count and
value of `ReadBits` alone. -/
theorem exec_first_truncated {i : Instr} {p : ProgPoint} {n : Nat} {done : Word → State → Flow}
    (hfirst : exec i s = (performReadBits n done (fun _ => fail .truncated) (standRead p s)).outcome s)
    (h : s.inp.exhausted) : exec i s = .next (raiseError .truncated (standRead p s)) := by
  rw [hfirst, performReadBits_truncated (s := standRead p s) h]
  rfl

/-- Settles O52: the last bit goes on to the completion or the comparison, and `EOD` is `performReadBits_truncated`. -/
theorem fieldReadersEnd : Obligations.FieldReadersEnd := by
  refine fun s => ⟨fun nm1 b c hpp hrk hc => ?_, fun b c hpp hrk hc hm => ?_,
    fun hin nm1 => ⟨fun hpp => ?_, fun hpp => ?_, fun hpp i hi => ?_⟩⟩
  · have hrun := exec_getBits_getBit nm1 s hpp
    rw [performReadBits_last hc (by rw [hrk, bitCount])] at hrun
    exact ⟨_, hrun, rfl, rfl, rfl, rfl, rfl, rfl, exec_engineKeeps hrun⟩
  · have hrun := exec_magicCheck_magicIn s hpp
    rw [performReadBits_last hc (by rw [hrk]), magicCompare_magic (s := readBitsNext b (s.setInp c)) hm] at hrun
    exact ⟨_, hrun, hm, rfl, rfl, rfl, rfl, rfl, exec_engineKeeps hrun⟩
  · rw [exec_getBits_getBit nm1 s hpp, performReadBits_truncated hin]
    rfl
  · rw [exec_magicCheck_magicIn s hpp, performReadBits_truncated hin]
    rfl
  · have hrun : ∃ p, exec i s = .next (raiseError .truncated (standRead p s)) := by
      rcases hi with rfl | rfl
      · exact ⟨_, exec_first_truncated (exec_getBits_start nm1 s hpp) hin⟩
      · exact ⟨_, exec_first_truncated (exec_magicCheck_start s hpp) hin⟩
    obtain ⟨p, hrun⟩ := hrun
    exact ⟨_, hrun, rfl, rfl, rfl, rfl, rfl, rfl, exec_engineKeeps hrun⟩

/-! ### FLUSH and ALIGN_IN (R304, R306) -/

/-- Where `FlushByte` does not block, `FLUSH` completes in its first micro-step. -/
theorem exec_flush_completes {p : Nat} {o : OutChan} (hpp : s.eng.pp = .start)
    (h : flushByte s.params.outDepth s.out = some (p, o)) :
    exec .flush s = .next (complete (some (BitVec.ofNat 32 p)) ((s.setPp .flushByte).setOut o)) := by
  have hperform : performFlush (s.setPp .flushByte) =
      .ran (complete (some (BitVec.ofNat 32 p)) ((s.setPp .flushByte).setOut o)) := by
    simp only [performFlush, State.setPp_params, State.setPp_out, h]
    rfl
  rw [exec_flush_start s hpp, hperform]
  rfl

theorem exec_alignIn_start (hpp : s.eng.pp = .start) :
    exec .alignIn s = .next (complete (some (BitVec.ofNat 32 s.inp.brCnt.val)) (s.setInp (alignIn s.inp))) :=
  runCommand_pure (needsTree := false)
    (enter := fun u => finish (some (BitVec.ofNat 32 u.inp.brCnt.val)) (u.setInp (alignIn u.inp))) hpp rfl (by simp) rfl

/-- Settles O53: `FLUSH` pads as `FlushByte` does by `writeBitAndFlushAppend`, and `ALIGN_IN` is its own first
micro-step. -/
theorem flushAndAlignComplete : Obligations.FlushAndAlignComplete := by
  refine ⟨fun s hpp hz hroom => ?_, fun s hpp => exec_alignIn_start hpp⟩
  obtain ⟨-, hblock, hpad⟩ := writeBitAndFlushAppend s.params.outDepth s.out hz
  cases hf : flushByte s.params.outDepth s.out with
  | none =>
    obtain ⟨hcnt, hfull⟩ := hblock.mp hf
    exact absurd hroom (not_or.mpr ⟨hcnt, not_not.mpr hfull⟩)
  | some r =>
    obtain ⟨p, o⟩ := r
    obtain ⟨hbits, hcount, hcnt, hp⟩ := hpad p o hf
    have hrun := exec_flush_completes hpp hf
    exact ⟨_, p, hrun, hp, rfl, hbits, Fin.ext hcnt, hcount, rfl, rfl, rfl, rfl, exec_engineKeeps hrun⟩

end Sys2Proof.Machine
end

/-! ## Tree and code inspection (47_inspect.md) -/

section
namespace Sys2Proof.Machine

variable {s : State}

/-! ### Completion in the first micro-step (R320, R322, R324) -/

theorem exec_nodeRead_start {node : BitVec 10} (hpp : s.eng.pp = .start) (ht : s.tree.valid = true)
    (hnode : node.toNat ≤ 512) :
    exec (.nodeRead node) s = .next (complete (some (nodeWord s.tree node)) s) :=
  runCommand_pure (needsTree := true) (enter := fun u => finish (some (nodeWord u.tree node)) u) hpp
    (decide_eq_true hnode) (fun _ => ht) rfl

theorem exec_codeLenRead_start {sym : BitVec 10} (hpp : s.eng.pp = .start) (ht : s.tree.valid = true)
    (hsym : sym.toNat ≤ 256) :
    exec (.codeLenRead sym) s = .next (complete (some (codeAt s.tree sym.toNat).lenWord) s) :=
  runCommand_pure (needsTree := true) (enter := fun u => finish (some (codeAt u.tree sym.toNat).lenWord) u) hpp
    (decide_eq_true hsym) (fun _ => ht) rfl

theorem exec_codeBitsRead_start {sym : BitVec 10} {w : BitVec 5} (hpp : s.eng.pp = .start) (ht : s.tree.valid = true)
    (hsym : sym.toNat ≤ 256) (hw : w.toNat ≤ 7) :
    exec (.codeBitsRead sym w) s = .next (complete (some ((codeAt s.tree sym.toNat).bitsWord w.toNat)) s) := by
  have hr : (Instr.codeBitsRead sym w).inRange = true :=
    Bool.and_eq_true_iff.mpr ⟨decide_eq_true hsym, decide_eq_true hw⟩
  exact runCommand_pure (needsTree := true)
    (enter := fun u => finish (some ((codeAt u.tree sym.toNat).bitsWord w.toNat)) u) hpp hr (fun _ => ht) rfl

/-! ### The packed node (R157) -/

theorem nodeWord_beyond {t : TreeMem} {node : BitVec 10} (h : t.count ≤ node) : nodeWord t node = 0 := if_pos h

theorem nodeWord_below {t : TreeMem} {node : BitVec 10} {x : NodeIx} (hx : x.val = node.toNat) (h : node < t.count) :
    nodeWord t node = (t.nodes.get x).pack := by
  unfold nodeWord
  rw [if_neg (BitVec.not_le.mpr h), ← hx, getElem?_eq_get]
  rfl

theorem Node.pack_leaf_toNat (sym : Symbol) : (Node.leaf sym).pack.toNat = 2 ^ 31 + sym.val := by
  have hsym := sym.isLt
  simp only [Node.pack, toNat_append_add, BitVec.toNat_ofNat]
  omega

theorem Node.pack_int_toNat (l r : NodeIx) : (Node.int l r).pack.toNat = 2 ^ 31 + 2 ^ 30 + 1024 * r.val + l.val := by
  have hl := l.isLt
  have hr := r.isLt
  simp only [Node.pack, NodeIx.field, toNat_append_add, BitVec.toNat_ofNat]
  omega

/-! ### The packed code (R158) -/

theorem CodeEntry.lenWord_len (e : CodeEntry) : e.lenWord.extractLsb' 0 9 = e.len :=
  BitVec.extractLsb'_append_eq_right

/-- Above the length stand 22 zeros and the presence bit. -/
theorem CodeEntry.lenWord_getLsbD_above (e : CodeEntry) (i : Nat) :
    e.lenWord.getLsbD (9 + i) = if i < 22 then false else (BitVec.ofBool e.valid).getLsbD (i - 22) := by
  have hhead : e.lenWord.getLsbD (9 + i) = (BitVec.ofBool e.valid ++ 0#22).getLsbD i := by
    refine BitVec.getLsbD_append.trans ?_
    simp
  rw [hhead, BitVec.getLsbD_append, BitVec.getLsbD_zero]

theorem CodeEntry.lenWord_valid (e : CodeEntry) : e.lenWord.getLsbD 31 = e.valid :=
  (e.lenWord_getLsbD_above 22).trans (by simp)

theorem CodeEntry.lenWord_middle (e : CodeEntry) : e.lenWord.extractLsb' 9 22 = 0#22 := by
  ext i hi
  simp [e.lenWord_getLsbD_above, hi]

/-- Bit `31 - j` of the packed word is entry `j` of the big-endian bit list it is made from. -/
theorem CodeEntry.bitsWord_getLsbD (e : CodeEntry) (w : Nat) {j : Nat} (hj : j < 32) :
    (e.bitsWord w).getLsbD (31 - j) = if 32 * w + j < e.len.toNat then e.bits.getLsbD (32 * w + j) else false := by
  have hback : 31 - (31 - j) = j := by omega
  have hlt : 31 - j < 32 := by omega
  simp [CodeEntry.bitsWord, hback, hlt]

/-- Settles O54: each command completes in its first micro-step with its packed word, whose fields the lemmas above read. -/
theorem inspectionCommandsPackTheirResult : Obligations.InspectionCommandsPackTheirResult := by
  refine fun s hpp ht => ⟨fun node hnode => ?_, fun sym hsym => ?_, fun sym hsym w hw => ?_⟩
  · refine ⟨_, exec_nodeRead_start hpp ht hnode, nodeWord_beyond, fun x hx hlt => ?_⟩
    rw [nodeWord_below hx hlt]
    refine ⟨fun sym hleaf => ?_, fun l r hint => ?_⟩
    · rw [hleaf, Node.pack_leaf_toNat]
    · rw [hint, Node.pack_int_toNat]
  · rw [getElem_codes_eq_codeAt]
    exact ⟨_, exec_codeLenRead_start hpp ht (Nat.le_of_lt_succ hsym), CodeEntry.lenWord_valid _, CodeEntry.lenWord_len _,
      CodeEntry.lenWord_middle _⟩
  · rw [getElem_codes_eq_codeAt]
    exact ⟨_, exec_codeBitsRead_start hpp ht (Nat.le_of_lt_succ hsym) hw, fun j hj => CodeEntry.bitsWord_getLsbD _ _ hj⟩

end Sys2Proof.Machine
end

/-! ## Errors and the interrupt (60_exceptions.md) -/

section
namespace Sys2Proof.Machine

/-! ### No tree (R341) -/

theorem runCommand_noTree {enter : State → Flow} {perform : State → Micro} {s : State} (hpp : s.eng.pp = .start)
    (ht : s.tree.valid = false) : runCommand true true enter perform s = .next (raiseError .noTree s) := by
  simp [runCommand, hpp, ht]

/-- The check for a tree follows the range check in the first micro-step (40_command_protocol.md R183). -/
theorem exec_noTree {i : Instr} {s : State} (hn : needsTree i = true) (hpp : s.eng.pp = .start) (hi : i.WellFormed)
    (ht : s.tree.valid = false) : exec i s = .next (raiseError .noTree s) := by
  obtain ⟨enter, perform, h⟩ := exec_runCommand i
  rw [h, hi, hn, runCommand_noTree hpp ht]

/-- Settles O9: every command is a `runCommand` that makes the common checks, and the operand passes the first of them. -/
theorem treeCommandsRaiseNoTree : Obligations.TreeCommandsRaiseNoTree := by
  intro i s hn hpp hi ht
  rw [exec_noTree hn hpp hi ht, raiseError_eq_failed]

/-! ### What an error records (R345) -/

/-- Settles O10: the error end leaves the engine idle, so that the position registers read exactly (10_state.md R62). -/
theorem raiseRecordsTheError : Obligations.RaiseRecordsTheError := by
  intro e s
  have hread : ∀ v : Word, readWhenIdle v (raiseError e s) = (v, raiseError e s) := readWhenIdle_idle rfl
  obtain ⟨hcode, -, -⟩ := statusWord_bytes (raiseError e s)
  refine ⟨raiseError_eq_failed e s, hcode, congrArg Prod.fst (hread s.inp.bitsIn), congrArg Prod.fst (hread s.out.bitsOut), ?_⟩
  calc (readReg .bitpos (raiseError e s)).1.toNat
    _ = (bitposWord (raiseError e s)).toNat := congrArg (fun r => r.1.toNat) (hread _)
    _ = s.inp.brCnt.val + 256 * s.out.bwCnt.val := bitposWord_toNat _

/-! ### The interrupt output (R350) -/

theorem irq_iff (s : State) :
    irq s = true ↔
      (s.status.done = true ∧ s.irqEn.doneIe = true) ∨ (s.status.err = true ∧ s.irqEn.errIe = true) := by
  simp only [irq, Bool.or_eq_true, Bool.and_eq_true]

/-- Settles O16: the two enabled flags, and bit 7 of the word that `STATUS` reads. -/
theorem interruptReportsEnabledFlags : Obligations.InterruptReportsEnabledFlags := by
  intro s
  obtain ⟨-, -, -, -, -, -, -, hirq⟩ := statusWord_flags s
  exact ⟨irq_iff s, hirq⟩

end Sys2Proof.Machine
end
